-- ==== Sys2Proof/Word.lean ====
section
/-! DEFINITION. The word types of the block (00_scope.md R6, R11; 10_state.md R29). -/

namespace Sys2Proof

/-- A byte: what a read cycle returns, what is emitted, and a command (`DATA_WIDTH` of R6). -/
abbrev Byte := BitVec 8

/-- A cartridge address (`ADDR_WIDTH` of R6). -/
abbrev Addr := BitVec 16

/-- A size, a block size or a counter that must hold 65536 (R26, R29, R99). -/
abbrev Size := BitVec 17

/-- A request word (30_encoding.md R91). -/
abbrev ReqWord := BitVec 32

end Sys2Proof
end

