-- ==== Sys2Proof/Syntax.lean ====
section
/-! DEFINITION. The operations of the block and the command bytes of the host layer as syntax: one constructor per row
of spec/opcode_table.json (30_encoding.md R90, R91, R96). Operands stand in the order of the source's signatures
(R101). -/

namespace Sys2Proof

/-- The chip discriminator (R98). -/
inductive Chip where
  | rom
  | ram
  deriving DecidableEq, Repr

/-- The output format (R28, R98). -/
inductive Format where
  | binary
  | hex
  deriving DecidableEq, Repr

inductive Instr where
  /-- R120. -/
  | nop
  /-- R121. -/
  | bringup
  /-- R122: `readByte(chip, bankA, bankB, address)`. -/
  | readByte (chip : Chip) (bankA bankB : Bool) (address : Addr)
  /-- R150: `compareBlock(chip, blockSize)`. -/
  | compareBlock (chip : Chip) (blockSize : Size)
  /-- R153: `getSize(chip)`. -/
  | getSize (chip : Chip)
  /-- R170. -/
  | probeMode (chip : Chip)
  /-- R174. -/
  | detect
  /-- R186: `dump(chip, modeFlags, size, format)`. -/
  | dump (chip : Chip) (affectsA affectsB : Bool) (size : Size) (format : Format)
  /-- R191. -/
  | run
  /-- The reserved operation codes 0x9 to 0xF (R95). -/
  | reserved9
  | reservedA
  | reservedB
  | reservedC
  | reservedD
  | reservedE
  | reservedF
  /-- R192. -/
  | cmdH
  /-- R193. -/
  | cmdB
  /-- R194. -/
  | cmdO
  /-- R195. -/
  | cmdA
  /-- R196: any other byte. -/
  | cmdOther (opcode : Byte)
  deriving DecidableEq, Repr

end Sys2Proof
end

