-- ==== Sys2Proof/WellFormed.lean ====
section
/-! DEFINITION. Which instructions lie in the source's domain: block sizes and dump sizes are at most 65536
(30_encoding.md R95), and CMD_other stands for the 252 bytes that are none of the four commands (R96). -/

namespace Sys2Proof

/-- A size operand of the source's domain (R95). -/
def sizeInDomain (n : Size) : Bool := n.toNat ≤ 65536

/-- A byte that is none of `h`, `b`, `o`, `a` (R96). -/
def isOtherCommand (c : Byte) : Bool := c != 0x68#8 && c != 0x62#8 && c != 0x6F#8 && c != 0x61#8

def Instr.wellFormed : Instr → Bool
  | .nop => true
  | .bringup => true
  | .readByte _ _ _ _ => true
  | .compareBlock _ blockSize => sizeInDomain blockSize
  | .getSize _ => true
  | .probeMode _ => true
  | .detect => true
  | .dump _ _ _ size _ => sizeInDomain size
  | .run => true
  | .reserved9 => true
  | .reservedA => true
  | .reservedB => true
  | .reservedC => true
  | .reservedD => true
  | .reservedE => true
  | .reservedF => true
  | .cmdH => true
  | .cmdB => true
  | .cmdO => true
  | .cmdA => true
  | .cmdOther opcode => isOtherCommand opcode

end Sys2Proof
end

