-- ==== Sys2Proof/Decode.lean ====
section
/-! DEFINITION. The decoder and the encoder of the two formats (30_encoding.md R91, R92, R96). The request port takes a
32-bit word and the serial input takes a byte, so each format has a decoder of its own (R100); both are total, since
every word and every byte has a row. `decode` reads an instruction given as bytes and rejects by name a length that is
neither format's. -/

namespace Sys2Proof

/-- Bit `n` of a word selects the chip: 0 is ROM, 1 is RAM (R98). -/
def chipOfBit (bit : Bool) : Chip := if bit then .ram else .rom

/-- 0 is Binary, 1 is Hex (R98). -/
def formatOfBit (bit : Bool) : Format := if bit then .hex else .binary

/-- The request decoder (R91, R92): `REQ[31:28]` selects the operation; a bit that R92 does not list is ignored. -/
def decodeRequest (w : ReqWord) : Instr :=
  let chip := chipOfBit (w.getLsbD 27)
  match (w.extractLsb' 28 4).toNat with
  | 0x0 => .nop
  | 0x1 => .bringup
  | 0x2 => .readByte chip (w.getLsbD 16) (w.getLsbD 17) (w.extractLsb' 0 16)
  | 0x3 => .compareBlock chip (w.extractLsb' 0 17)
  | 0x4 => .getSize chip
  | 0x5 => .probeMode chip
  | 0x6 => .detect
  | 0x7 => .dump chip (w.getLsbD 17) (w.getLsbD 18) (w.extractLsb' 0 17) (formatOfBit (w.getLsbD 26))
  | 0x8 => .run
  | 0x9 => .reserved9
  | 0xA => .reservedA
  | 0xB => .reservedB
  | 0xC => .reservedC
  | 0xD => .reservedD
  | 0xE => .reservedE
  | _ => .reservedF

/-- The command decoder (R96): the whole byte is the opcode, case-sensitive. -/
def decodeCommand (c : Byte) : Instr :=
  if c = 0x68#8 then .cmdH
  else if c = 0x62#8 then .cmdB
  else if c = 0x6F#8 then .cmdO
  else if c = 0x61#8 then .cmdA
  else .cmdOther c

/-- Why `decode` rejects a byte string. -/
inductive DecodeError where
  /-- Neither the one byte of a command nor the four bytes of a request (R100). -/
  | noSuchLength (bytes : Nat)
  deriving DecidableEq, Repr

/-- The bytes of a request word, least significant byte first (log entry 20: the request port has no byte order). -/
def wordOfBytes (b0 b1 b2 b3 : Byte) : ReqWord := b3 ++ b2 ++ b1 ++ b0

/-- An instruction given as bytes: one byte is a command, four bytes are a request. -/
def decode : List Byte → Except DecodeError Instr
  | [c] => .ok (decodeCommand c)
  | [b0, b1, b2, b3] => .ok (decodeRequest (wordOfBytes b0 b1 b2 b3))
  | bytes => .error (.noSuchLength bytes.length)

/-- The chip bit (R98). -/
def Chip.bit : Chip → Bool
  | .rom => false
  | .ram => true

/-- The format bit (R98). -/
def Format.bit : Format → Bool
  | .binary => false
  | .hex => true

/-- One bit of a word. -/
def bitOf (b : Bool) : BitVec 1 := BitVec.ofBool b

/-- A request word with no operand (R91). -/
def plainRequest (op : BitVec 4) : ReqWord := op ++ 0#28

/-- A request word whose one operand is the chip (R92). -/
def chipRequest (op : BitVec 4) (chip : Chip) : ReqWord := op ++ bitOf chip.bit ++ 0#27

/-- The two formats as they leave the host: a request word for the request port, or a byte for the serial input. -/
inductive Wire where
  | request (w : ReqWord)
  | command (c : Byte)
  deriving DecidableEq, Repr

/-- The encoder, from R91, R92 and R96; ignored bits are written 0. -/
def encodeWire : Instr → Wire
  | .nop => .request (plainRequest 0x0#4)
  | .bringup => .request (plainRequest 0x1#4)
  | .readByte chip bankA bankB address =>
    .request (0x2#4 ++ bitOf chip.bit ++ 0#9 ++ bitOf bankB ++ bitOf bankA ++ address)
  | .compareBlock chip blockSize => .request (0x3#4 ++ bitOf chip.bit ++ 0#10 ++ blockSize)
  | .getSize chip => .request (chipRequest 0x4#4 chip)
  | .probeMode chip => .request (chipRequest 0x5#4 chip)
  | .detect => .request (plainRequest 0x6#4)
  | .dump chip affectsA affectsB size format =>
    .request (0x7#4 ++ bitOf chip.bit ++ bitOf format.bit ++ 0#7 ++ bitOf affectsB ++ bitOf affectsA ++ size)
  | .run => .request (plainRequest 0x8#4)
  | .reserved9 => .request (plainRequest 0x9#4)
  | .reservedA => .request (plainRequest 0xA#4)
  | .reservedB => .request (plainRequest 0xB#4)
  | .reservedC => .request (plainRequest 0xC#4)
  | .reservedD => .request (plainRequest 0xD#4)
  | .reservedE => .request (plainRequest 0xE#4)
  | .reservedF => .request (plainRequest 0xF#4)
  | .cmdH => .command 0x68#8
  | .cmdB => .command 0x62#8
  | .cmdO => .command 0x6F#8
  | .cmdA => .command 0x61#8
  | .cmdOther opcode => .command opcode

/-- The bytes of what leaves the host, least significant byte first (log entry 20). -/
def Wire.bytes : Wire → List Byte
  | .request w => [w.extractLsb' 0 8, w.extractLsb' 8 8, w.extractLsb' 16 8, w.extractLsb' 24 8]
  | .command c => [c]

/-- The words of an instruction, as bytes. -/
def encode (i : Instr) : List Byte := (encodeWire i).bytes

/-- The instruction the decoder reads from an instruction of `nbits` bits whose bits are `w`: 8 bits are a command
byte, 32 bits a request word, laid out as `decode` takes them. -/
def decodeTableWord (nbits w : Nat) : Option Instr :=
  let bytes :=
    if nbits = 8 then (Wire.command (BitVec.ofNat 8 w)).bytes
    else if nbits = 32 then (Wire.request (BitVec.ofNat 32 w)).bytes
    else []
  match decode bytes with
  | .ok i => some i
  | .error _ => none

end Sys2Proof
end

