-- ==== Sys2Proof/Config.lean ====
section
/-! DEFINITION. What an implementation fixes (00_scope.md R6, the parameter table; 43_dump_and_commands.md R197, the
banner's texts) and the free values. A set of parameters is plain data that State carries and no step changes (log
entry 17); an opaque constant has no known value. -/

namespace Sys2Proof

namespace Config

/-- `SIZE_SENTINEL` (R6): the full address space, no mirroring observed. -/
def sizeSentinel : Size := 65536#17

/-- `PROBE_START` (R6): the first block size tested. -/
def probeStart : BitVec 16 := 32768#16

/-- `PROBE_ADDR` (R6): the address the bank probe reads. -/
def probeAddr : Addr := 0#16

/-- The source's lower bound of `T_HOLD_US` (R6, R234). -/
def holdMinUs : Nat := 6

/-- The source's lower bound of `T_RESET_US` (R6, R234). -/
def resetMinUs : Nat := 100

/-- The texts and the layout of the banner that the source does not give (R197, 91_not_in_source.md N25,
93_implementation_defined.md U17): arbitrary byte strings around the given substrings, and where each further
report line is inserted among those before it, which reaches all 24 orders (log entry 18). -/
structure BannerText where
  /-- Device name and version string, with whatever ends them. -/
  head : List Byte
  /-- What follows the ROM size. -/
  afterRom : List Byte
  /-- What follows the RAM size. -/
  afterRam : List Byte
  /-- What follows the report lines, in the order they are sent. -/
  after1 : List Byte
  after2 : List Byte
  after3 : List Byte
  after4 : List Byte
  /-- The command menu. -/
  menu : List Byte
  /-- Where the second, third and fourth report lines are inserted among those before. -/
  pos2 : Fin 2
  pos3 : Fin 3
  pos4 : Fin 4
  deriving DecidableEq, Repr, Inhabited

/-- The parameters of R6 that are neither fixed by the source nor part of the cartridge or of the input. -/
structure Params where
  /-- `T_HOLD_US` is the source's lower bound plus this (R234). -/
  holdExtraUs : Nat
  /-- `T_RESET_US` is the source's lower bound plus this (R234). -/
  resetExtraUs : Nat
  /-- `F_CLK_HZ`, a whole number of hertz (DESIGN CHOICE, log entry 17). -/
  fClkHz : Nat
  /-- `COMPARE_EARLY_EXIT` (R151). -/
  compareEarlyExit : Bool
  /-- `HEX_UPPERCASE` (R187). -/
  hexUppercase : Bool
  /-- `RST_ACTIVE_LEVEL`: true is the high level. -/
  rstActiveLevel : Bool
  /-- `BANK_ASSERT_LEVEL`: true is the high level. -/
  bankAssertLevel : Bool
  banner : BannerText
  deriving DecidableEq, Repr

/-- `T_HOLD_US`: a fixed duration of at least 6 microseconds. -/
def Params.tHoldUs (p : Params) : Nat := holdMinUs + p.holdExtraUs

/-- `T_RESET_US`: a fixed duration of at least 100 microseconds. -/
def Params.tResetUs (p : Params) : Nat := resetMinUs + p.resetExtraUs

/-- What the data bus carries where the device contract says nothing (10_state.md R22, 93_implementation_defined.md
U11): a free byte for each such sample (log entry 6). -/
opaque freeData : Nat → Byte

/-- What RESULT holds after an operation that returns nothing (30_encoding.md R93): a free value for each such
completion (log entry 7). -/
opaque freeResult : Nat → Size

/-- The OPEN parameters of the machine that comes out of reset (log entry 17). -/
opaque holdExtraUs : Nat
opaque resetExtraUs : Nat
opaque fClkHz : Nat
opaque rstActiveLevel : Bool
opaque bankAssertLevel : Bool
opaque bannerText : BannerText

/-- The parameters of the machine that comes out of reset: the defaults of R6 where it gives one
(`COMPARE_EARLY_EXIT`, `HEX_UPPERCASE`), free constants elsewhere (log entry 17). -/
def defaultParams : Params where
  holdExtraUs := holdExtraUs
  resetExtraUs := resetExtraUs
  fClkHz := fClkHz
  compareEarlyExit := true
  hexUppercase := true
  rstActiveLevel := rstActiveLevel
  bankAssertLevel := bankAssertLevel
  banner := bannerText

end Config

end Sys2Proof
end

