-- ==== Sys2Proof/Machine/State.lean ====
section
/-! DEFINITION. The state of the block (10_state.md), the reasons a step can stop, and the state after reset (R36). -/

namespace Sys2Proof.Machine

/-- The hardware raises nothing (60_exceptions.md R210: "the list of exceptions is empty, and a model has no fault
outcome for any operation"), so there is no fault; nothing raises one, which is safe. -/
inductive Fault where
  deriving DecidableEq, Repr

/-- Why the model gives a request no step (00_scope.md R9: a refusal is a statement about the model, not a signal of
the hardware). Each is safe: nothing is claimed of what the hardware would do. -/
inductive Refusal where
  /-- Raised by exec for an instruction without a meaning. Safe. -/
  | notModelled (mnemonic : String)
  /-- R31, R130: a request or a lone command while an operation runs, or another agent on the lines; the source calls
  it undefined. Raised by every meaning and by fetch. Safe. -/
  | concurrentInvocation
  /-- R122, R232 (a): an operation that would read the cartridge before bring-up. Safe. -/
  | notBroughtUp
  /-- R121, R232 (b): a second bring-up. Raised by BRINGUP. Safe. -/
  | alreadyBroughtUp
  /-- R122: a read while the lines are not idle. Raised by READ_BYTE; no run reaches it. Safe. -/
  | linesNotIdle
  /-- R95: a block size or dump size above 65536. Raised by COMPARE_BLOCK, DUMP, CMD_o, CMD_a. Safe. -/
  | operandOutOfDomain
  /-- R174, R232 (d): a second detection. Raised by DETECT. Safe. -/
  | alreadyDetected
  /-- R26, R27, R36, R232 (c), 93_implementation_defined.md U5: "reading a register whose validity bit is `false` is
  refused". Raised by CMD_o and CMD_a before DETECT, and by the host's reads. Safe. -/
  | registerNotValid
  /-- R191: RUN outside the power-on state. Raised by RUN. Safe. -/
  | notPowerOnState
  deriving DecidableEq, Repr

/-- One value for each chip: the indexed registers of R12. -/
structure PerChip (α : Type) where
  rom : α
  ram : α
  deriving DecidableEq, Repr

/-- Element `chip` of an indexed register. -/
def PerChip.get {α : Type} (p : PerChip α) : Chip → α
  | .rom => p.rom
  | .ram => p.ram

/-- Element `chip` of an indexed register replaced. -/
def PerChip.set {α : Type} (p : PerChip α) (chip : Chip) (v : α) : PerChip α :=
  match chip with
  | .rom => { p with rom := v }
  | .ram => { p with ram := v }

/-- The output lines (R21). A level is 1 when true; a name ending in `N` is active-low. -/
structure Lines where
  addr : Addr
  bankA : Bool
  bankB : Bool
  ceN : PerChip Bool
  oeN : Bool
  weN : Bool
  latchN : Bool
  clk : Bool
  rst : Bool
  deriving DecidableEq, Repr

/-- ModeFlags (R27). -/
structure ModeFlags where
  affectsA : Bool
  affectsB : Bool
  deriving DecidableEq, Repr

/-- The working registers (R29). -/
structure Work where
  sizeW : Size
  probe : BitVec 16
  bs : Size
  idx : Size
  first : Byte
  base : Byte
  fa : Bool
  fb : Bool
  b : BitVec 3
  actr : Size
  rChip : Chip
  rBankA : Bool
  rBankB : Bool
  rAddr : Addr
  deriving DecidableEq, Repr

/-- OP: the operation in progress, as it was accepted (R30; log entry 27). -/
inductive Op where
  | idle
  | bringup
  | readByte
  | compareBlock
  | getSize
  | probeMode
  | detect
  | dump
  | run
  | cmdO
  | cmdA
  deriving DecidableEq, Repr

/-- PH: the phase that the next step performs (R30): bring-up (R121) or a read cycle (R123 to R127). -/
inductive Phase where
  | bu1 | bu2 | bu3 | bu4
  | rb1 | rb2 | rb3 | rb4 | rb5 | rb6 | rb7 | rb8 | rb9 | rb10 | rb11 | rb12 | rb13
  deriving DecidableEq, Repr

/-- TMR, the wait timer of RB7 and BU3 (R30, R218). It has no readable value, so it says only whether the wait of the
current read cycle or bring-up lies before, is being measured, or has lasted its full duration (log entry 19). -/
inductive Timer where
  | stopped
  | running
  | elapsed
  deriving DecidableEq, Repr

/-- The operands of a dump in progress (R186). -/
structure DumpArgs where
  chip : Chip
  affectsA : Bool
  affectsB : Bool
  size : Size
  format : Format
  deriving DecidableEq, Repr

/-- A control point of the pseudocode: where the operation stands when no phase runs, with the operands and the local
variables that the pseudocode names there (R30: the compound operations are loops "whose position is held in the
working registers"; log entry 24). -/
inductive Frame where
  /-- R150, the head of the loop. -/
  | compareHead (chip : Chip) (seenUnequal : Bool)
  /-- R150, after the read at `idx`. -/
  | compareFirst (chip : Chip) (seenUnequal : Bool)
  /-- R150, after the read at `idx + bs`. -/
  | compareSecond (chip : Chip) (seenUnequal : Bool)
  /-- R153, the label `loop`. -/
  | sizeLoop (chip : Chip)
  /-- R153, after the comparison. -/
  | sizeTest (chip : Chip)
  /-- R170, the first line. -/
  | probeStart (chip : Chip)
  /-- R170, after the baseline read. -/
  | probeBase (chip : Chip)
  /-- R170, after the read with line A. -/
  | probeA (chip : Chip)
  /-- R170, after the read with line B. -/
  | probeB (chip : Chip)
  /-- R174, the first line. -/
  | detectStart
  /-- R174, after each of the four steps, with the results so far. -/
  | detectRomSized
  | detectRamSized (s0 : Size)
  | detectRomProbed (s0 s1 : Size)
  | detectRamProbed (s0 s1 : Size) (m0 : ModeFlags)
  /-- R186, the head of the bank loop. -/
  | dumpBank (d : DumpArgs)
  /-- R186, the head of the address loop. -/
  | dumpAddr (d : DumpArgs)
  /-- R186, after the read. -/
  | dumpByte (d : DumpArgs)
  /-- R186, after the byte's rendering was emitted. -/
  | dumpEmitted (d : DumpArgs)
  /-- R190: bytes to hand to the sink, in order. -/
  | emit (bytes : List Byte)
  /-- R191, after bring-up. -/
  | runBroughtUp
  /-- R191, after detection. -/
  | runDetected
  /-- R191, the head of the command loop. -/
  | commandLoop
  deriving DecidableEq, Repr

/-- What the outside world does at one step (00_scope.md R8; log entry 3). -/
inductive Input where
  /-- Nothing. -/
  | quiet
  /-- The host presents a request word (R31). -/
  | request (w : ReqWord)
  /-- The host hands the dispatcher one command byte by itself, outside RUN (R8, R232; log entry 14). -/
  | command (c : Byte)
  /-- A byte arrives on the serial input (R33, R238; log entry 15). -/
  | serial (c : Byte)
  /-- The sink is not ready to take a byte (R190, R238; log entry 16). -/
  | stall
  /-- External reset or power-cycle (R212). -/
  | externalReset
  /-- Another agent drives the lines (R130; log entry 25). -/
  | foreignDrive
  deriving DecidableEq, Repr

/-- The state of the block (R20), with the cartridge and the run's parameters (R33) and the model's own fields
(`byteV`, `resultV`, `stack`, `ret`, `env`, `autoRun`, `freeN`; INVENTORY.md says of each what it is for). -/
structure State where
  /-- The levels of the output lines; they mean something only while `driven` (R23). -/
  lines : Lines
  /-- DRIVEN (R23). -/
  driven : Bool
  /-- BYTE (R25) and whether it holds a value. -/
  byte : Byte
  byteV : Bool
  /-- SIZE and SIZE_V (R26). -/
  size : PerChip Size
  sizeV : PerChip Bool
  /-- MODE and MODE_V (R27). -/
  mode : PerChip ModeFlags
  modeV : PerChip Bool
  /-- FORMAT (R28). -/
  format : Format
  /-- The working registers (R29). -/
  work : Work
  /-- OP, PH and TMR (R30). -/
  op : Op
  ph : Option Phase
  tmr : Timer
  /-- The control points of the operation in progress, innermost first. -/
  stack : List Frame
  /-- What the innermost operation has just returned, as R93 packs it; none if it returns nothing. -/
  ret : Option Size
  /-- REQ, BUSY and RESULT (R31), and whether RESULT holds a value (R36). -/
  req : ReqWord
  busy : Bool
  result : Size
  resultV : Bool
  /-- OUT (R33). -/
  out : List Byte
  /-- The cartridge (R61): (location, byte) pairs in canonical form (log entry 4). -/
  cart : List Host.Cell
  /-- The implementation parameters (R6; log entry 17). -/
  params : Config.Params
  /-- The inputs of the coming steps (log entry 3). -/
  env : List Input
  /-- CMD_INPUT (R33): the bytes not yet consumed, and whether more may come (R191; log entry 15). -/
  cmdInput : List Byte
  cmdLive : Bool
  /-- Whether the power-on state starts RUN by itself (R215, R231; log entry 13). -/
  autoRun : Bool
  /-- How many free values have been used (log entries 6 and 7). -/
  freeN : Nat
  deriving DecidableEq, Repr

/-- Every control line at its idle level, the address given (R21, R129). -/
def Lines.idleAt (addr : Addr) : Lines where
  addr := addr
  bankA := false
  bankB := false
  ceN := ⟨true, true⟩
  oeN := true
  weN := true
  latchN := true
  clk := false
  rst := false

/-- The working registers after reset: R36 gives none of them a value (log entry 9). -/
def Work.reset : Work where
  sizeW := 0
  probe := 0
  bs := 0
  idx := 0
  first := 0
  base := 0
  fa := false
  fb := false
  b := 0
  actr := 0
  rChip := .rom
  rBankA := false
  rBankB := false
  rAddr := 0

/-- The power-on state, the second column of R36's table; where that column says "unspecified" or "not driven" the
value is log entry 9's or 10's. No cartridge cell is listed (log entry 4), no input is pending, and the parameters are
log entry 17's. -/
def State.reset : State where
  lines := Lines.idleAt 0
  driven := false
  byte := 0
  byteV := false
  size := ⟨0, 0⟩
  sizeV := ⟨false, false⟩
  mode := ⟨⟨false, false⟩, ⟨false, false⟩⟩
  modeV := ⟨false, false⟩
  format := .binary
  work := Work.reset
  op := .idle
  ph := none
  tmr := .stopped
  stack := []
  ret := none
  req := 0
  busy := false
  result := 0
  resultV := false
  out := []
  cart := []
  params := Config.defaultParams
  env := []
  cmdInput := []
  cmdLive := true
  autoRun := true
  freeN := 0

end Sys2Proof.Machine
end

