-- ==== Sys2Proof/Machine/Ops.lean ====
section
/-! DEFINITION. The named operations over the cartridge and the registers: the cartridge as memory (20_memory.md R60,
R61), the updates that every meaning is built from, the views of the lines (10_state.md R21, R24), the host's reads, the
shared preconditions, and external reset, the one event that stands where other hardware takes an exception
(60_exceptions.md R210, R212, R214: nothing traps, so there is no trap entry and no trap return). -/

namespace Sys2Proof.Machine

/-! The cartridge. -/

/-- The locations of the cartridge space: two chips, two bank lines, 16-bit addresses (R60). -/
def numLocations : Nat := 524288

/-- The key of a location: `{chip, bankB, bankA, a}`, so that bits 17 and 16 are the bank index (R97). -/
def location (chip : Chip) (bankA bankB : Bool) (a : Addr) : Nat :=
  chip.bit.toNat * 262144 + bankB.toNat * 131072 + bankA.toNat * 65536 + a.toNat

/-- What a location that is not listed reads as (log entry 4). -/
def unlistedByte : Byte := 0xFF#8

/-- Keys at least `lo`, strictly rising, inside the space, and no entry equal to what an unlisted location reads as. -/
def Memory.canonicalFrom : Nat → List Host.Cell → Bool
  | _, [] => true
  | lo, (k, v) :: rest =>
    decide (lo ≤ k) && decide (k < numLocations) && v != unlistedByte && Memory.canonicalFrom (k + 1) rest

/-- The canonical form of the cartridge's content: equal contents are equal lists. -/
def Memory.wf (cells : List Host.Cell) : Bool := Memory.canonicalFrom 0 cells

/-- The byte at a location. -/
def Memory.read : List Host.Cell → Nat → Byte
  | [], _ => unlistedByte
  | (k, v) :: rest, key => if k = key then v else Memory.read rest key

/-- A cell put first, unless it says what an unlisted location says anyway. -/
def Memory.put (key : Nat) (v : Byte) (rest : List Host.Cell) : List Host.Cell :=
  if v = unlistedByte then rest else (key, v) :: rest

/-- The content with the byte at one location replaced. No operation of the block calls it (R71): it is how a cartridge
is put into the socket before a run. -/
def Memory.write : List Host.Cell → Nat → Byte → List Host.Cell
  | [], key, v => Memory.put key v []
  | (k, u) :: rest, key, v =>
    if key < k then Memory.put key v ((k, u) :: rest)
    else if key = k then Memory.put key v rest
    else (k, u) :: Memory.write rest key v

/-- `Dev(chip, bankA, bankB, a)` (R61): a function of these four and of nothing else, fixed for a run. -/
def dev (cart : List Host.Cell) (chip : Chip) (bankA bankB : Bool) (a : Addr) : Byte :=
  Memory.read cart (location chip bankA bankB a)

/-! Updates. Each changes the fields it names and no other (Laws/State.lean has one lemma for each field). -/

def State.setLines (s : State) (l : Lines) : State := { s with lines := l }

def State.setDriven (s : State) : State := { s with driven := true }

def State.setPh (s : State) (p : Option Phase) : State := { s with ph := p }

def State.setTmr (s : State) (t : Timer) : State := { s with tmr := t }

def State.setWork (s : State) (w : Work) : State := { s with work := w }

def State.setStack (s : State) (frames : List Frame) : State := { s with stack := frames }

def State.setRet (s : State) (v : Option Size) : State := { s with ret := v }

def State.setFormat (s : State) (f : Format) : State := { s with format := f }

/-- `emit(v)` once the sink takes the byte (R190): OUT grows at its end (R33). -/
def State.pushOut (s : State) (v : Byte) : State := { s with out := s.out ++ [v] }

/-- `BYTE <- v` (R126), with the number of free values the sample used. -/
def State.storeByte (s : State) (v : Byte) (used : Nat) : State :=
  { s with byte := v, byteV := true, freeN := s.freeN + used }

/-- The four register writes of DETECT with their validity bits (R174). -/
def State.storeDetection (s : State) (s0 s1 : Size) (m0 m1 : ModeFlags) : State :=
  { s with size := ⟨s0, s1⟩, sizeV := ⟨true, true⟩, mode := ⟨m0, m1⟩, modeV := ⟨true, true⟩ }

/-- The acceptance of an operation (R31): BUSY rises, OP names it, no phase runs yet and nothing has been returned. -/
def State.accept (s : State) (op : Op) (frames : List Frame) : State :=
  { s with busy := true, op := op, ph := none, stack := frames, ret := none }

/-- BUSY falls (R31, R93), RESULT holding `r`. -/
def State.finish (s : State) (r : Size) (valid : Bool) (used : Nat) : State :=
  { s with busy := false, op := .idle, ret := none, result := r, resultV := valid, freeN := s.freeN + used }

/-- The end of the operation that was accepted: RESULT is what it returned; after an operation that returns nothing it
is unspecified (R93), a free value (log entry 7). -/
def complete (s : State) : State :=
  match s.ret with
  | some v => s.finish v true 0
  | none => s.finish (Config.freeResult s.freeN) false 1

/-- The innermost operation returns `v` to the control points below it. -/
def returnTo (rest : List Frame) (v : Option Size) (s : State) : State := (s.setStack rest).setRet v

/-- `readByte(chip, bankA, bankB, a)` called: its operands are latched (R29) and its phases begin (R122); the control
points below are `rest`. -/
def startRead (chip : Chip) (bankA bankB : Bool) (a : Addr) (rest : List Frame) (s : State) : State :=
  ((s.setWork { s.work with rChip := chip, rBankA := bankA, rBankB := bankB, rAddr := a }).setPh (some .rb1)).setStack rest

/-- A choice for one chip, as a boolean result is packed into RESULT (R93). -/
def sizeOfBool (b : Bool) : Size := if b then 1#17 else 0#17

/-! Views of the lines. -/

/-- The 25-bit vector LINES (R24). -/
def Lines.pack (l : Lines) : BitVec 25 :=
  bitOf l.rst ++ bitOf l.clk ++ bitOf l.latchN ++ bitOf l.weN ++ bitOf l.oeN ++ bitOf l.ceN.ram ++ bitOf l.ceN.rom
    ++ bitOf l.bankB ++ bitOf l.bankA ++ l.addr

/-- Every control line is at its idle level (R21, R129); ADDR may be anything. -/
def Lines.isIdle (l : Lines) : Bool := l == Lines.idleAt l.addr

/-- The levels on the lines, where they are defined: none before bring-up has configured them (R23). -/
def State.lineLevels (s : State) : Option Lines := if s.driven then some s.lines else none

/-- The level of RST, which BU1 drives before the other lines (R121). -/
def State.rstLevel (s : State) : Option Bool :=
  if s.driven || s.ph == some .bu2 then some s.lines.rst else none

/-- The electrical level of the reset line, high being true, for a logical level (R6 `RST_ACTIVE_LEVEL`; log entry 21). -/
def rstPin (p : Config.Params) (active : Bool) : Bool := active == p.rstActiveLevel

/-- The electrical level of a bank-select line (R6 `BANK_ASSERT_LEVEL`; log entry 21). -/
def bankPin (p : Config.Params) (asserted : Bool) : Bool := asserted == p.bankAssertLevel

/-! Time (R234, R236; D2: the machine is untimed, so these are functions beside the step). -/

/-- `ceil(us * F_CLK_HZ / 1000000)`. -/
def cyclesOfUs (us fClkHz : Nat) : Nat := (us * fClkHz + 999999) / 1000000

/-- `HOLD_CYCLES` (R236). -/
def holdCycles (p : Config.Params) : Nat := cyclesOfUs p.tHoldUs p.fClkHz

/-- `RESET_CYCLES` (R236). -/
def resetCycles (p : Config.Params) : Nat := cyclesOfUs p.tResetUs p.fClkHz

/-- How long the wait of a phase lasts, in microseconds: RB7 and BU3 are the only waits (R218). -/
def phaseWaitUs (p : Config.Params) : Phase → Nat
  | .rb7 => p.tHoldUs
  | .bu3 => p.tResetUs
  | _ => 0

/-! The host's reads of registers, refused while the register holds no value (92_eei_decisions.md D18). -/

/-- R36: RESULT is "valid only after an operation that returns a value". -/
def readResult (s : State) : Except Refusal Size := if s.resultV then .ok s.result else .error .registerNotValid

/-- R25, R36: BYTE "holds no value; reading refused" until the first read cycle. -/
def readByteReg (s : State) : Except Refusal Byte := if s.byteV then .ok s.byte else .error .registerNotValid

/-- R26: "reading `SIZE[chip]` while `SIZE_V[chip]` is `false` is refused". -/
def readSize (s : State) (chip : Chip) : Except Refusal Size :=
  if s.sizeV.get chip then .ok (s.size.get chip) else .error .registerNotValid

/-- R27: "the same rule as `SIZE_V[chip]`". -/
def readMode (s : State) (chip : Chip) : Except Refusal ModeFlags :=
  if s.modeV.get chip then .ok (s.mode.get chip) else .error .registerNotValid

/-! Shared preconditions. -/

/-- The outcome of a meaning. -/
abbrev Result := Host.Outcome State Fault Refusal

/-- No operation runs (R31). -/
def whenIdle (s : State) (k : Result) : Result := if s.busy then .refused .concurrentInvocation else k

/-- Bring-up is done (R232 (a)). -/
def whenDriven (s : State) (k : Result) : Result := if s.driven then k else .refused .notBroughtUp

/-- A size operand is in the domain (R95). -/
def whenInDomain (n : Size) (k : Result) : Result := if sizeInDomain n then k else .refused .operandOutOfDomain

/-- No detection result exists (R174, R191). -/
def State.nothingDetected (s : State) : Bool := !s.sizeV.rom && !s.sizeV.ram && !s.modeV.rom && !s.modeV.ram

/-- The power-on state as R191 states it: not driven, nothing detected (log entry 26). -/
def State.atPowerOn (s : State) : Bool := !s.driven && s.nothingDetected

/-- RUN stands at the head of its command loop (R191), the one place where a command is dispatched inside RUN. -/
def State.awaitsCommand (s : State) : Bool := s.busy && s.ph == none && s.stack.head? == some .commandLoop

/-- A command byte may be dispatched: RUN waits for one, or no operation runs (log entry 14). -/
def whenDispatching (s : State) (k : Result) : Result :=
  if s.busy && !s.awaitsCommand then .refused .concurrentInvocation else k

/-! External reset. -/

/-- External reset or power-cycle (R212, R230): the block's state becomes the power-on state whatever was running, and
nothing of it survives. What is not the block's own stays: the cartridge, the parameters and the inputs still to come
(log entry 11). -/
def externalReset (s : State) : State :=
  { State.reset with
    cart := s.cart
    params := s.params
    env := s.env
    cmdInput := s.cmdInput
    cmdLive := s.cmdLive
    autoRun := s.autoRun
    freeN := s.freeN }

end Sys2Proof.Machine
end

