-- ==== Sys2Proof/Machine/Flags.lean ====
section
/-! DEFINITION. The block has no flags or condition codes (10_state.md R32); what stands here are the outcomes of its
byte comparisons, which the operations use at once or keep in `fa` and `fb`. -/

namespace Sys2Proof.Machine

/-- The outcome of one comparison of two bytes (R15 (e)). -/
def bytesDiffer (x y : Byte) : Bool := x != y

/-- ModeFlags packed as RESULT shows them (R93): bit 0 affectsA, bit 1 affectsB, the rest 0. -/
def packMode (m : ModeFlags) : Size := 0#15 ++ bitOf m.affectsB ++ bitOf m.affectsA

/-- ModeFlags as PROBE_MODE leaves them in the working registers `fa` and `fb` (R170). -/
def probedMode (w : Work) : ModeFlags := ⟨w.fa, w.fb⟩

end Sys2Proof.Machine
end

