-- ==== Sys2Proof/Machine/Operands.lean ====
section
/-! DEFINITION. Operand forms and the arithmetic on them: the bank index (30_encoding.md R97, 43_dump_and_commands.md
R185), the addresses of a comparison (20_memory.md R69), halving a probe (00_scope.md R15). All of it is unsigned and
at the operand's own width (R94). -/

namespace Sys2Proof.Machine

/-- `bankA = b & 1` (R97), true when not zero (R11). -/
def bankAOf (b : BitVec 3) : Bool := b &&& 1#3 != 0#3

/-- `bankB = b & 2` (R97), true when not zero (R11). -/
def bankBOf (b : BitVec 3) : Bool := b &&& 2#3 != 0#3

/-- The bank index `b` is in the set that ModeFlags select (R185). -/
def bankSelected (affectsA affectsB : Bool) (b : BitVec 3) : Bool :=
  (!bankAOf b || affectsA) && (!bankBOf b || affectsB)

/-- The low 16 bits of a counter, which are what reaches the address lines (R15 (b)). -/
def addrOf (n : Size) : Addr := n.setWidth 16

/-- The second address of a pair, `(idx + bs) mod 65536` (R69, R150). -/
def pairAddr (idx bs : Size) : Addr := addrOf (idx + bs)

/-- `probe / 2` (R15 (c)): exact, since it is applied to powers of two above 1. -/
def halve (probe : BitVec 16) : BitVec 16 := probe >>> 1

/-- A probe as a block size (R153 calls `compareBlock(chip, probe)`). -/
def sizeOfProbe (probe : BitVec 16) : Size := probe.setWidth 17

/-- The operands of the dump that a command byte stands for (R194, R195): the detected mode and size of the chip and
the current format. -/
def commandDump (s : State) (chip : Chip) : DumpArgs where
  chip := chip
  affectsA := (s.mode.get chip).affectsA
  affectsB := (s.mode.get chip).affectsB
  size := s.size.get chip
  format := s.format

end Sys2Proof.Machine
end

