-- ==== Sys2Proof/Machine/Bus.lean ====
section
/-! DEFINITION. The bus controller (40_bus_read_cycle.md): the phases of bring-up and of the read cycle, the device
contract (20_memory.md R62), and NOP, the reserved codes, BRINGUP and READ_BYTE. -/

namespace Sys2Proof.Machine

/-! Bring-up (R121). -/

/-- BU1: `RST <- true`. -/
def holdReset (s : State) : State := ((s.setLines { s.lines with rst := true }).setTmr .stopped).setPh (some .bu2)

/-- BU2: all address and control lines become outputs at their idle levels, ADDR 0x0000; RST keeps its level. -/
def configureLines (s : State) : State :=
  (((s.setLines { Lines.idleAt 0 with rst := s.lines.rst }).setDriven).setTmr .running).setPh (some .bu3)

/-- BU3: the wait of `T_RESET_US`; no line changes. -/
def waitReset (s : State) : State := (s.setTmr .elapsed).setPh (some .bu4)

/-- BU4: `RST <- false`; bring-up returns nothing. -/
def releaseReset (s : State) : State := ((s.setLines { s.lines with rst := false }).setPh none).setRet none

/-! The assert half of the read cycle (R123) and the hold (R124). -/

/-- RB1: `ADDR <- address`. -/
def assertAddress (s : State) : State :=
  ((s.setLines { s.lines with addr := s.work.rAddr }).setTmr .stopped).setPh (some .rb2)

/-- RB2: the two bank lines. -/
def assertBanks (s : State) : State :=
  (s.setLines { s.lines with bankA := s.work.rBankA, bankB := s.work.rBankB }).setPh (some .rb3)

/-- RB3: `CE_N[chip] <- 0`. -/
def assertChip (s : State) : State :=
  (s.setLines { s.lines with ceN := s.lines.ceN.set s.work.rChip false }).setPh (some .rb4)

/-- RB4: `OE_N <- 0`. -/
def assertOutput (s : State) : State := (s.setLines { s.lines with oeN := false }).setPh (some .rb5)

/-- RB5: `LATCH_N <- 0`. -/
def openLatch (s : State) : State := (s.setLines { s.lines with latchN := false }).setPh (some .rb6)

/-- RB6: `CLK <- 1`; the hold is measured from here (R234). -/
def raiseClock (s : State) : State :=
  ((s.setLines { s.lines with clk := true }).setTmr .running).setPh (some .rb7)

/-- RB7: the wait of `T_HOLD_US`; no line changes. -/
def holdLines (s : State) : State := (s.setTmr .elapsed).setPh (some .rb8)

/-! The sample (R126). -/

/-- The chip whose enable alone is low, if there is one. -/
def selectedChip (l : Lines) : Option Chip :=
  match l.ceN.rom, l.ceN.ram with
  | false, true => some .rom
  | true, false => some .ram
  | _, _ => none

/-- The line state of R125 apart from ADDR, the bank lines and the choice of chip, with the hold elapsed. -/
def State.busEnabled (s : State) : Bool :=
  s.driven && !s.lines.oeN && s.lines.weN && !s.lines.latchN && s.lines.clk && !s.lines.rst && s.tmr == .elapsed

/-- The device contract (R62): the byte on DATA, where the contract gives one. It is read off the lines, not off the
operands. -/
def busData (s : State) : Option Byte :=
  if s.busEnabled then
    (selectedChip s.lines).map (fun chip => dev s.cart chip s.lines.bankA s.lines.bankB s.lines.addr)
  else none

/-- RB8: `BYTE <- sample DATA`, one sample of all eight bits; outside the contract the byte is free (R22; log entry 6). -/
def sampleData (s : State) : State :=
  match busData s with
  | some v => (s.storeByte v 0).setPh (some .rb9)
  | none => (s.storeByte (Config.freeData s.freeN) 1).setPh (some .rb9)

/-! The restore half (R127), in the order of the source's list (90_conflicts.md C1). -/

/-- RB9: both bank lines deasserted. -/
def releaseBanks (s : State) : State :=
  (s.setLines { s.lines with bankA := false, bankB := false }).setPh (some .rb10)

/-- RB10: `CE_N[chip] <- 1`. -/
def releaseChip (s : State) : State :=
  (s.setLines { s.lines with ceN := s.lines.ceN.set s.work.rChip true }).setPh (some .rb11)

/-- RB11: `OE_N <- 1`. -/
def releaseOutput (s : State) : State := (s.setLines { s.lines with oeN := true }).setPh (some .rb12)

/-- RB12: `LATCH_N <- 1`. -/
def closeLatch (s : State) : State := (s.setLines { s.lines with latchN := true }).setPh (some .rb13)

/-- RB13: `CLK <- 0`; the cycle ends and `readByte` returns BYTE. -/
def dropClock (s : State) : State :=
  ((s.setLines { s.lines with clk := false }).setPh none).setRet (some (s.byte.setWidth 17))

/-- One phase of the sequencer (R30): phases run in this order and none is skipped (R233). -/
def phaseStep (p : Phase) (s : State) : State :=
  match p with
  | .bu1 => holdReset s
  | .bu2 => configureLines s
  | .bu3 => waitReset s
  | .bu4 => releaseReset s
  | .rb1 => assertAddress s
  | .rb2 => assertBanks s
  | .rb3 => assertChip s
  | .rb4 => assertOutput s
  | .rb5 => openLatch s
  | .rb6 => raiseClock s
  | .rb7 => holdLines s
  | .rb8 => sampleData s
  | .rb9 => releaseBanks s
  | .rb10 => releaseChip s
  | .rb11 => releaseOutput s
  | .rb12 => closeLatch s
  | .rb13 => dropClock s

/-- `BRINGUP` called: its phases begin; the control points below are `rest`. -/
def startBringup (rest : List Frame) (s : State) : State := (s.setPh (some .bu1)).setStack rest

/-! The meanings. -/

/-- What a request without an effect does: BUSY rises and falls within the step and nothing else changes (R95, R120;
log entry 8). -/
def noEffect (s : State) : Result := whenIdle s (.next s)

/-- NOP (R120). -/
def execNop (s : State) : Result := noEffect s

/-- The reserved operation codes (R95). -/
def execReserved9 (s : State) : Result := noEffect s
def execReservedA (s : State) : Result := noEffect s
def execReservedB (s : State) : Result := noEffect s
def execReservedC (s : State) : Result := noEffect s
def execReservedD (s : State) : Result := noEffect s
def execReservedE (s : State) : Result := noEffect s
def execReservedF (s : State) : Result := noEffect s

/-- BRINGUP (R121): accepted once, while the lines are not driven; BU1 to BU4 follow. -/
def execBringup (s : State) : Result :=
  whenIdle s (if s.driven then .refused .alreadyBroughtUp else .next (startBringup [] (s.accept .bringup [])))

/-- READ_BYTE (R122): accepted when the lines are driven and idle; RB1 to RB13 follow and BYTE is returned. -/
def execReadByte (chip : Chip) (bankA bankB : Bool) (address : Addr) (s : State) : Result :=
  whenIdle s (whenDriven s
    (if s.lines.isIdle then .next (startRead chip bankA bankB address [] (s.accept .readByte []))
     else .refused .linesNotIdle))

end Sys2Proof.Machine
end

