-- ==== Sys2Proof/Machine/Detector.lean ====
section
/-! DEFINITION. The capacity detector (41_size_detector.md): COMPARE_BLOCK and GET_SIZE. -/

namespace Sys2Proof.Machine

/-! COMPARE_BLOCK (R150). -/

/-- `compareBlock(chip, blockSize)` called: `bs <- blockSize`, `idx <- 0`. -/
def startCompare (chip : Chip) (blockSize : Size) (rest : List Frame) (s : State) : State :=
  (s.setWork { s.work with bs := blockSize, idx := 0 }).setStack (.compareHead chip false :: rest)

/-- `while idx < bs`: the lower address of the pair is read first, with both bank lines false (R151); at the end the
result is true when every pair was equal. -/
def compareHead (chip : Chip) (seenUnequal : Bool) (rest : List Frame) (s : State) : State :=
  if s.work.idx < s.work.bs then
    startRead chip false false (addrOf s.work.idx) (.compareFirst chip seenUnequal :: rest) s
  else returnTo rest (some (sizeOfBool (!seenUnequal))) s

/-- `first <- readByte(...)`, then the read at `(idx + bs) mod 65536`. -/
def compareFirst (chip : Chip) (seenUnequal : Bool) (rest : List Frame) (s : State) : State :=
  startRead chip false false (pairAddr s.work.idx s.work.bs) (.compareSecond chip seenUnequal :: rest)
    (s.setWork { s.work with first := s.byte })

/-- `idx <- idx + 1` and back to the head of the loop. -/
def compareNext (chip : Chip) (seenUnequal : Bool) (rest : List Frame) (s : State) : State :=
  (s.setWork { s.work with idx := s.work.idx + 1 }).setStack (.compareHead chip seenUnequal :: rest)

/-- The comparison of the pair: an unequal pair ends the loop if `COMPARE_EARLY_EXIT`, else it is remembered. -/
def compareSecond (chip : Chip) (seenUnequal : Bool) (rest : List Frame) (s : State) : State :=
  if bytesDiffer s.work.first s.byte then
    if s.params.compareEarlyExit then returnTo rest (some (sizeOfBool false)) s
    else compareNext chip true rest s
  else compareNext chip seenUnequal rest s

/-- COMPARE_BLOCK (R150). -/
def execCompareBlock (chip : Chip) (blockSize : Size) (s : State) : Result :=
  whenIdle s (whenDriven s (whenInDomain blockSize (.next (startCompare chip blockSize [] (s.accept .compareBlock [])))))

/-! GET_SIZE (R153). -/

/-- `getSize(chip)` called: `size_w <- 65536`, `probe <- 32768`. -/
def startGetSize (chip : Chip) (rest : List Frame) (s : State) : State :=
  (s.setWork { s.work with sizeW := Config.sizeSentinel, probe := Config.probeStart }).setStack (.sizeLoop chip :: rest)

/-- The label `loop`: `compareBlock(chip, probe)`. -/
def sizeLoop (chip : Chip) (rest : List Frame) (s : State) : State :=
  startCompare chip (sizeOfProbe s.work.probe) (.sizeTest chip :: rest) s

/-- After the comparison: false stops at once with the last recorded size; true records the probe, halves it if it is
above 1, and goes to `loop`. At probe 1 the same probe is tested again (90_conflicts.md C2), which is the hang of R155
when it keeps succeeding. -/
def sizeTest (chip : Chip) (rest : List Frame) (s : State) : State :=
  if s.ret = some (sizeOfBool true) then
    (s.setWork { s.work with
      sizeW := sizeOfProbe s.work.probe
      probe := if 1#16 < s.work.probe then halve s.work.probe else s.work.probe }).setStack (.sizeLoop chip :: rest)
  else returnTo rest (some s.work.sizeW) s

/-- GET_SIZE (R153). -/
def execGetSize (chip : Chip) (s : State) : Result :=
  whenIdle s (whenDriven s (.next (startGetSize chip [] (s.accept .getSize []))))

end Sys2Proof.Machine
end

