-- ==== Sys2Proof/Machine/Probe.lean ====
section
/-! DEFINITION. The bank-select mode probe (42_bank_mode_probe.md): PROBE_MODE and DETECT. -/

namespace Sys2Proof.Machine

/-! PROBE_MODE (R170): three read cycles at address 0 (R171). -/

/-- PROBE_MODE called. -/
def startProbe (chip : Chip) (rest : List Frame) (s : State) : State := s.setStack (.probeStart chip :: rest)

/-- The baseline read, both lines false. -/
def probeStart (chip : Chip) (rest : List Frame) (s : State) : State :=
  startRead chip false false Config.probeAddr (.probeBase chip :: rest) s

/-- `base <- ...`, then the read with line A alone. -/
def probeBase (chip : Chip) (rest : List Frame) (s : State) : State :=
  startRead chip true false Config.probeAddr (.probeA chip :: rest) (s.setWork { s.work with base := s.byte })

/-- `fa <- (withA != base)`, then the read with line B alone. -/
def probeA (chip : Chip) (rest : List Frame) (s : State) : State :=
  startRead chip false true Config.probeAddr (.probeB chip :: rest)
    (s.setWork { s.work with fa := bytesDiffer s.byte s.work.base })

/-- `fb <- (withB != base)`; the two flags are returned. -/
def probeB (rest : List Frame) (s : State) : State :=
  let w := { s.work with fb := bytesDiffer s.byte s.work.base }
  returnTo rest (some (packMode (probedMode w))) (s.setWork w)

/-- PROBE_MODE (R170). -/
def execProbeMode (chip : Chip) (s : State) : Result :=
  whenIdle s (whenDriven s (.next (startProbe chip [] (s.accept .probeMode []))))

/-! DETECT (R174). -/

/-- DETECT called. -/
def startDetect (rest : List Frame) (s : State) : State := s.setStack (.detectStart :: rest)

/-- `s0 = getSize(ROM)`. -/
def detectStart (rest : List Frame) (s : State) : State := startGetSize .rom (.detectRomSized :: rest) s

/-- `s1 = getSize(RAM)`; GET_SIZE has left `s0` in `size_w`. -/
def detectRomSized (rest : List Frame) (s : State) : State :=
  startGetSize .ram (.detectRamSized s.work.sizeW :: rest) s

/-- `m0 = probeMode(ROM)`. -/
def detectRamSized (s0 : Size) (rest : List Frame) (s : State) : State :=
  startProbe .rom (.detectRomProbed s0 s.work.sizeW :: rest) s

/-- `m1 = probeMode(RAM)`; PROBE_MODE has left `m0` in `fa` and `fb`. -/
def detectRomProbed (s0 s1 : Size) (rest : List Frame) (s : State) : State :=
  startProbe .ram (.detectRamProbed s0 s1 (probedMode s.work) :: rest) s

/-- The four register writes, after all four steps; DETECT returns nothing. -/
def detectRamProbed (s0 s1 : Size) (m0 : ModeFlags) (rest : List Frame) (s : State) : State :=
  returnTo rest none (s.storeDetection s0 s1 m0 (probedMode s.work))

/-- DETECT (R174): refused once any validity bit is true. -/
def execDetect (s : State) : Result :=
  whenIdle s (whenDriven s
    (if s.nothingDetected then .next (startDetect [] (s.accept .detect [])) else .refused .alreadyDetected))

end Sys2Proof.Machine
end

