-- ==== Sys2Proof/Machine/Dump.lean ====
section
/-! DEFINITION. The dump engine (43_dump_and_commands.md R185 to R190): DUMP and the rendering of a byte. -/

namespace Sys2Proof.Machine

/-! Text. The numeric codes are ASCII (93_implementation_defined.md G1). -/

/-- The ASCII digit of a nibble (R187). -/
def hexDigit (upper : Bool) (n : BitVec 4) : Byte :=
  if n < 10#4 then 0x30#8 + n.setWidth 8
  else if upper then 0x41#8 + (n.setWidth 8 - 10#8)
  else 0x61#8 + (n.setWidth 8 - 10#8)

/-- The two hexadecimal digits of a byte, high nibble first. -/
def hexByte (upper : Bool) (v : Byte) : List Byte :=
  [hexDigit upper (v.extractLsb' 4 4), hexDigit upper (v.extractLsb' 0 4)]

/-- What one byte of a dump is emitted as: two digits and a space (R187), or the byte itself (R188). -/
def render (p : Config.Params) (format : Format) (v : Byte) : List Byte :=
  match format with
  | .hex => hexByte p.hexUppercase v ++ [0x20#8]
  | .binary => [v]

/-- `emit` of the pending bytes (R190): one byte each step in which the sink is ready, no read cycle running; then the
control points below go on. -/
def emitStep (sinkReady : Bool) (bytes : List Byte) (rest : List Frame) (s : State) : State :=
  match bytes with
  | [] => s.setStack rest
  | v :: vs => if sinkReady then (s.pushOut v).setStack (.emit vs :: rest) else s

/-! DUMP (R186). -/

/-- `dump(...)` called: `b <- 0`. -/
def startDump (d : DumpArgs) (rest : List Frame) (s : State) : State :=
  (s.setWork { s.work with b := 0 }).setStack (.dumpBank d :: rest)

/-- `b <- b + 1` and back to the head of the bank loop. -/
def nextBank (d : DumpArgs) (rest : List Frame) (s : State) : State :=
  (s.setWork { s.work with b := s.work.b + 1 }).setStack (.dumpBank d :: rest)

/-- `while b < 4`: a bank index of the set is dumped from address 0, another is skipped. -/
def dumpBank (d : DumpArgs) (rest : List Frame) (s : State) : State :=
  if s.work.b < 4#3 then
    if bankSelected d.affectsA d.affectsB s.work.b then
      (s.setWork { s.work with actr := 0 }).setStack (.dumpAddr d :: rest)
    else nextBank d rest s
  else returnTo rest none s

/-- `while actr < size`: the next read. -/
def dumpAddr (d : DumpArgs) (rest : List Frame) (s : State) : State :=
  if s.work.actr < d.size then
    startRead d.chip (bankAOf s.work.b) (bankBOf s.work.b) (addrOf s.work.actr) (.dumpByte d :: rest) s
  else nextBank d rest s

/-- The byte read is emitted before the next read cycle begins. -/
def dumpByte (d : DumpArgs) (rest : List Frame) (s : State) : State :=
  s.setStack (.emit (render s.params d.format s.byte) :: .dumpEmitted d :: rest)

/-- `actr <- actr + 1`. -/
def dumpEmitted (d : DumpArgs) (rest : List Frame) (s : State) : State :=
  (s.setWork { s.work with actr := s.work.actr + 1 }).setStack (.dumpAddr d :: rest)

/-- DUMP (R186); its operands carry the flags, the size and the format. -/
def execDump (chip : Chip) (affectsA affectsB : Bool) (size : Size) (format : Format) (s : State) : Result :=
  whenIdle s (whenDriven s (whenInDomain size
    (.next (startDump ⟨chip, affectsA, affectsB, size, format⟩ [] (s.accept .dump [])))))

end Sys2Proof.Machine
end

