-- ==== Sys2Proof/Machine/Commands.lean ====
section
/-! DEFINITION. The command dispatcher (43_dump_and_commands.md R191 to R198): RUN, the banner, and the command bytes. -/

namespace Sys2Proof.Machine

/-! The banner (R197, R198). -/

/-- The ASCII codes of a text (93_implementation_defined.md G1). -/
def asciiBytes (text : List Char) : List Byte := text.map (fun c => BitVec.ofNat 8 c.toNat)

/-- `ROM` or `RAM`. -/
def chipText : Chip → List Char
  | .rom => ['R', 'O', 'M']
  | .ram => ['R', 'A', 'M']

/-- `ROM Size is $`, and the same pattern for RAM. -/
def sizePrefix (chip : Chip) : List Byte :=
  asciiBytes (chipText chip ++ [' ', 'S', 'i', 'z', 'e', ' ', 'i', 's', ' ', '$'])

/-- A size in hexadecimal (R198): the digit 1 first if bit 16 is set, then the low 16 bits as two bytes of two digits,
high byte then low byte. -/
def sizeText (upper : Bool) (n : Size) : List Byte :=
  (if n.getLsbD 16 then [0x31#8] else []) ++ hexByte upper (n.extractLsb' 8 8) ++ hexByte upper (n.extractLsb' 0 8)

/-- `P25.2` for line A, `P25.3` for line B (R197, D17). -/
def lineText (lineB : Bool) : List Char := ['P', '2', '5', '.', if lineB then '3' else '2']

/-- `P25.2 affects ROM contents` or `P25.2 does not affect ROM contents`, and analogously. -/
def reportLine (lineB : Bool) (chip : Chip) (affects : Bool) : List Byte :=
  asciiBytes (lineText lineB
    ++ (if affects then [' ', 'a', 'f', 'f', 'e', 'c', 't', 's', ' ']
        else [' ', 'd', 'o', 'e', 's', ' ', 'n', 'o', 't', ' ', 'a', 'f', 'f', 'e', 'c', 't', ' '])
    ++ chipText chip ++ [' ', 'c', 'o', 'n', 't', 'e', 'n', 't', 's'])

/-- The four report lines, one for each control line and chip, in the order the parameters give (log entry 18). -/
def reportLines (t : Config.BannerText) (mode : PerChip ModeFlags) : List (List Byte) :=
  ((([reportLine false .rom mode.rom.affectsA].insertIdx t.pos2.val (reportLine true .rom mode.rom.affectsB)).insertIdx
    t.pos3.val (reportLine false .ram mode.ram.affectsA)).insertIdx t.pos4.val (reportLine true .ram mode.ram.affectsB))

/-- The banner (R197): name and version, the two sizes, the four report lines, the menu, in this order, with the texts
the source does not give between them (log entry 18). -/
def banner (p : Config.Params) (size : PerChip Size) (mode : PerChip ModeFlags) : List Byte :=
  let t := p.banner
  t.head
    ++ sizePrefix .rom ++ sizeText p.hexUppercase size.rom ++ t.afterRom
    ++ sizePrefix .ram ++ sizeText p.hexUppercase size.ram ++ t.afterRam
    ++ (List.zipWith (· ++ ·) (reportLines t mode) [t.after1, t.after2, t.after3, t.after4]).flatten
    ++ t.menu

/-! RUN (R191). -/

/-- After bring-up: DETECT. -/
def runBroughtUp (rest : List Frame) (s : State) : State := startDetect (.runDetected :: rest) s

/-- After detection: the whole banner, then the command loop (D15). -/
def runDetected (rest : List Frame) (s : State) : State :=
  s.setStack (.emit (banner s.params s.size s.mode) :: .commandLoop :: rest)

/-- The head of the command loop with no byte at hand: RUN ends when a finite CMD_INPUT is used up, and otherwise
blocks, changing nothing. (With a byte at hand fetch takes it and exec dispatches it.) -/
def commandLoop (rest : List Frame) (s : State) : State :=
  if s.cmdInput.isEmpty && !s.cmdLive then returnTo rest none s else s

/-- RUN (R191): FORMAT becomes Binary; bring-up, detection, the banner and the command loop follow. -/
def execRun (s : State) : Result :=
  whenIdle s
    (if s.atPowerOn then .next (startBringup [.runBroughtUp] ((s.accept .run []).setFormat .binary))
     else .refused .notPowerOnState)

/-! The command bytes. -/

/-- CMD_h (R192). -/
def execCmdH (s : State) : Result := whenDispatching s (.next (s.setFormat .hex))

/-- CMD_b (R193). -/
def execCmdB (s : State) : Result := whenDispatching s (.next (s.setFormat .binary))

/-- The detection results of a chip are there to be read: reading SIZE or MODE without its validity bit is refused (R26,
R27, R232 (c)). -/
def whenDetected (s : State) (chip : Chip) (k : Result) : Result :=
  if s.sizeV.get chip && s.modeV.get chip then k else .refused .registerNotValid

/-- A dump entered by a command: inside RUN the command loop goes on after it, otherwise it is an operation of its own. -/
def enterCommandDump (op : Op) (chip : Chip) (s : State) : State :=
  if s.busy then startDump (commandDump s chip) s.stack s
  else startDump (commandDump s chip) [] (s.accept op [])

/-- `dump(chip, modeFlags, size, currentFormat)` for a command byte, under DUMP's own preconditions (R186, R194, R195;
log entry 23). -/
def dumpCommand (op : Op) (chip : Chip) (s : State) : Result :=
  whenDispatching s (whenDriven s (whenDetected s chip (whenInDomain (s.size.get chip)
    (.next (enterCommandDump op chip s)))))

/-- CMD_o (R194). -/
def execCmdO (s : State) : Result := dumpCommand .cmdO .rom s

/-- CMD_a (R195). -/
def execCmdA (s : State) : Result := dumpCommand .cmdA .ram s

/-- CMD_other (R196): no-op. -/
def execCmdOther (_opcode : Byte) (s : State) : Result := whenDispatching s (.next s)

end Sys2Proof.Machine
end

