-- ==== Sys2Proof/Machine/Sequencer.lean ====
section
/-! DEFINITION. The sequencer (10_state.md R30): what one step does to an operation in progress. A phase of a read cycle
or of bring-up runs if PH names one; otherwise the innermost control point of the pseudocode is taken, which changes no
line and takes no wait (log entry 1). -/

namespace Sys2Proof.Machine

/-- One control point of the pseudocode. -/
def frameStep (sinkReady : Bool) (f : Frame) (rest : List Frame) (s : State) : State :=
  match f with
  | .compareHead chip seen => compareHead chip seen rest s
  | .compareFirst chip seen => compareFirst chip seen rest s
  | .compareSecond chip seen => compareSecond chip seen rest s
  | .sizeLoop chip => sizeLoop chip rest s
  | .sizeTest chip => sizeTest chip rest s
  | .probeStart chip => probeStart chip rest s
  | .probeBase chip => probeBase chip rest s
  | .probeA chip => probeA chip rest s
  | .probeB _ => probeB rest s
  | .detectStart => detectStart rest s
  | .detectRomSized => detectRomSized rest s
  | .detectRamSized s0 => detectRamSized s0 rest s
  | .detectRomProbed s0 s1 => detectRomProbed s0 s1 rest s
  | .detectRamProbed s0 s1 m0 => detectRamProbed s0 s1 m0 rest s
  | .dumpBank d => dumpBank d rest s
  | .dumpAddr d => dumpAddr d rest s
  | .dumpByte d => dumpByte d rest s
  | .dumpEmitted d => dumpEmitted d rest s
  | .emit bytes => emitStep sinkReady bytes rest s
  | .runBroughtUp => runBroughtUp rest s
  | .runDetected => runDetected rest s
  | .commandLoop => commandLoop rest s

/-- The innermost control point, or the end of the operation when none is left. -/
def controlStep (sinkReady : Bool) (s : State) : State :=
  match s.stack with
  | [] => complete s
  | f :: rest => frameStep sinkReady f rest s

/-- One step of the operation in progress; an idle block stays as it is. -/
def advance (sinkReady : Bool) (s : State) : State :=
  if s.busy then
    match s.ph with
    | some p => phaseStep p s
    | none => controlStep sinkReady s
  else s

end Sys2Proof.Machine
end

