-- ==== Sys2Proof/Machine/Fetch.lean ====
section
/-! DEFINITION. Where the next instruction comes from. The block fetches none from memory (20_memory.md R75): a request
word comes from the request port (10_state.md R31), a command byte from the serial input while RUN waits for one (R191)
or from the host by itself (log entry 14), and in the power-on state an idle block starts RUN (R215, R231; log entry
13). -/

namespace Sys2Proof.Machine

/-- What a step is to do. -/
inductive Fetched where
  /-- Run an instruction at the state given. -/
  | instr (i : Instr) (s : State)
  /-- Let the operation in progress go on, the sink ready or not. -/
  | advance (sinkReady : Bool) (s : State)
  /-- External reset lands at the state given. -/
  | reset (s : State)
  /-- No step. -/
  | refused (r : Refusal)
  deriving DecidableEq, Repr

/-- An idle block in the power-on state starts RUN by itself (R215, R231). -/
def State.startsUp (s : State) : Bool := s.autoRun && !s.busy && s.atPowerOn

/-- A step in which the outside world presents no instruction. -/
def fetchOwn (sinkReady : Bool) (s : State) : Fetched :=
  if s.awaitsCommand then
    match s.cmdInput with
    | c :: cs => .instr (decodeCommand c) { s with cmdInput := cs }
    | [] => .advance sinkReady s
  else if s.startsUp then .instr .run s
  else .advance sinkReady s

/-- The input of this step, taken off `env`, and what it leads to. REQ takes the word that is presented, and keeps it until
the next one (DESIGN CHOICE, log entry 31). -/
def fetch (s : State) : Fetched :=
  match s.env with
  | [] => fetchOwn true s
  | .quiet :: es => fetchOwn true { s with env := es }
  | .stall :: es => fetchOwn false { s with env := es }
  | .serial c :: es => fetchOwn true { s with env := es, cmdInput := s.cmdInput ++ [c] }
  | .request w :: es => .instr (decodeRequest w) { s with env := es, req := w }
  | .command c :: es =>
    if s.busy then .refused .concurrentInvocation else .instr (decodeCommand c) { s with env := es }
  | .externalReset :: es => .reset { s with env := es }
  | .foreignDrive :: _ => .refused .concurrentInvocation

/-- The input that presents an instruction of the table: 8 bits are a lone command byte, anything else a request word
(bits above `nbits` zero). -/
def presentedBy (nbits w : Nat) : Input :=
  if nbits ≤ 8 then .command (BitVec.ofNat 8 (w % 2 ^ nbits)) else .request (BitVec.ofNat 32 (w % 2 ^ nbits))

end Sys2Proof.Machine
end

