-- ==== Sys2Proof/Machine/Dispatch.lean ====
section
/-! DEFINITION. One arm for each constructor of Instr. -/

namespace Sys2Proof.Machine

def exec (i : Instr) (s : State) : Host.Outcome State Fault Refusal :=
  match i with
  | .nop => Sys2Proof.Machine.execNop s
  | .bringup => Sys2Proof.Machine.execBringup s
  | .readByte chip bankA bankB address => Sys2Proof.Machine.execReadByte chip bankA bankB address s
  | .compareBlock chip blockSize => Sys2Proof.Machine.execCompareBlock chip blockSize s
  | .getSize chip => Sys2Proof.Machine.execGetSize chip s
  | .probeMode chip => Sys2Proof.Machine.execProbeMode chip s
  | .detect => Sys2Proof.Machine.execDetect s
  | .dump chip affectsA affectsB size format => Sys2Proof.Machine.execDump chip affectsA affectsB size format s
  | .run => Sys2Proof.Machine.execRun s
  | .reserved9 => Sys2Proof.Machine.execReserved9 s
  | .reservedA => Sys2Proof.Machine.execReservedA s
  | .reservedB => Sys2Proof.Machine.execReservedB s
  | .reservedC => Sys2Proof.Machine.execReservedC s
  | .reservedD => Sys2Proof.Machine.execReservedD s
  | .reservedE => Sys2Proof.Machine.execReservedE s
  | .reservedF => Sys2Proof.Machine.execReservedF s
  | .cmdH => Sys2Proof.Machine.execCmdH s
  | .cmdB => Sys2Proof.Machine.execCmdB s
  | .cmdO => Sys2Proof.Machine.execCmdO s
  | .cmdA => Sys2Proof.Machine.execCmdA s
  | .cmdOther opcode => Sys2Proof.Machine.execCmdOther opcode s

end Sys2Proof.Machine
end

