-- ==== Sys2Proof/Machine/Step.lean ====
section
/-! DEFINITION. One step of the machine. -/

namespace Sys2Proof.Machine

/-- An instruction that fetch finds is run by exec; external reset lands; otherwise the operation in progress goes on. -/
def step (s : State) : Host.Outcome State Fault Refusal :=
  match fetch s with
  | .instr i t => exec i t
  | .advance sinkReady t => .next (advance sinkReady t)
  | .reset t => .next (externalReset t)
  | .refused r => .refused r

/-- The instruction of `nbits` bits `w` stands where the next step fetches: it is the input of that step (log entry
14). -/
def State.withFetchWord (s : State) (nbits w : Nat) : State := { s with env := presentedBy nbits w :: s.env }

end Sys2Proof.Machine
end

