-- ==== Sys2Proof/Safety.lean ====
section
/-! DEFINITION. The terms in which claims about the block are made: what a run of an operation is, what it presents to
the cartridge, when it completes and when it hangs (00_scope.md R9), the operation level of R10 as functions of the
cartridge, and the invariant of the machine (40_bus_read_cycle.md R128, R129). -/

namespace Sys2Proof.Machine

/-! Runs. -/

/-- What one read cycle presents to the cartridge at its sample (20_memory.md R62). -/
structure BusRead where
  chip : Chip
  bankA : Bool
  bankB : Bool
  addr : Addr
  deriving DecidableEq, Repr

/-- The read that a step at this state performs: one if its phase is RB8, taken off the lines, and none otherwise. -/
def busReads (s : State) : List BusRead :=
  if s.ph = some .rb8 then
    match selectedChip s.lines with
    | some chip => [⟨chip, s.lines.bankA, s.lines.bankB, s.lines.addr⟩]
    | none => []
  else []

/-- `Runs s reads u`: from `s` the machine reaches `u` by steps taken while an operation is in progress, and the
cartridge sees the reads `reads` in this order (R72). -/
inductive Runs : State → List BusRead → State → Prop
  | refl (s : State) : Runs s [] s
  | step {s t u : State} {reads : List BusRead} (busy : s.busy = true) (next : Machine.step s = .next t)
      (after : Runs t reads u) : Runs s (busReads s ++ reads) u

/-- The operation in progress at `s` completes in `u` (R9): BUSY falls there for the first time. -/
def Completes (s : State) (reads : List BusRead) (u : State) : Prop := Runs s reads u ∧ u.busy = false

/-- The operation in progress at `s` never completes (R9, R216): however far it runs, BUSY stays true and the machine
steps on. -/
def NeverCompletes (s : State) : Prop :=
  ∀ reads u, Runs s reads u → u.busy = true ∧ ∃ v, Machine.step u = .next v

/-- No input of the outside world is pending. -/
def Quiet (s : State) : Prop := s.env = []

/-- No operation runs and the lines are driven and idle, with no input pending: where a request that reads the
cartridge executes (R122, R232). -/
structure Ready (s : State) : Prop where
  idle : s.busy = false
  driven : s.driven = true
  lines : s.lines.isIdle = true
  quiet : Quiet s

/-- The step is one in which the outside world sends nothing but, at most, serial bytes, a stalled sink, a request or a
command: not an external reset. -/
def NotReset (s : State) : Prop := ∀ es, s.env ≠ .externalReset :: es

/-- The states after the next `n` steps, fewer if a step has no next state. -/
def trail : Nat → State → List State
  | 0, _ => []
  | n + 1, s =>
    match Machine.step s with
    | .next t => t :: trail n t
    | .fault _ => []
    | .refused _ => []

/-- What a sequence of read cycles leaves behind, besides the results of the operation that made them: the lines idle at
the last address (R127, R129), the hold elapsed, the last byte in BYTE (R25), the last operands in their latches (R29). -/
def State.afterReads (s : State) (reads : List BusRead) : State :=
  match reads.getLast? with
  | none => s
  | some r =>
    { s with
      lines := Lines.idleAt r.addr
      tmr := .elapsed
      byte := dev s.cart r.chip r.bankA r.bankB r.addr
      byteV := true
      work := { s.work with rChip := r.chip, rBankA := r.bankA, rBankB := r.bankB, rAddr := r.addr } }

/-- An operation has completed and returned `r` (R31, R93). -/
def State.returned (s : State) (r : Size) : State :=
  { s with op := .idle, ph := none, stack := [], ret := none, busy := false, result := r, resultV := true }

/-- An operation has completed and returned nothing: RESULT is a free value (R93; log entry 7). -/
def State.returnedNothing (s : State) : State :=
  { s with
    op := .idle
    ph := none
    stack := []
    ret := none
    busy := false
    result := Config.freeResult s.freeN
    resultV := false
    freeN := s.freeN + 1 }

/-- The line levels after each phase RB1 to RB13 (the table of R128). -/
def readCycleLines (chip : Chip) (bankA bankB : Bool) (address : Addr) : List Lines :=
  let idle := Lines.idleAt address
  let selected := { idle with bankA := bankA, bankB := bankB, ceN := ⟨chip != .rom, chip != .ram⟩ }
  let sampled := { selected with oeN := false, latchN := false, clk := true }
  [idle,
   { idle with bankA := bankA, bankB := bankB },
   selected,
   { selected with oeN := false },
   { selected with oeN := false, latchN := false },
   sampled, sampled, sampled,
   { sampled with bankA := false, bankB := false },
   { idle with oeN := false, latchN := false, clk := true },
   { idle with latchN := false, clk := true },
   { idle with clk := true },
   idle]

/-! The operation level (R10): results as functions of the cartridge. -/

/-- The byte a size or a comparison sees at address `a mod 65536`: bank lines false (R150, R69). -/
def plainByte (cart : List Host.Cell) (chip : Chip) (a : Nat) : Byte := dev cart chip false false (BitVec.ofNat 16 a)

/-- The bytes `[0, n)` equal the bytes `[n, 2n)` under address wraparound (R150). -/
def BlocksEqual (cart : List Host.Cell) (chip : Chip) (n : Nat) : Prop :=
  ∀ i, i < n → plainByte cart chip i = plainByte cart chip (i + n)

/-- `k` is the first pair that differs. -/
def FirstUnequal (cart : List Host.Cell) (chip : Chip) (n k : Nat) : Prop :=
  k < n ∧ plainByte cart chip k ≠ plainByte cart chip (k + n)
    ∧ ∀ i, i < k → plainByte cart chip i = plainByte cart chip (i + n)

/-- The reads of the first `k` pairs of a comparison, lower address first (R151). -/
def pairReads (chip : Chip) (n k : Nat) : List BusRead :=
  (List.range k).flatMap (fun i =>
    [⟨chip, false, false, BitVec.ofNat 16 i⟩, ⟨chip, false, false, BitVec.ofNat 16 (i + n)⟩])

/-- How many pairs a comparison of `n` pairs reads (R151): all of them if it succeeds or does not stop early, and
otherwise those up to the first unequal one. -/
def IsPairCount (early : Bool) (cart : List Host.Cell) (chip : Chip) (n k : Nat) : Prop :=
  (BlocksEqual cart chip n ∧ k = n)
    ∨ (early = false ∧ k = n)
    ∨ (early = true ∧ ∃ f, FirstUnequal cart chip n f ∧ k = f + 1)

/-- The probe sequence (R154). -/
def probes : List Nat := [32768, 16384, 8192, 4096, 2048, 1024, 512, 256, 128, 64, 32, 16, 8, 4, 2, 1]

/-- The comparison holds at every probe of the sequence that is at least `p` (R156). -/
def HoldsFrom (cart : List Host.Cell) (chip : Chip) (p : Nat) : Prop :=
  ∀ q, q ∈ probes → p ≤ q → BlocksEqual cart chip q

/-- The value GET_SIZE returns (R156): 65536 if the first comparison fails, otherwise the smallest probe of the unbroken
run of successes that starts at 32768. -/
def IsDetectedSize (cart : List Host.Cell) (chip : Chip) (p : Nat) : Prop :=
  (¬ BlocksEqual cart chip 32768 ∧ p = 65536)
    ∨ (BlocksEqual cart chip 32768 ∧ p ∈ probes ∧ HoldsFrom cart chip p
        ∧ ∀ q, q ∈ probes → HoldsFrom cart chip q → p ≤ q)

/-- The reads of GET_SIZE when it returns `p` (R154, R158): whole comparisons at the probes from 32768 down to `p`, then
the first `k` pairs at the probe `p / 2`, which fails. -/
def sizeSweep (chip : Chip) (p k : Nat) : List BusRead :=
  (probes.filter (fun q => p ≤ q)).flatMap (fun q => pairReads chip q q) ++ pairReads chip (p / 2) k

/-- The chip reads the same byte at every address with the bank lines false (R155). -/
def Uniform (cart : List Host.Cell) (chip : Chip) : Prop :=
  ∀ a : Addr, dev cart chip false false a = dev cart chip false false 0

/-- The chip ignores address bits beyond its capacity `n` (R63). -/
def Mirrors (cart : List Host.Cell) (chip : Chip) (n : Nat) : Prop :=
  ∀ (bankA bankB : Bool) (a : Addr),
    dev cart chip bankA bankB a = dev cart chip bankA bankB (BitVec.ofNat 16 (a.toNat % n))

/-- ModeFlags of a chip (R170): two independent comparisons against the baseline at address 0. -/
def modeOf (cart : List Host.Cell) (chip : Chip) : ModeFlags where
  affectsA := dev cart chip true false 0 != dev cart chip false false 0
  affectsB := dev cart chip false true 0 != dev cart chip false false 0

/-- The three reads of PROBE_MODE (R171). -/
def probeReads (chip : Chip) : List BusRead :=
  [⟨chip, false, false, 0⟩, ⟨chip, true, false, 0⟩, ⟨chip, false, true, 0⟩]

/-- The table of R185. -/
def bankSet : Bool → Bool → List Nat
  | false, false => [0]
  | true, false => [0, 1]
  | false, true => [0, 2]
  | true, true => [0, 1, 2, 3]

/-- The reads of a dump: bank-major, then address-ascending (R189). -/
def dumpReads (d : DumpArgs) : List BusRead :=
  (bankSet d.affectsA d.affectsB).flatMap (fun b =>
    (List.range d.size.toNat).map (fun a => ⟨d.chip, b.testBit 0, b.testBit 1, BitVec.ofNat 16 a⟩))

/-- The bytes a dump emits (R186): the rendering of what each of its reads returns. -/
def dumpText (p : Config.Params) (cart : List Host.Cell) (d : DumpArgs) : List Byte :=
  (dumpReads d).flatMap (fun r => render p d.format (dev cart r.chip r.bankA r.bankB r.addr))

/-- The format after a sequence of command bytes (R192, R193, R196). -/
def formatAfter : Format → List Byte → Format
  | f, [] => f
  | f, c :: cs => formatAfter (if c = 0x68#8 then .hex else if c = 0x62#8 then .binary else f) cs

/-- The dump that the current format and the detection results make of a chip (R194, R195). -/
def chipDump (size : PerChip Size) (mode : PerChip ModeFlags) (f : Format) (chip : Chip) : DumpArgs where
  chip := chip
  affectsA := (mode.get chip).affectsA
  affectsB := (mode.get chip).affectsB
  size := size.get chip
  format := f

/-- What the command loop emits for a sequence of command bytes (R191 to R196). -/
def sessionText (p : Config.Params) (cart : List Host.Cell) (size : PerChip Size) (mode : PerChip ModeFlags) :
    Format → List Byte → List Byte
  | _, [] => []
  | f, c :: cs =>
    (if c = 0x6F#8 then dumpText p cart (chipDump size mode f .rom)
     else if c = 0x61#8 then dumpText p cart (chipDump size mode f .ram)
     else [])
    ++ sessionText p cart size mode (formatAfter f [c]) cs

/-- What the command loop reads for a sequence of command bytes: the reads of each dump, whatever the format (R191, R194,
R195). -/
def sessionReads (size : PerChip Size) (mode : PerChip ModeFlags) (cs : List Byte) : List BusRead :=
  cs.flatMap (fun c =>
    if c = 0x6F#8 then dumpReads (chipDump size mode .binary .rom)
    else if c = 0x61#8 then dumpReads (chipDump size mode .binary .ram)
    else [])

/-- What a sequence of command bytes leaves in `b` and `actr`: the end values of its last dump (R186). -/
def sessionCounters (size : PerChip Size) : BitVec 3 × Size → List Byte → BitVec 3 × Size
  | k, [] => k
  | k, c :: cs =>
    sessionCounters size (if c = 0x6F#8 then (4#3, size.rom) else if c = 0x61#8 then (4#3, size.ram) else k) cs

/-! The texts of the banner (R197). -/

/-- The codes of a text (93_implementation_defined.md G1). -/
def codes (text : String) : List Nat := text.toList.map Char.toNat

/-- The report line of a control line (A is P25.2 and B is P25.3, 92_eei_decisions.md D17) and a chip, for a value of the
corresponding flag. -/
def reportText : (lineB : Bool) → Chip → (affects : Bool) → String
  | false, .rom, true => "P25.2 affects ROM contents"
  | false, .rom, false => "P25.2 does not affect ROM contents"
  | true, .rom, true => "P25.3 affects ROM contents"
  | true, .rom, false => "P25.3 does not affect ROM contents"
  | false, .ram, true => "P25.2 affects RAM contents"
  | false, .ram, false => "P25.2 does not affect RAM contents"
  | true, .ram, true => "P25.3 affects RAM contents"
  | true, .ram, false => "P25.3 does not affect RAM contents"

/-- The flag of MODE[chip] that belongs to a control line (R27). -/
def flagOf (mode : PerChip ModeFlags) (lineB : Bool) (chip : Chip) : Bool :=
  if lineB then (mode.get chip).affectsB else (mode.get chip).affectsA

/-! The state as the host sees it. -/

/-- The power-on state as far as the spec gives it (the second column of R36, R230): a register without a value is one
whose read is refused. -/
structure IsPowerOn (s : State) : Prop where
  driven : s.driven = false
  lines : s.lineLevels = none ∧ s.rstLevel = none
  byte : readByteReg s = .error .registerNotValid
  result : readResult s = .error .registerNotValid
  detection : ∀ chip, s.sizeV.get chip = false ∧ s.modeV.get chip = false
    ∧ readSize s chip = .error .registerNotValid ∧ readMode s chip = .error .registerNotValid
  format : s.format = .binary
  control : s.op = .idle ∧ s.ph = none ∧ s.busy = false
  out : s.out = []

/-- The bits of a request word that an operation's fields occupy (R91, R92): the others are ignored. -/
def usedBits : Instr → ReqWord
  | .readByte _ _ _ _ => 0xF803FFFF#32
  | .compareBlock _ _ => 0xF801FFFF#32
  | .getSize _ => 0xF8000000#32
  | .probeMode _ => 0xF8000000#32
  | .dump _ _ _ _ _ => 0xFC07FFFF#32
  | _ => 0xF0000000#32

/-! The invariant. -/

/-- The line levels at the start of each phase while the lines are driven (the table of R128, and R121 for bring-up):
`addr` is ADDR when no read cycle has set it yet. -/
def linesAt (w : Work) (addr : Addr) : Option Phase → Lines
  | none => Lines.idleAt addr
  | some .bu1 => Lines.idleAt addr
  | some .bu2 => Lines.idleAt addr
  | some .bu3 => { Lines.idleAt 0 with rst := true }
  | some .bu4 => { Lines.idleAt 0 with rst := true }
  | some .rb1 => Lines.idleAt addr
  | some .rb2 => Lines.idleAt w.rAddr
  | some .rb3 => { Lines.idleAt w.rAddr with bankA := w.rBankA, bankB := w.rBankB }
  | some .rb4 =>
    { Lines.idleAt w.rAddr with bankA := w.rBankA, bankB := w.rBankB, ceN := PerChip.set ⟨true, true⟩ w.rChip false }
  | some .rb5 =>
    { Lines.idleAt w.rAddr with
      bankA := w.rBankA, bankB := w.rBankB, ceN := PerChip.set ⟨true, true⟩ w.rChip false, oeN := false }
  | some .rb6 =>
    { Lines.idleAt w.rAddr with
      bankA := w.rBankA, bankB := w.rBankB, ceN := PerChip.set ⟨true, true⟩ w.rChip false, oeN := false,
      latchN := false }
  | some .rb7 | some .rb8 | some .rb9 =>
    { Lines.idleAt w.rAddr with
      bankA := w.rBankA, bankB := w.rBankB, ceN := PerChip.set ⟨true, true⟩ w.rChip false, oeN := false,
      latchN := false, clk := true }
  | some .rb10 =>
    { Lines.idleAt w.rAddr with
      ceN := PerChip.set ⟨true, true⟩ w.rChip false, oeN := false, latchN := false, clk := true }
  | some .rb11 => { Lines.idleAt w.rAddr with oeN := false, latchN := false, clk := true }
  | some .rb12 => { Lines.idleAt w.rAddr with latchN := false, clk := true }
  | some .rb13 => { Lines.idleAt w.rAddr with clk := true }

/-- The phases before the lines are driven (R121, R23). -/
def beforeDriven (p : Option Phase) : Bool := p == some .bu1 || p == some .bu2

/-- A power of two in the range of a size register (R26). -/
def powerOfTwoSize (n : Size) : Bool := (n.toNat == 65536) || probes.contains n.toNat

/-- The control points of detection, and the one before it in RUN: while one is on the stack nothing is detected. -/
def Frame.beforeDetected : Frame → Bool
  | .detectStart | .detectRomSized | .detectRamSized _ | .detectRomProbed _ _ | .detectRamProbed _ _ _
  | .runBroughtUp => true
  | _ => false

/-- The control points of RUN after detection. -/
def Frame.afterDetected : Frame → Bool
  | .runDetected | .commandLoop => true
  | _ => false

/-- Which control points may be suspended right below a control point: the call structure of the pseudocode (R150,
R153, R170, R174, R186, R191). -/
def Frame.mayStandOn : Frame → List Frame → Bool
  | _, [] => true
  | .compareHead chip _, f :: _ | .compareFirst chip _, f :: _ | .compareSecond chip _, f :: _ => f == .sizeTest chip
  | .sizeLoop chip, f :: _ | .sizeTest chip, f :: _ =>
    match chip, f with
    | .rom, .detectRomSized => true
    | .ram, .detectRamSized _ => true
    | _, _ => false
  | .probeStart chip, f :: _ | .probeBase chip, f :: _ | .probeA chip, f :: _ | .probeB chip, f :: _ =>
    match chip, f with
    | .rom, .detectRomProbed _ _ => true
    | .ram, .detectRamProbed _ _ _ => true
    | _, _ => false
  | .detectStart, f :: _ | .detectRomSized, f :: _ | .detectRamSized _, f :: _ | .detectRomProbed _ _, f :: _
  | .detectRamProbed _ _ _, f :: _ => f == .runDetected
  | .dumpBank _, f :: _ | .dumpAddr _, f :: _ | .dumpByte _, f :: _ | .dumpEmitted _, f :: _ => f == .commandLoop
  | .emit _, f :: _ =>
    match f with
    | .dumpEmitted _ => true
    | .commandLoop => true
    | _ => false
  | .runBroughtUp, _ :: _ | .runDetected, _ :: _ | .commandLoop, _ :: _ => false

/-- Every control point stands on one that its pseudocode calls it from. -/
def stackOk : List Frame → Bool
  | [] => true
  | f :: rest => f.mayStandOn rest && stackOk rest

/-- The working registers and the operands are in the ranges that R15, R29 and R154 state, while the control point
needs them. -/
def Frame.rangesOk (w : Work) : Frame → Bool
  | .compareHead _ _ => decide (w.idx ≤ w.bs) && sizeInDomain w.bs
  | .compareFirst _ _ | .compareSecond _ _ => decide (w.idx < w.bs) && sizeInDomain w.bs
  | .sizeLoop _ | .sizeTest _ => probes.contains w.probe.toNat && powerOfTwoSize w.sizeW
  | .detectRomSized => powerOfTwoSize w.sizeW
  | .detectRamSized s0 => powerOfTwoSize s0 && powerOfTwoSize w.sizeW
  | .detectRomProbed s0 s1 | .detectRamProbed s0 s1 _ => powerOfTwoSize s0 && powerOfTwoSize s1
  | .dumpBank d => decide (w.b ≤ 4#3) && sizeInDomain d.size
  | .dumpAddr d => decide (w.b < 4#3) && decide (w.actr ≤ d.size) && sizeInDomain d.size
  | .dumpByte d | .dumpEmitted d => decide (w.b < 4#3) && decide (w.actr < d.size) && sizeInDomain d.size
  | _ => true

/-- All four validity bits are true. -/
def State.allDetected (s : State) : Bool := s.sizeV.rom && s.sizeV.ram && s.modeV.rom && s.modeV.ram

/-- The invariant of the machine: it holds at reset and every step keeps it. -/
structure Inv (s : State) : Prop where
  /-- The cartridge's content is in canonical form. -/
  cartridge : Memory.wf s.cart = true
  /-- BUSY says whether OP names an operation (R31). -/
  op : s.busy = false ↔ s.op = .idle
  /-- An idle block is in no phase and at no control point (R36). -/
  idle : s.busy = false → s.ph = none ∧ s.stack = []
  /-- The driven lines are those of the phase (R128, R129). -/
  driven : s.driven = true → s.lines = linesAt s.work s.lines.addr s.ph ∧ beforeDriven s.ph = false
  /-- Before bring-up nothing is detected, and the only operation is bring-up (R232), which has asserted RST in BU1
  (R121). -/
  notDriven : s.driven = false → s.nothingDetected = true
    ∧ (s.busy = true → beforeDriven s.ph = true ∧ (s.stack = [] ∨ s.stack = [.runBroughtUp]))
    ∧ (s.ph = some .bu2 → s.lines.rst = true)
  /-- The hold is being measured in RB7 and has elapsed in RB8 (R124, R234). -/
  timer : (s.ph = some .rb7 → s.tmr = .running) ∧ (s.ph = some .rb8 → s.tmr = .elapsed)
  /-- The control points are nested as the pseudocode calls them. -/
  stack : stackOk s.stack = true
  /-- The working registers are in range for every control point. -/
  ranges : s.stack.all (Frame.rangesOk s.work) = true
  /-- The four validity bits are set together, after detection (R174). -/
  together : s.nothingDetected = true ∨ s.allDetected = true
  /-- Nothing is detected while detection runs, and all is when RUN is past it (R191). -/
  detection : if s.stack.any Frame.beforeDetected then s.nothingDetected = true
    else s.stack.any Frame.afterDetected = true → s.allDetected = true
  /-- The detected sizes are powers of two (R26). -/
  sizes : s.allDetected = true → powerOfTwoSize s.size.rom = true ∧ powerOfTwoSize s.size.ram = true

end Sys2Proof.Machine
end

