-- ==== Sys2Proof/Certificates/Slice0/Obligations.lean ====
section
/-! DEFINITION. The statements for the provers: what the numbered rules of spec/ say an operation or the machine does.
`Ready s` is the state in which a request that reads the cartridge executes normally (R122, R232); `Completes t reads u`
says that the operation accepted at `t` ends at `u`, the cartridge having seen the reads `reads` in this order; a next
state written `{ s with … }` says what changes and that nothing else does. -/

section

open Sys2Proof Sys2Proof.Machine

/-! Encoding (30_encoding.md). -/

/-- Decoding the encoding of a well-formed instruction gives it back, every operand at every value (R91, R92, R96). -/
def Obligations.DecodeOfEncodeIsIdentity : Prop :=
  ∀ i : Instr, i.wellFormed = true → decode (encode i) = .ok i

/-- Encoding what was decoded gives the word back with its ignored bits zero, and the byte back; so no two words that
differ in a bit the operation uses decode to one instruction (R91, R92, R96). -/
def Obligations.EncodeOfDecodeKeepsUsedBits : Prop :=
  (∀ w : ReqWord, encodeWire (decodeRequest w) = .request (w &&& usedBits (decodeRequest w)))
    ∧ ∀ c : Byte, encodeWire (decodeCommand c) = .command c ∧ (decodeCommand c).wellFormed = true

/-- The operation code and the operand fields are read from the bits R91 and R92 give them, whatever the ignored bits
are. -/
def Obligations.RequestFieldsAreReadWhereTheyStand : Prop :=
  (∀ (chip : Chip) (u : BitVec 9) (bankB bankA : Bool) (address : Addr),
      decodeRequest (0x2#4 ++ bitOf chip.bit ++ u ++ bitOf bankB ++ bitOf bankA ++ address)
        = .readByte chip bankA bankB address)
    ∧ (∀ (chip : Chip) (u : BitVec 10) (blockSize : Size),
      decodeRequest (0x3#4 ++ bitOf chip.bit ++ u ++ blockSize) = .compareBlock chip blockSize)
    ∧ (∀ (chip : Chip) (u : BitVec 27),
      decodeRequest (0x4#4 ++ bitOf chip.bit ++ u) = .getSize chip
        ∧ decodeRequest (0x5#4 ++ bitOf chip.bit ++ u) = .probeMode chip)
    ∧ (∀ (chip : Chip) (format : Format) (u : BitVec 7) (affectsB affectsA : Bool) (size : Size),
      decodeRequest (0x7#4 ++ bitOf chip.bit ++ bitOf format.bit ++ u ++ bitOf affectsB ++ bitOf affectsA ++ size)
        = .dump chip affectsA affectsB size format)
    ∧ ∀ u : BitVec 28,
      decodeRequest (0x0#4 ++ u) = .nop ∧ decodeRequest (0x1#4 ++ u) = .bringup
        ∧ decodeRequest (0x6#4 ++ u) = .detect ∧ decodeRequest (0x8#4 ++ u) = .run
        ∧ decodeRequest (0x9#4 ++ u) = .reserved9 ∧ decodeRequest (0xA#4 ++ u) = .reservedA
        ∧ decodeRequest (0xB#4 ++ u) = .reservedB ∧ decodeRequest (0xC#4 ++ u) = .reservedC
        ∧ decodeRequest (0xD#4 ++ u) = .reservedD ∧ decodeRequest (0xE#4 ++ u) = .reservedE
        ∧ decodeRequest (0xF#4 ++ u) = .reservedF

/-- The worked encodings of R103, in both directions. -/
def Obligations.WorkedEncodings : Prop :=
  ∀ p ∈ ([(0x20000002#32, .readByte .rom false false 0x0002#16), (0x28011234#32, .readByte .ram true false 0x1234#16),
      (0x20020000#32, .readByte .rom false true 0#16), (0x30008000#32, .compareBlock .rom 32768#17),
      (0x38010000#32, .compareBlock .ram 65536#17), (0x40000000#32, .getSize .rom), (0x48000000#32, .getSize .ram),
      (0x50000000#32, .probeMode .rom), (0x58000000#32, .probeMode .ram), (0x60000000#32, .detect)]
    ++ [(0x74000004#32, .dump .rom false false 4#17 .hex), (0x70000004#32, .dump .rom false false 4#17 .binary),
      (0x78070000#32, .dump .ram true true 65536#17 .binary), (0x80000000#32, .run), (0x10000000#32, .bringup),
      (0x00000000#32, .nop)] : List (ReqWord × Instr)),
    decodeRequest p.1 = p.2 ∧ encodeWire p.2 = .request p.1

/-- A command is matched by its exact value, case-sensitively (R96). -/
def Obligations.CommandBytesAreMatchedExactly : Prop :=
  ∀ c : Byte,
    (decodeCommand c = .cmdH ↔ c = 0x68#8) ∧ (decodeCommand c = .cmdB ↔ c = 0x62#8)
      ∧ (decodeCommand c = .cmdO ↔ c = 0x6F#8) ∧ (decodeCommand c = .cmdA ↔ c = 0x61#8)
      ∧ (decodeCommand c = .cmdOther c ↔ c ≠ 0x68#8 ∧ c ≠ 0x62#8 ∧ c ≠ 0x6F#8 ∧ c ≠ 0x61#8)

/-! Reset, the step, and what is refused. -/

/-- The machine right after reset is in the power-on state (R36, R230). -/
def Obligations.ResetIsThePowerOnState : Prop := IsPowerOn State.reset

/-- External reset, in any state whatever, is a step to the power-on state; the cartridge, the parameters and the inputs
to come are not the block's and stay (R212, R230; what stays is the model's choice, log entry 11). -/
def Obligations.ExternalResetGivesThePowerOnState : Prop :=
  ∀ (s : State) (es : List Input), s.env = .externalReset :: es →
    ∃ t, step s = .next t ∧ IsPowerOn t ∧ t.cart = s.cart ∧ t.params = s.params ∧ t.env = es

/-- In the power-on state with nothing presented the machine starts RUN; so it does after an external reset (R215, R231;
that this happens by itself is the model's `autoRun`, log entry 13). -/
def Obligations.PowerOnStartsRun : Prop :=
  (∀ s : State, Quiet s → s.busy = false → s.atPowerOn = true → s.autoRun = true → step s = exec .run s)
    ∧ ∀ s t : State, s.env = [.externalReset] → s.autoRun = true → step s = .next t → step t = exec .run t

/-- The step runs the decoded instruction, for every word and every byte, sizes outside the domain (R95) and ignored bits
included: a request word at the request port; a command byte handed over while no operation runs; the next byte of the
serial input where RUN awaits one; and what `withFetchWord` places (R31, R191; log entries 3 and 14). That REQ takes the
word in this very step, and stays as it was when a command byte comes, is the model's choice (log entry 31). -/
def Obligations.StepRunsTheDecodedInstruction : Prop :=
  ∀ (s : State) (es : List Input),
    (∀ w : ReqWord,
      step { s with env := .request w :: es } = exec (decodeRequest w) { s with env := es, req := w }
        ∧ step (s.withFetchWord 32 w.toNat) = exec (decodeRequest w) { s with req := w })
    ∧ ∀ c : Byte,
      (s.busy = false →
        step { s with env := .command c :: es } = exec (decodeCommand c) { s with env := es }
          ∧ step (s.withFetchWord 8 c.toNat) = exec (decodeCommand c) s)
      ∧ (s.awaitsCommand = true → Quiet s → ∀ cs, s.cmdInput = c :: cs →
        step s = exec (decodeCommand c) { s with cmdInput := cs })

/-- No request and no lone command is accepted while an operation runs, and another agent's drive of the lines never is
(R31, R130; log entries 14 and 25). -/
def Obligations.ConcurrentInvocationIsRefused : Prop :=
  ∀ (s : State) (es : List Input),
    (s.busy = true → (∀ w, step { s with env := .request w :: es } = .refused .concurrentInvocation)
      ∧ ∀ c, step { s with env := .command c :: es } = .refused .concurrentInvocation)
    ∧ step { s with env := .foreignDrive :: es } = .refused .concurrentInvocation

/-- Before bring-up every operation that reads the cartridge is refused (R232 (a)). -/
def Obligations.ReadingOperationsNeedBringup : Prop :=
  ∀ (s : State) (chip : Chip) (bankA bankB : Bool) (address : Addr) (n : Size) (format : Format),
    s.busy = false → s.driven = false →
      exec (.readByte chip bankA bankB address) s = .refused .notBroughtUp
        ∧ exec (.compareBlock chip n) s = .refused .notBroughtUp
        ∧ exec (.getSize chip) s = .refused .notBroughtUp
        ∧ exec (.probeMode chip) s = .refused .notBroughtUp
        ∧ exec .detect s = .refused .notBroughtUp
        ∧ exec (.dump chip bankA bankB n format) s = .refused .notBroughtUp

/-- A register that holds no value is not read, and one that does reads as it stands (R25, R26, R27, R36, D18). -/
def Obligations.HostReadsNeedAValue : Prop :=
  ∀ (s : State) (chip : Chip),
    (readByteReg s = if s.byteV then .ok s.byte else .error .registerNotValid)
      ∧ (readResult s = if s.resultV then .ok s.result else .error .registerNotValid)
      ∧ (readSize s chip = if s.sizeV.get chip then .ok (s.size.get chip) else .error .registerNotValid)
      ∧ (readMode s chip = if s.modeV.get chip then .ok (s.mode.get chip) else .error .registerNotValid)

/-! The bus controller (40_bus_read_cycle.md). -/

/-- NOP and the seven reserved codes complete in one step and change nothing (R95, R120; that RESULT stays as well is
the model's choice, log entry 8). -/
def Obligations.NopAndReservedCodesChangeNothing : Prop :=
  ∀ s : State, s.busy = false →
    ∀ i ∈ ([.nop, .reserved9, .reservedA, .reservedB, .reservedC, .reservedD, .reservedE, .reservedF] : List Instr),
      exec i s = .next s

/-- BRINGUP (R121): refused when the lines are driven already; otherwise four phases, with the levels R121 gives after
each (only RST has a level after BU1), after which the lines are idle at address 0 and nothing else has changed. -/
def Obligations.BringupDrivesTheLinesIdle : Prop :=
  ∀ s : State, s.busy = false → Quiet s →
    (s.driven = true → exec .bringup s = .refused .alreadyBroughtUp)
      ∧ (s.driven = false →
        ∃ t u, exec .bringup s = .next t ∧ Completes t [] u
          ∧ u = { s with lines := Lines.idleAt 0, driven := true, tmr := .elapsed }.returnedNothing
          ∧ u.lines.pack = 0x07C0000#25
          ∧ (trail 4 t).map State.lineLevels = [none, some { Lines.idleAt 0 with rst := true },
            some { Lines.idleAt 0 with rst := true }, some (Lines.idleAt 0)]
          ∧ (trail 4 t).map State.rstLevel = [some true, some true, some true, some false])

/-- The line trace of every read cycle, whichever operation makes it (R128). -/
def Obligations.ReadCycleLineTrace : Prop :=
  ∀ s : State, s.busy = true → Quiet s → s.driven = true → s.lines = Lines.idleAt s.lines.addr → s.ph = some .rb1 →
    (trail 13 s).map State.lineLevels
      = (readCycleLines s.work.rChip s.work.rBankA s.work.rBankB s.work.rAddr).map some

/-- READ_BYTE (R122): refused before bring-up and when the lines are not idle; otherwise it completes, makes one read
cycle, and returns the cartridge's byte in BYTE and RESULT; the lines are idle at the address read, the operands are in
their latches, and nothing else has changed. -/
def Obligations.ReadByteReturnsTheDeviceByte : Prop :=
  ∀ (s : State) (chip : Chip) (bankA bankB : Bool) (address : Addr), s.busy = false → Quiet s →
    (s.driven = false → exec (.readByte chip bankA bankB address) s = .refused .notBroughtUp)
      ∧ (s.driven = true → s.lines.isIdle = false →
        exec (.readByte chip bankA bankB address) s = .refused .linesNotIdle)
      ∧ (s.driven = true → s.lines.isIdle = true →
        ∃ t u, exec (.readByte chip bankA bankB address) s = .next t
          ∧ t.ph = some .rb1 ∧ t.lines = s.lines ∧ t.work.rChip = chip ∧ t.work.rAddr = address
          ∧ Completes t [⟨chip, bankA, bankB, address⟩] u
          ∧ u = (s.afterReads [⟨chip, bankA, bankB, address⟩]).returned
              ((dev s.cart chip bankA bankB address).setWidth 17)
          ∧ u.byte = dev s.cart chip bankA bankB address ∧ u.lines = Lines.idleAt address)

/-- The device contract (R62): a sample of the line state R62 names, the hold elapsed, puts the cartridge's byte into
BYTE, and changes nothing else but the phase. -/
def Obligations.SampleUnderTheDeviceContract : Prop :=
  ∀ (s : State) (chip : Chip) (bankA bankB : Bool) (a : Addr),
    s.busy = true → Quiet s → s.ph = some .rb8 → s.driven = true → s.tmr = .elapsed →
    s.lines = { Lines.idleAt a with
      bankA := bankA, bankB := bankB, ceN := ⟨chip != .rom, chip != .ram⟩, oeN := false, latchN := false, clk := true } →
    step s = .next { s with byte := dev s.cart chip bankA bankB a, byteV := true, ph := some .rb9 }

/-- In every state of the invariant a sample is taken under the device contract, at the operands latched (R125, R126). -/
def Obligations.EverySampleIsUnderTheContract : Prop :=
  ∀ s : State, Inv s → s.busy = true → s.ph = some .rb8 →
    busData s = some (dev s.cart s.work.rChip s.work.rBankA s.work.rBankB s.work.rAddr)
      ∧ busReads s = [⟨s.work.rChip, s.work.rBankA, s.work.rBankB, s.work.rAddr⟩]

/-- The vector LINES (R24): which bit is which line, its idle value, and the two sample values. -/
def Obligations.LinesVectorLayout : Prop :=
  (∀ l : Lines,
    l.pack.extractLsb' 0 16 = l.addr ∧ l.pack.getLsbD 16 = l.bankA ∧ l.pack.getLsbD 17 = l.bankB
      ∧ l.pack.getLsbD 18 = l.ceN.rom ∧ l.pack.getLsbD 19 = l.ceN.ram ∧ l.pack.getLsbD 20 = l.oeN
      ∧ l.pack.getLsbD 21 = l.weN ∧ l.pack.getLsbD 22 = l.latchN ∧ l.pack.getLsbD 23 = l.clk
      ∧ l.pack.getLsbD 24 = l.rst)
    ∧ (∀ a : Addr, (Lines.idleAt a).pack.extractLsb' 16 9 = 0x07C#9)
    ∧ (Lines.idleAt 0).pack = 0x07C0000#25
    ∧ ∀ a : Addr,
      ((readCycleLines .rom false false a)[7]?).map (fun l => l.pack.extractLsb' 16 9) = some 0x0A8#9
        ∧ ((readCycleLines .ram false false a)[7]?).map (fun l => l.pack.extractLsb' 16 9) = some 0x0A4#9

/-- The two waits last at least 6 and at least 100 microseconds, no other phase waits, and the cycle counts are the
ceilings R236 gives (R218, R234, R236). -/
def Obligations.WaitsAreNotShorterThanTheirBounds : Prop :=
  ∀ p : Config.Params,
    6 ≤ phaseWaitUs p .rb7 ∧ 100 ≤ phaseWaitUs p .bu3
      ∧ (∀ ph : Phase, ph ≠ .rb7 → ph ≠ .bu3 → phaseWaitUs p ph = 0)
      ∧ p.tHoldUs * p.fClkHz ≤ holdCycles p * 1000000 ∧ holdCycles p * 1000000 < p.tHoldUs * p.fClkHz + 1000000
      ∧ p.tResetUs * p.fClkHz ≤ resetCycles p * 1000000 ∧ resetCycles p * 1000000 < p.tResetUs * p.fClkHz + 1000000

/-! The capacity detector (41_size_detector.md). -/

/-- COMPARE_BLOCK (R150, R151): a block size above 65536 is refused; otherwise it completes with 1 exactly when the two
blocks are equal and with 0 exactly when they are not, whether or not it stops early; it reads the pairs in ascending
order, the lower address first, bank lines false, as many as R151 says; and of the state only what its reads leave, its
working registers and RESULT change. -/
def Obligations.CompareBlockComparesTheBlocks : Prop :=
  ∀ (s : State) (chip : Chip) (blockSize : Size), Ready s →
    (65536 < blockSize.toNat → exec (.compareBlock chip blockSize) s = .refused .operandOutOfDomain)
      ∧ (blockSize.toNat ≤ 65536 →
        ∃ t u k idx first r, exec (.compareBlock chip blockSize) s = .next t
          ∧ IsPairCount s.params.compareEarlyExit s.cart chip blockSize.toNat k
          ∧ Completes t (pairReads chip blockSize.toNat k) u
          ∧ u = ({ s.afterReads (pairReads chip blockSize.toNat k) with
              work := { (s.afterReads (pairReads chip blockSize.toNat k)).work with
                bs := blockSize, idx := idx, first := first } }).returned r
          ∧ ((BlocksEqual s.cart chip blockSize.toNat ∧ r = 1#17)
            ∨ (¬ BlocksEqual s.cart chip blockSize.toNat ∧ r = 0#17)))

/-- COMPARE_BLOCK succeeds at every multiple of a chip's capacity (R152). R152 does not say so, but where the second
block wraps around the address space this needs a capacity that divides 65536. -/
def Obligations.CompareSucceedsAtMultiplesOfTheCapacity : Prop :=
  ∀ (s : State) (chip : Chip) (n : Nat) (blockSize : Size), Ready s → 0 < n → n ∣ blockSize.toNat →
    blockSize.toNat ≤ 65536 → (n ∣ 65536 ∨ blockSize.toNat ≤ 32768) →
    (∀ a : Addr, dev s.cart chip false false a = dev s.cart chip false false (BitVec.ofNat 16 (a.toNat % n))) →
    ∃ t u, exec (.compareBlock chip blockSize) s = .next t
      ∧ Completes t (pairReads chip blockSize.toNat blockSize.toNat) u ∧ u.result = 1#17 ∧ u.resultV = true

/-- GET_SIZE on a chip that is not uniform completes and returns the value R156 gives, a power of two from 2 to 65536;
it reads what the comparisons at the probes from 32768 down to the first failing one read (R154); SIZE is not written. -/
def Obligations.GetSizeReturnsTheDetectedSize : Prop :=
  ∀ (s : State) (chip : Chip), Ready s → ¬ Uniform s.cart chip →
    ∃ t u p k probe bs idx first, exec (.getSize chip) s = .next t
      ∧ IsDetectedSize s.cart chip p ∧ 2 ≤ p ∧ p ≤ 65536 ∧ (∃ e, p = 2 ^ e)
      ∧ IsPairCount s.params.compareEarlyExit s.cart chip (p / 2) k
      ∧ Completes t (sizeSweep chip p k) u
      ∧ u = ({ s.afterReads (sizeSweep chip p k) with
          work := { (s.afterReads (sizeSweep chip p k)).work with
            sizeW := BitVec.ofNat 17 p, probe := probe, bs := bs, idx := idx, first := first } }).returned
          (BitVec.ofNat 17 p)

/-- GET_SIZE never completes exactly when the chip is uniform (R155). It then comes, after one comparison at each of the
sixteen probes, to a state with `size_w` = 1 and `probe` = 1 that two reads, of address 0 and of address 1, lead back
to. -/
def Obligations.GetSizeHangsExactlyOnUniformChips : Prop :=
  ∀ (s : State) (chip : Chip), Ready s →
    ∃ t, exec (.getSize chip) s = .next t ∧ (NeverCompletes t ↔ Uniform s.cart chip)
      ∧ (Uniform s.cart chip →
        ∃ v, Runs t (probes.flatMap (fun q => pairReads chip q q)) v ∧ v.busy = true
          ∧ v.work.sizeW = 1#17 ∧ v.work.probe = 1#16
          ∧ Runs v [⟨chip, false, false, 0⟩, ⟨chip, false, false, 1⟩] v)

/-- On a chip that mirrors a capacity of a power of two from 2 to 65536 and does not repeat at half of it, GET_SIZE
returns the capacity (R157), with the number of read cycles R158 gives. -/
def Obligations.GetSizeFindsTheCapacity : Prop :=
  ∀ (s : State) (chip : Chip) (e : Nat), Ready s → 1 ≤ e → e ≤ 16 → Mirrors s.cart chip (2 ^ e) →
    ¬ BlocksEqual s.cart chip (2 ^ e / 2) →
    ∃ t u reads k, exec (.getSize chip) s = .next t ∧ Completes t reads u
      ∧ u.result = BitVec.ofNat 17 (2 ^ e) ∧ u.resultV = true
      ∧ IsPairCount s.params.compareEarlyExit s.cart chip (2 ^ e / 2) k
      ∧ reads.length = 2 * (65536 - 2 ^ e) + 2 * k

/-! The bank-select probe (42_bank_mode_probe.md). -/

/-- PROBE_MODE (R170, R171) completes after its three reads; each flag is one comparison with the baseline. -/
def Obligations.ProbeModeComparesWithTheBaseline : Prop :=
  ∀ (s : State) (chip : Chip), Ready s →
    ∃ t u, exec (.probeMode chip) s = .next t ∧ Completes t (probeReads chip) u
      ∧ u = ({ s.afterReads (probeReads chip) with
          work := { (s.afterReads (probeReads chip)).work with
            base := dev s.cart chip false false 0
            fa := dev s.cart chip true false 0 != dev s.cart chip false false 0
            fb := dev s.cart chip false true 0 != dev s.cart chip false false 0 } }).returned
          (packMode (modeOf s.cart chip))
      ∧ u.lines = Lines.idleAt 0
      ∧ u.result.getLsbD 0 = (dev s.cart chip true false 0 != dev s.cart chip false false 0)
      ∧ u.result.getLsbD 1 = (dev s.cart chip false true 0 != dev s.cart chip false false 0)
      ∧ u.result.extractLsb' 2 15 = 0

/-- DETECT on two chips that are not uniform completes; it reads what GET_SIZE of ROM, GET_SIZE of RAM, PROBE_MODE of
ROM and PROBE_MODE of RAM read, in this order, and stores their four results with the validity bits (R174). -/
def Obligations.DetectStoresTheFourResults : Prop :=
  ∀ s : State, Ready s → s.nothingDetected = true → ¬ Uniform s.cart .rom → ¬ Uniform s.cart .ram →
    ∃ t u p0 p1 k0 k1 sizeW probe bs idx first reads, exec .detect s = .next t
      ∧ IsDetectedSize s.cart .rom p0 ∧ IsDetectedSize s.cart .ram p1
      ∧ IsPairCount s.params.compareEarlyExit s.cart .rom (p0 / 2) k0
      ∧ IsPairCount s.params.compareEarlyExit s.cart .ram (p1 / 2) k1
      ∧ reads = sizeSweep .rom p0 k0 ++ sizeSweep .ram p1 k1 ++ probeReads .rom ++ probeReads .ram
      ∧ Completes t reads u
      ∧ u = ({ s.afterReads reads with
          size := ⟨BitVec.ofNat 17 p0, BitVec.ofNat 17 p1⟩
          sizeV := ⟨true, true⟩
          mode := ⟨modeOf s.cart .rom, modeOf s.cart .ram⟩
          modeV := ⟨true, true⟩
          work := { (s.afterReads reads).work with
            sizeW := sizeW
            probe := probe
            bs := bs
            idx := idx
            first := first
            base := dev s.cart .ram false false 0
            fa := (modeOf s.cart .ram).affectsA
            fb := (modeOf s.cart .ram).affectsB } }).returnedNothing

/-- DETECT with a uniform chip never completes, and however far it runs none of the four registers is written and
nothing is emitted, the ROM's included if it is the RAM that is uniform (R174, R237). -/
def Obligations.DetectHangsWithNothingWritten : Prop :=
  ∀ s : State, Ready s → s.nothingDetected = true → (Uniform s.cart .rom ∨ Uniform s.cart .ram) →
    ∃ t, exec .detect s = .next t ∧ NeverCompletes t
      ∧ ∀ reads u, Runs t reads u →
        u.nothingDetected = true ∧ u.size = s.size ∧ u.mode = s.mode ∧ u.out = s.out

/-- A second DETECT is refused (R174, R232 (d)). -/
def Obligations.SecondDetectIsRefused : Prop :=
  ∀ s : State, s.busy = false → s.driven = true →
    (∃ chip, s.sizeV.get chip = true ∨ s.modeV.get chip = true) → exec .detect s = .refused .alreadyDetected

/-! The dump engine (43_dump_and_commands.md). -/

/-- DUMP (R186): a size above 65536 is refused; otherwise it completes, and OUT grows by the rendering of every address
from 0 below the size, for every bank index of the set in ascending order; SIZE, MODE and FORMAT play no part. -/
def Obligations.DumpEmitsTheSelectedBanks : Prop :=
  ∀ (s : State) (d : DumpArgs), Ready s →
    (65536 < d.size.toNat →
      exec (.dump d.chip d.affectsA d.affectsB d.size d.format) s = .refused .operandOutOfDomain)
    ∧ (d.size.toNat ≤ 65536 →
      ∃ t u, exec (.dump d.chip d.affectsA d.affectsB d.size d.format) s = .next t
        ∧ Completes t (dumpReads d) u
        ∧ u = ({ s.afterReads (dumpReads d) with
            work := { (s.afterReads (dumpReads d)).work with b := 4#3, actr := d.size }
            out := s.out ++ dumpText s.params s.cart d }).returnedNothing)

/-- The bank index set (R185): the table, and its equivalent in terms of the bits of the index; a bank index drives line
A by its bit 0 and line B by its bit 1 (R97). -/
def Obligations.BankIndexSet : Prop :=
  bankSet false false = [0] ∧ bankSet true false = [0, 1] ∧ bankSet false true = [0, 2]
    ∧ bankSet true true = [0, 1, 2, 3]
    ∧ ∀ (affectsA affectsB : Bool) (b : BitVec 3), b < 4#3 →
      (bankSelected affectsA affectsB b = true ↔ b.toNat ∈ bankSet affectsA affectsB)
        ∧ bankAOf b = b.toNat.testBit 0 ∧ bankBOf b = b.toNat.testBit 1

/-- Hex format (R187): two digits, high nibble first, and a space for every byte and nothing else; binary format (R188):
the byte itself. -/
def Obligations.RenderingOfADumpedByte : Prop :=
  ∀ (p : Config.Params) (v : Byte),
    (render p .hex v).map BitVec.toNat
      = [v.toNat / 16, v.toNat % 16].map (fun n =>
          if n < 10 then 48 + n else if p.hexUppercase then 65 + (n - 10) else 97 + (n - 10)) ++ [32]
    ∧ render p .binary v = [v]

/-- While the sink is not ready an emission changes nothing; when it is, one byte is appended to OUT (R190, R238; when the
sink is ready is the input `stall`, log entry 16). -/
def Obligations.EmissionWaitsForTheSink : Prop :=
  ∀ (s : State) (v : Byte) (vs : List Byte) (rest : List Frame) (es : List Input),
    s.busy = true → s.ph = none → s.stack = .emit (v :: vs) :: rest →
      step { s with env := .stall :: es } = .next { s with env := es }
        ∧ step { s with env := [] } = .next { s with env := [], out := s.out ++ [v], stack := .emit vs :: rest }

/-- OUT grows only by emission, at its end, one byte in a step, with no read cycle in progress (R33, R186, R190). -/
def Obligations.OutGrowsOnlyByEmission : Prop :=
  ∀ s t : State, NotReset s → step s = .next t → t.out ≠ s.out →
    s.busy = true ∧ s.ph = none ∧ t.lines = s.lines
      ∧ ∃ v vs rest, s.stack = .emit (v :: vs) :: rest ∧ t.out = s.out ++ [v]

/-- A byte that arrives on the serial input while an operation runs that does not await one is kept and disturbs nothing
(R72, R238; that it is kept is the model's choice, log entry 15). -/
def Obligations.SerialBytesDisturbNothing : Prop :=
  ∀ (s t : State) (c : Byte), s.busy = true → s.awaitsCommand = false → Quiet s → step s = .next t →
    step { s with env := [.serial c] } = .next { t with cmdInput := s.cmdInput ++ [c] }

/-! RUN and the command bytes (43_dump_and_commands.md). -/

/-- RUN (R191) from the power-on state, two chips that are not uniform in the socket and a finite serial input: it
completes; the cartridge has seen the reads of DETECT and then those of each dump the commands ask for; the lines, BYTE
and the operand latches are as the last of these leaves them, the four detection results are stored, the working
registers are those of GET_SIZE and PROBE_MODE of the RAM and of the last dump, FORMAT is the last one commanded, the
whole input is consumed, and OUT has grown by the banner and by what the commands emit. (RESULT is a free value, log
entry 7; the finite input is `cmdLive` false, log entry 15; the banner's free texts and the order of its report lines are
log entry 18's.) -/
def Obligations.RunServesAFiniteInput : Prop :=
  ∀ s : State, s.busy = false → s.atPowerOn = true → Quiet s → s.cmdLive = false →
    ¬ Uniform s.cart .rom → ¬ Uniform s.cart .ram →
    ∃ t u p0 p1 k0 k1 idx first size mode reads, exec .run s = .next t
      ∧ IsDetectedSize s.cart .rom p0 ∧ IsDetectedSize s.cart .ram p1
      ∧ IsPairCount s.params.compareEarlyExit s.cart .rom (p0 / 2) k0
      ∧ IsPairCount s.params.compareEarlyExit s.cart .ram (p1 / 2) k1
      ∧ size = ⟨BitVec.ofNat 17 p0, BitVec.ofNat 17 p1⟩ ∧ mode = ⟨modeOf s.cart .rom, modeOf s.cart .ram⟩
      ∧ reads = sizeSweep .rom p0 k0 ++ sizeSweep .ram p1 k1 ++ probeReads .rom ++ probeReads .ram
          ++ sessionReads size mode s.cmdInput
      ∧ Completes t reads u
      ∧ u = ({ s.afterReads reads with
          driven := true
          size := size
          sizeV := ⟨true, true⟩
          mode := mode
          modeV := ⟨true, true⟩
          format := formatAfter .binary s.cmdInput
          work := { (s.afterReads reads).work with
            sizeW := size.ram
            probe := BitVec.ofNat 16 (p1 / 2)
            bs := BitVec.ofNat 17 (p1 / 2)
            idx := idx
            first := first
            base := dev s.cart .ram false false 0
            fa := mode.ram.affectsA
            fb := mode.ram.affectsB
            b := (sessionCounters size (s.work.b, s.work.actr) s.cmdInput).1
            actr := (sessionCounters size (s.work.b, s.work.actr) s.cmdInput).2 }
          out := s.out ++ banner s.params size mode ++ sessionText s.params s.cart size mode .binary s.cmdInput
          cmdInput := [] }).returnedNothing

/-- RUN with a uniform chip in the socket never completes and emits nothing (R191, R237; that the banner comes only after
the whole detection is the spec's decision D15). -/
def Obligations.RunHangsOnAUniformChip : Prop :=
  ∀ s : State, s.busy = false → s.atPowerOn = true → Quiet s → (Uniform s.cart .rom ∨ Uniform s.cart .ram) →
    ∃ t, exec .run s = .next t ∧ NeverCompletes t
      ∧ ∀ reads u, Runs t reads u → u.nothingDetected = true ∧ u.out = s.out ∧ u.cmdInput = s.cmdInput

/-- RUN on a live serial input never completes, whatever the cartridge and whatever bytes are there already (R191;
`cmdLive` is log entry 15's). -/
def Obligations.RunOnALiveInputNeverCompletes : Prop :=
  ∀ s : State, s.busy = false → s.atPowerOn = true → Quiet s → s.cmdLive = true →
    ∃ t, exec .run s = .next t ∧ NeverCompletes t

/-- The command loop with no byte at hand blocks: a step leaves the state as it is (R191, R221; log entry 15). -/
def Obligations.CommandLoopBlocksWithoutInput : Prop :=
  ∀ s : State, Quiet s → s.awaitsCommand = true → s.cmdInput = [] → s.cmdLive = true → step s = .next s

/-- RUN is refused anywhere but in the power-on state (R191; what is checked of it is log entry 26's). -/
def Obligations.RunNeedsThePowerOnState : Prop :=
  ∀ s : State, s.busy = false →
    (s.driven = true ∨ ∃ chip, s.sizeV.get chip = true ∨ s.modeV.get chip = true) →
    exec .run s = .refused .notPowerOnState

/-- CMD_h, byte 0x68, and CMD_b, byte 0x62, set the format and change nothing else, in one step (R192, R193): in RUN's
command loop, and with no operation running (R232 (e); that the host can hand over a command then is the model's choice,
log entry 14). -/
def Obligations.FormatCommandsSetTheFormat : Prop :=
  decodeCommand 0x68#8 = .cmdH ∧ decodeCommand 0x62#8 = .cmdB
    ∧ ∀ s : State, (s.busy = false ∨ s.awaitsCommand = true) →
      exec .cmdH s = .next { s with format := .hex } ∧ exec .cmdB s = .next { s with format := .binary }

/-- Any other byte is a no-op (R196): in RUN's command loop, and with no operation running (R232 (e); that the host can
hand over a command then is the model's choice, log entry 14). -/
def Obligations.OtherCommandsChangeNothing : Prop :=
  ∀ (s : State) (c : Byte), (s.busy = false ∨ s.awaitsCommand = true) →
    c ≠ 0x68#8 → c ≠ 0x62#8 → c ≠ 0x6F#8 → c ≠ 0x61#8 →
    decodeCommand c = .cmdOther c ∧ exec (.cmdOther c) s = .next s

/-- CMD_o and CMD_a by themselves, after bring-up and detection (R194, R195, R232): the dump of the chip with its
detected mode and size and the current format, to completion (outside RUN: log entry 14). -/
def Obligations.DumpCommandsDumpTheirChip : Prop :=
  ∀ (s : State) (chip : Chip), Ready s → s.sizeV.get chip = true → s.modeV.get chip = true →
    (s.size.get chip).toNat ≤ 65536 →
    ∃ t u reads, exec (match chip with | .rom => .cmdO | .ram => .cmdA) s = .next t
      ∧ reads = dumpReads (chipDump s.size s.mode s.format chip) ∧ Completes t reads u
      ∧ u = ({ s.afterReads reads with
          work := { (s.afterReads reads).work with b := 4#3, actr := s.size.get chip }
          out := s.out ++ dumpText s.params s.cart (chipDump s.size s.mode s.format chip) }).returnedNothing

/-- CMD_o and CMD_a inside RUN: the dump runs, no further input byte is consumed, and RUN awaits the next command in the
state the dump leaves (R191, R194, R195). -/
def Obligations.DumpCommandsReturnToTheLoop : Prop :=
  ∀ (s : State) (chip : Chip), Inv s → Quiet s → s.awaitsCommand = true →
    ∃ t u reads, exec (match chip with | .rom => .cmdO | .ram => .cmdA) s = .next t
      ∧ reads = dumpReads (chipDump s.size s.mode s.format chip) ∧ Runs t reads u ∧ u.awaitsCommand = true
      ∧ u = { s.afterReads reads with
          work := { (s.afterReads reads).work with b := 4#3, actr := s.size.get chip }
          out := s.out ++ dumpText s.params s.cart (chipDump s.size s.mode s.format chip)
          ret := none }

/-- CMD_o and CMD_a before detection are refused (R232 (c); log entry 23; a command with no operation running is
log entry 14's). -/
def Obligations.DumpCommandsNeedDetection : Prop :=
  ∀ (s : State) (chip : Chip), s.busy = false → s.driven = true →
    (s.sizeV.get chip = false ∨ s.modeV.get chip = false) →
    exec (match chip with | .rom => .cmdO | .ram => .cmdA) s = .refused .registerNotValid

/-- The banner (R197): some head, the ROM size line, the RAM size line, the four report lines, one for each control line
and chip, in an order that the source does not give, and some menu. The given texts stand there exactly, each report line
saying "affects" when its flag is true; A is P25.2 and B is P25.3 (92_eei_decisions.md D17). The texts that the source
does not give and the order are the same whatever was detected (log entry 18). -/
def Obligations.BannerReportsTheDetection : Prop :=
  ∀ p : Config.Params, ∃ (head afterRom afterRam menu : List Nat) (order : List (Bool × Chip)) (after : List (List Nat)),
    order.Perm [(false, .rom), (true, .rom), (false, .ram), (true, .ram)] ∧ after.length = 4
      ∧ ∀ (size : PerChip Size) (mode : PerChip ModeFlags),
        (banner p size mode).map BitVec.toNat
          = head ++ codes "ROM Size is $" ++ (sizeText p.hexUppercase size.rom).map BitVec.toNat ++ afterRom
            ++ codes "RAM Size is $" ++ (sizeText p.hexUppercase size.ram).map BitVec.toNat ++ afterRam
            ++ (List.zipWith (fun line rest => codes (reportText line.1 line.2 (flagOf mode line.1 line.2)) ++ rest)
              order after).flatten
            ++ menu

/-- The rendering of a size (R198): its hexadecimal digits, five of them for 65536 and four otherwise. -/
def Obligations.SizeRendering : Prop :=
  (∀ (upper : Bool) (n : Size),
    (sizeText upper n).map BitVec.toNat
      = (if 65536 ≤ n.toNat then [49] else []) ++ [4096, 256, 16, 1].map (fun w =>
          let digit := n.toNat / w % 16
          if digit < 10 then 48 + digit else if upper then 65 + (digit - 10) else 97 + (digit - 10)))
    ∧ ∀ upper : Bool,
      sizeText upper 65536#17 = asciiBytes ['1', '0', '0', '0', '0']
        ∧ sizeText upper 32768#17 = asciiBytes ['8', '0', '0', '0']
        ∧ sizeText upper 8192#17 = asciiBytes ['2', '0', '0', '0']
        ∧ sizeText upper 256#17 = asciiBytes ['0', '1', '0', '0']
        ∧ sizeText upper 2#17 = asciiBytes ['0', '0', '0', '2']

/-! The whole machine. -/

/-- The invariant holds right after reset. -/
def Obligations.InvariantHoldsAtReset : Prop := Inv State.reset

/-- Every step keeps the invariant: the cartridge's canonical form, the line levels of every phase, the nesting of the
control points, the ranges of the working registers, the validity bits, the legal sizes. -/
def Obligations.EveryStepKeepsTheInvariant : Prop :=
  ∀ s t : State, Inv s → step s = .next t → Inv t

/-- What the lines never do (R71, R129, R235): WE_N is never low, the two chip-enables are never low together, RST is
held only in bring-up, and between operations and between read cycles the lines are idle. -/
def Obligations.LinesAreNeverUnsafe : Prop :=
  ∀ s : State, Inv s → s.driven = true →
    s.lines.weN = true ∧ (s.lines.ceN.rom = true ∨ s.lines.ceN.ram = true)
      ∧ (s.lines.rst = true → s.ph = some .bu3 ∨ s.ph = some .bu4)
      ∧ (s.ph = none → s.lines.isIdle = true) ∧ (s.busy = false → s.lines.isIdle = true)

/-- Between two read cycles the address lines hold the last address read, BYTE the last byte and the operand latches the
last operands, whatever has been read (R25, R29, R129). -/
def Obligations.LastReadStaysOnTheLines : Prop :=
  ∀ (s u : State) (reads : List BusRead), Inv s → Quiet s → s.busy = true → s.driven = true → s.ph = none →
    Runs s reads u → u.ph = none →
    u.lines = (s.afterReads reads).lines ∧ u.byte = (s.afterReads reads).byte
      ∧ u.byteV = (s.afterReads reads).byteV ∧ u.work.rChip = (s.afterReads reads).work.rChip
      ∧ u.work.rBankA = (s.afterReads reads).work.rBankA ∧ u.work.rBankB = (s.afterReads reads).work.rBankB
      ∧ u.work.rAddr = (s.afterReads reads).work.rAddr

/-- No step changes the cartridge or the parameters: nothing is ever written to memory, and the cartridge is fixed for a
run (R61, R71). -/
def Obligations.CartridgeIsNeverWritten : Prop :=
  ∀ s t : State, step s = .next t → t.cart = s.cart ∧ t.params = s.params

/-- Once detection has stored its results they never change, short of an external reset (R35, R175). -/
def Obligations.DetectionResultsAreImmutable : Prop :=
  ∀ s t : State, Inv s → s.allDetected = true → NotReset s → step s = .next t →
    t.size = s.size ∧ t.sizeV = s.sizeV ∧ t.mode = s.mode ∧ t.modeV = s.modeV

/-- FORMAT changes only in a step that runs CMD_h, CMD_b or RUN, short of an external reset (R28, R35, R191). -/
def Obligations.FormatChangesOnlyByCommand : Prop :=
  ∀ s t : State, NotReset s → step s = .next t → t.format ≠ s.format →
    ∃ i s', fetch s = .instr i s' ∧ (i = .cmdH ∨ i = .cmdB ∨ i = .run)

/-- The lines change only in a phase of bring-up or of a read cycle, BYTE only in RB8, DRIVEN only in BU2, and RESULT
only when an operation completes (R22, R23, R25, R30, R93). The RESULT clause covers NOP and the reserved codes too: that
RESULT stays in them is the model's reading (log entry 8, DEDUCED, from R95 and R120's example), since R93 and R120 call
RESULT unspecified after NOP. -/
def Obligations.RegistersChangeOnlyInTheirPhase : Prop :=
  ∀ s t : State, NotReset s → step s = .next t →
    (t.lines ≠ s.lines → s.busy = true ∧ s.ph ≠ none)
      ∧ (t.byte ≠ s.byte → s.busy = true ∧ s.ph = some .rb8)
      ∧ (t.driven ≠ s.driven → s.busy = true ∧ s.ph = some .bu2)
      ∧ (t.result ≠ s.result → s.busy = true ∧ t.busy = false)

end
end

