-- ==== Sys2Proof/Laws/State.lean ====
section
/-! SUPPORT. What each update of the state does to each field: one lemma for each pair, true by definition, so that no
later proof unfolds a record update. -/

namespace Sys2Proof.Machine

variable (s : State)

@[simp] theorem State.setLines_lines (l : Lines) : (s.setLines l).lines = l := rfl
@[simp] theorem State.setLines_driven (l : Lines) : (s.setLines l).driven = s.driven := rfl
@[simp] theorem State.setLines_byte (l : Lines) : (s.setLines l).byte = s.byte := rfl
@[simp] theorem State.setLines_byteV (l : Lines) : (s.setLines l).byteV = s.byteV := rfl
@[simp] theorem State.setLines_size (l : Lines) : (s.setLines l).size = s.size := rfl
@[simp] theorem State.setLines_sizeV (l : Lines) : (s.setLines l).sizeV = s.sizeV := rfl
@[simp] theorem State.setLines_mode (l : Lines) : (s.setLines l).mode = s.mode := rfl
@[simp] theorem State.setLines_modeV (l : Lines) : (s.setLines l).modeV = s.modeV := rfl
@[simp] theorem State.setLines_format (l : Lines) : (s.setLines l).format = s.format := rfl
@[simp] theorem State.setLines_work (l : Lines) : (s.setLines l).work = s.work := rfl
@[simp] theorem State.setLines_op (l : Lines) : (s.setLines l).op = s.op := rfl
@[simp] theorem State.setLines_ph (l : Lines) : (s.setLines l).ph = s.ph := rfl
@[simp] theorem State.setLines_tmr (l : Lines) : (s.setLines l).tmr = s.tmr := rfl
@[simp] theorem State.setLines_stack (l : Lines) : (s.setLines l).stack = s.stack := rfl
@[simp] theorem State.setLines_ret (l : Lines) : (s.setLines l).ret = s.ret := rfl
@[simp] theorem State.setLines_req (l : Lines) : (s.setLines l).req = s.req := rfl
@[simp] theorem State.setLines_busy (l : Lines) : (s.setLines l).busy = s.busy := rfl
@[simp] theorem State.setLines_result (l : Lines) : (s.setLines l).result = s.result := rfl
@[simp] theorem State.setLines_resultV (l : Lines) : (s.setLines l).resultV = s.resultV := rfl
@[simp] theorem State.setLines_out (l : Lines) : (s.setLines l).out = s.out := rfl
@[simp] theorem State.setLines_cart (l : Lines) : (s.setLines l).cart = s.cart := rfl
@[simp] theorem State.setLines_params (l : Lines) : (s.setLines l).params = s.params := rfl
@[simp] theorem State.setLines_env (l : Lines) : (s.setLines l).env = s.env := rfl
@[simp] theorem State.setLines_cmdInput (l : Lines) : (s.setLines l).cmdInput = s.cmdInput := rfl
@[simp] theorem State.setLines_cmdLive (l : Lines) : (s.setLines l).cmdLive = s.cmdLive := rfl
@[simp] theorem State.setLines_autoRun (l : Lines) : (s.setLines l).autoRun = s.autoRun := rfl
@[simp] theorem State.setLines_freeN (l : Lines) : (s.setLines l).freeN = s.freeN := rfl

@[simp] theorem State.setDriven_lines : (s.setDriven).lines = s.lines := rfl
@[simp] theorem State.setDriven_driven : (s.setDriven).driven = true := rfl
@[simp] theorem State.setDriven_byte : (s.setDriven).byte = s.byte := rfl
@[simp] theorem State.setDriven_byteV : (s.setDriven).byteV = s.byteV := rfl
@[simp] theorem State.setDriven_size : (s.setDriven).size = s.size := rfl
@[simp] theorem State.setDriven_sizeV : (s.setDriven).sizeV = s.sizeV := rfl
@[simp] theorem State.setDriven_mode : (s.setDriven).mode = s.mode := rfl
@[simp] theorem State.setDriven_modeV : (s.setDriven).modeV = s.modeV := rfl
@[simp] theorem State.setDriven_format : (s.setDriven).format = s.format := rfl
@[simp] theorem State.setDriven_work : (s.setDriven).work = s.work := rfl
@[simp] theorem State.setDriven_op : (s.setDriven).op = s.op := rfl
@[simp] theorem State.setDriven_ph : (s.setDriven).ph = s.ph := rfl
@[simp] theorem State.setDriven_tmr : (s.setDriven).tmr = s.tmr := rfl
@[simp] theorem State.setDriven_stack : (s.setDriven).stack = s.stack := rfl
@[simp] theorem State.setDriven_ret : (s.setDriven).ret = s.ret := rfl
@[simp] theorem State.setDriven_req : (s.setDriven).req = s.req := rfl
@[simp] theorem State.setDriven_busy : (s.setDriven).busy = s.busy := rfl
@[simp] theorem State.setDriven_result : (s.setDriven).result = s.result := rfl
@[simp] theorem State.setDriven_resultV : (s.setDriven).resultV = s.resultV := rfl
@[simp] theorem State.setDriven_out : (s.setDriven).out = s.out := rfl
@[simp] theorem State.setDriven_cart : (s.setDriven).cart = s.cart := rfl
@[simp] theorem State.setDriven_params : (s.setDriven).params = s.params := rfl
@[simp] theorem State.setDriven_env : (s.setDriven).env = s.env := rfl
@[simp] theorem State.setDriven_cmdInput : (s.setDriven).cmdInput = s.cmdInput := rfl
@[simp] theorem State.setDriven_cmdLive : (s.setDriven).cmdLive = s.cmdLive := rfl
@[simp] theorem State.setDriven_autoRun : (s.setDriven).autoRun = s.autoRun := rfl
@[simp] theorem State.setDriven_freeN : (s.setDriven).freeN = s.freeN := rfl

@[simp] theorem State.setPh_lines (p : Option Phase) : (s.setPh p).lines = s.lines := rfl
@[simp] theorem State.setPh_driven (p : Option Phase) : (s.setPh p).driven = s.driven := rfl
@[simp] theorem State.setPh_byte (p : Option Phase) : (s.setPh p).byte = s.byte := rfl
@[simp] theorem State.setPh_byteV (p : Option Phase) : (s.setPh p).byteV = s.byteV := rfl
@[simp] theorem State.setPh_size (p : Option Phase) : (s.setPh p).size = s.size := rfl
@[simp] theorem State.setPh_sizeV (p : Option Phase) : (s.setPh p).sizeV = s.sizeV := rfl
@[simp] theorem State.setPh_mode (p : Option Phase) : (s.setPh p).mode = s.mode := rfl
@[simp] theorem State.setPh_modeV (p : Option Phase) : (s.setPh p).modeV = s.modeV := rfl
@[simp] theorem State.setPh_format (p : Option Phase) : (s.setPh p).format = s.format := rfl
@[simp] theorem State.setPh_work (p : Option Phase) : (s.setPh p).work = s.work := rfl
@[simp] theorem State.setPh_op (p : Option Phase) : (s.setPh p).op = s.op := rfl
@[simp] theorem State.setPh_ph (p : Option Phase) : (s.setPh p).ph = p := rfl
@[simp] theorem State.setPh_tmr (p : Option Phase) : (s.setPh p).tmr = s.tmr := rfl
@[simp] theorem State.setPh_stack (p : Option Phase) : (s.setPh p).stack = s.stack := rfl
@[simp] theorem State.setPh_ret (p : Option Phase) : (s.setPh p).ret = s.ret := rfl
@[simp] theorem State.setPh_req (p : Option Phase) : (s.setPh p).req = s.req := rfl
@[simp] theorem State.setPh_busy (p : Option Phase) : (s.setPh p).busy = s.busy := rfl
@[simp] theorem State.setPh_result (p : Option Phase) : (s.setPh p).result = s.result := rfl
@[simp] theorem State.setPh_resultV (p : Option Phase) : (s.setPh p).resultV = s.resultV := rfl
@[simp] theorem State.setPh_out (p : Option Phase) : (s.setPh p).out = s.out := rfl
@[simp] theorem State.setPh_cart (p : Option Phase) : (s.setPh p).cart = s.cart := rfl
@[simp] theorem State.setPh_params (p : Option Phase) : (s.setPh p).params = s.params := rfl
@[simp] theorem State.setPh_env (p : Option Phase) : (s.setPh p).env = s.env := rfl
@[simp] theorem State.setPh_cmdInput (p : Option Phase) : (s.setPh p).cmdInput = s.cmdInput := rfl
@[simp] theorem State.setPh_cmdLive (p : Option Phase) : (s.setPh p).cmdLive = s.cmdLive := rfl
@[simp] theorem State.setPh_autoRun (p : Option Phase) : (s.setPh p).autoRun = s.autoRun := rfl
@[simp] theorem State.setPh_freeN (p : Option Phase) : (s.setPh p).freeN = s.freeN := rfl

@[simp] theorem State.setTmr_lines (t : Timer) : (s.setTmr t).lines = s.lines := rfl
@[simp] theorem State.setTmr_driven (t : Timer) : (s.setTmr t).driven = s.driven := rfl
@[simp] theorem State.setTmr_byte (t : Timer) : (s.setTmr t).byte = s.byte := rfl
@[simp] theorem State.setTmr_byteV (t : Timer) : (s.setTmr t).byteV = s.byteV := rfl
@[simp] theorem State.setTmr_size (t : Timer) : (s.setTmr t).size = s.size := rfl
@[simp] theorem State.setTmr_sizeV (t : Timer) : (s.setTmr t).sizeV = s.sizeV := rfl
@[simp] theorem State.setTmr_mode (t : Timer) : (s.setTmr t).mode = s.mode := rfl
@[simp] theorem State.setTmr_modeV (t : Timer) : (s.setTmr t).modeV = s.modeV := rfl
@[simp] theorem State.setTmr_format (t : Timer) : (s.setTmr t).format = s.format := rfl
@[simp] theorem State.setTmr_work (t : Timer) : (s.setTmr t).work = s.work := rfl
@[simp] theorem State.setTmr_op (t : Timer) : (s.setTmr t).op = s.op := rfl
@[simp] theorem State.setTmr_ph (t : Timer) : (s.setTmr t).ph = s.ph := rfl
@[simp] theorem State.setTmr_tmr (t : Timer) : (s.setTmr t).tmr = t := rfl
@[simp] theorem State.setTmr_stack (t : Timer) : (s.setTmr t).stack = s.stack := rfl
@[simp] theorem State.setTmr_ret (t : Timer) : (s.setTmr t).ret = s.ret := rfl
@[simp] theorem State.setTmr_req (t : Timer) : (s.setTmr t).req = s.req := rfl
@[simp] theorem State.setTmr_busy (t : Timer) : (s.setTmr t).busy = s.busy := rfl
@[simp] theorem State.setTmr_result (t : Timer) : (s.setTmr t).result = s.result := rfl
@[simp] theorem State.setTmr_resultV (t : Timer) : (s.setTmr t).resultV = s.resultV := rfl
@[simp] theorem State.setTmr_out (t : Timer) : (s.setTmr t).out = s.out := rfl
@[simp] theorem State.setTmr_cart (t : Timer) : (s.setTmr t).cart = s.cart := rfl
@[simp] theorem State.setTmr_params (t : Timer) : (s.setTmr t).params = s.params := rfl
@[simp] theorem State.setTmr_env (t : Timer) : (s.setTmr t).env = s.env := rfl
@[simp] theorem State.setTmr_cmdInput (t : Timer) : (s.setTmr t).cmdInput = s.cmdInput := rfl
@[simp] theorem State.setTmr_cmdLive (t : Timer) : (s.setTmr t).cmdLive = s.cmdLive := rfl
@[simp] theorem State.setTmr_autoRun (t : Timer) : (s.setTmr t).autoRun = s.autoRun := rfl
@[simp] theorem State.setTmr_freeN (t : Timer) : (s.setTmr t).freeN = s.freeN := rfl

@[simp] theorem State.setWork_lines (w : Work) : (s.setWork w).lines = s.lines := rfl
@[simp] theorem State.setWork_driven (w : Work) : (s.setWork w).driven = s.driven := rfl
@[simp] theorem State.setWork_byte (w : Work) : (s.setWork w).byte = s.byte := rfl
@[simp] theorem State.setWork_byteV (w : Work) : (s.setWork w).byteV = s.byteV := rfl
@[simp] theorem State.setWork_size (w : Work) : (s.setWork w).size = s.size := rfl
@[simp] theorem State.setWork_sizeV (w : Work) : (s.setWork w).sizeV = s.sizeV := rfl
@[simp] theorem State.setWork_mode (w : Work) : (s.setWork w).mode = s.mode := rfl
@[simp] theorem State.setWork_modeV (w : Work) : (s.setWork w).modeV = s.modeV := rfl
@[simp] theorem State.setWork_format (w : Work) : (s.setWork w).format = s.format := rfl
@[simp] theorem State.setWork_work (w : Work) : (s.setWork w).work = w := rfl
@[simp] theorem State.setWork_op (w : Work) : (s.setWork w).op = s.op := rfl
@[simp] theorem State.setWork_ph (w : Work) : (s.setWork w).ph = s.ph := rfl
@[simp] theorem State.setWork_tmr (w : Work) : (s.setWork w).tmr = s.tmr := rfl
@[simp] theorem State.setWork_stack (w : Work) : (s.setWork w).stack = s.stack := rfl
@[simp] theorem State.setWork_ret (w : Work) : (s.setWork w).ret = s.ret := rfl
@[simp] theorem State.setWork_req (w : Work) : (s.setWork w).req = s.req := rfl
@[simp] theorem State.setWork_busy (w : Work) : (s.setWork w).busy = s.busy := rfl
@[simp] theorem State.setWork_result (w : Work) : (s.setWork w).result = s.result := rfl
@[simp] theorem State.setWork_resultV (w : Work) : (s.setWork w).resultV = s.resultV := rfl
@[simp] theorem State.setWork_out (w : Work) : (s.setWork w).out = s.out := rfl
@[simp] theorem State.setWork_cart (w : Work) : (s.setWork w).cart = s.cart := rfl
@[simp] theorem State.setWork_params (w : Work) : (s.setWork w).params = s.params := rfl
@[simp] theorem State.setWork_env (w : Work) : (s.setWork w).env = s.env := rfl
@[simp] theorem State.setWork_cmdInput (w : Work) : (s.setWork w).cmdInput = s.cmdInput := rfl
@[simp] theorem State.setWork_cmdLive (w : Work) : (s.setWork w).cmdLive = s.cmdLive := rfl
@[simp] theorem State.setWork_autoRun (w : Work) : (s.setWork w).autoRun = s.autoRun := rfl
@[simp] theorem State.setWork_freeN (w : Work) : (s.setWork w).freeN = s.freeN := rfl

@[simp] theorem State.setStack_lines (frames : List Frame) : (s.setStack frames).lines = s.lines := rfl
@[simp] theorem State.setStack_driven (frames : List Frame) : (s.setStack frames).driven = s.driven := rfl
@[simp] theorem State.setStack_byte (frames : List Frame) : (s.setStack frames).byte = s.byte := rfl
@[simp] theorem State.setStack_byteV (frames : List Frame) : (s.setStack frames).byteV = s.byteV := rfl
@[simp] theorem State.setStack_size (frames : List Frame) : (s.setStack frames).size = s.size := rfl
@[simp] theorem State.setStack_sizeV (frames : List Frame) : (s.setStack frames).sizeV = s.sizeV := rfl
@[simp] theorem State.setStack_mode (frames : List Frame) : (s.setStack frames).mode = s.mode := rfl
@[simp] theorem State.setStack_modeV (frames : List Frame) : (s.setStack frames).modeV = s.modeV := rfl
@[simp] theorem State.setStack_format (frames : List Frame) : (s.setStack frames).format = s.format := rfl
@[simp] theorem State.setStack_work (frames : List Frame) : (s.setStack frames).work = s.work := rfl
@[simp] theorem State.setStack_op (frames : List Frame) : (s.setStack frames).op = s.op := rfl
@[simp] theorem State.setStack_ph (frames : List Frame) : (s.setStack frames).ph = s.ph := rfl
@[simp] theorem State.setStack_tmr (frames : List Frame) : (s.setStack frames).tmr = s.tmr := rfl
@[simp] theorem State.setStack_stack (frames : List Frame) : (s.setStack frames).stack = frames := rfl
@[simp] theorem State.setStack_ret (frames : List Frame) : (s.setStack frames).ret = s.ret := rfl
@[simp] theorem State.setStack_req (frames : List Frame) : (s.setStack frames).req = s.req := rfl
@[simp] theorem State.setStack_busy (frames : List Frame) : (s.setStack frames).busy = s.busy := rfl
@[simp] theorem State.setStack_result (frames : List Frame) : (s.setStack frames).result = s.result := rfl
@[simp] theorem State.setStack_resultV (frames : List Frame) : (s.setStack frames).resultV = s.resultV := rfl
@[simp] theorem State.setStack_out (frames : List Frame) : (s.setStack frames).out = s.out := rfl
@[simp] theorem State.setStack_cart (frames : List Frame) : (s.setStack frames).cart = s.cart := rfl
@[simp] theorem State.setStack_params (frames : List Frame) : (s.setStack frames).params = s.params := rfl
@[simp] theorem State.setStack_env (frames : List Frame) : (s.setStack frames).env = s.env := rfl
@[simp] theorem State.setStack_cmdInput (frames : List Frame) : (s.setStack frames).cmdInput = s.cmdInput := rfl
@[simp] theorem State.setStack_cmdLive (frames : List Frame) : (s.setStack frames).cmdLive = s.cmdLive := rfl
@[simp] theorem State.setStack_autoRun (frames : List Frame) : (s.setStack frames).autoRun = s.autoRun := rfl
@[simp] theorem State.setStack_freeN (frames : List Frame) : (s.setStack frames).freeN = s.freeN := rfl

@[simp] theorem State.setRet_lines (v : Option Size) : (s.setRet v).lines = s.lines := rfl
@[simp] theorem State.setRet_driven (v : Option Size) : (s.setRet v).driven = s.driven := rfl
@[simp] theorem State.setRet_byte (v : Option Size) : (s.setRet v).byte = s.byte := rfl
@[simp] theorem State.setRet_byteV (v : Option Size) : (s.setRet v).byteV = s.byteV := rfl
@[simp] theorem State.setRet_size (v : Option Size) : (s.setRet v).size = s.size := rfl
@[simp] theorem State.setRet_sizeV (v : Option Size) : (s.setRet v).sizeV = s.sizeV := rfl
@[simp] theorem State.setRet_mode (v : Option Size) : (s.setRet v).mode = s.mode := rfl
@[simp] theorem State.setRet_modeV (v : Option Size) : (s.setRet v).modeV = s.modeV := rfl
@[simp] theorem State.setRet_format (v : Option Size) : (s.setRet v).format = s.format := rfl
@[simp] theorem State.setRet_work (v : Option Size) : (s.setRet v).work = s.work := rfl
@[simp] theorem State.setRet_op (v : Option Size) : (s.setRet v).op = s.op := rfl
@[simp] theorem State.setRet_ph (v : Option Size) : (s.setRet v).ph = s.ph := rfl
@[simp] theorem State.setRet_tmr (v : Option Size) : (s.setRet v).tmr = s.tmr := rfl
@[simp] theorem State.setRet_stack (v : Option Size) : (s.setRet v).stack = s.stack := rfl
@[simp] theorem State.setRet_ret (v : Option Size) : (s.setRet v).ret = v := rfl
@[simp] theorem State.setRet_req (v : Option Size) : (s.setRet v).req = s.req := rfl
@[simp] theorem State.setRet_busy (v : Option Size) : (s.setRet v).busy = s.busy := rfl
@[simp] theorem State.setRet_result (v : Option Size) : (s.setRet v).result = s.result := rfl
@[simp] theorem State.setRet_resultV (v : Option Size) : (s.setRet v).resultV = s.resultV := rfl
@[simp] theorem State.setRet_out (v : Option Size) : (s.setRet v).out = s.out := rfl
@[simp] theorem State.setRet_cart (v : Option Size) : (s.setRet v).cart = s.cart := rfl
@[simp] theorem State.setRet_params (v : Option Size) : (s.setRet v).params = s.params := rfl
@[simp] theorem State.setRet_env (v : Option Size) : (s.setRet v).env = s.env := rfl
@[simp] theorem State.setRet_cmdInput (v : Option Size) : (s.setRet v).cmdInput = s.cmdInput := rfl
@[simp] theorem State.setRet_cmdLive (v : Option Size) : (s.setRet v).cmdLive = s.cmdLive := rfl
@[simp] theorem State.setRet_autoRun (v : Option Size) : (s.setRet v).autoRun = s.autoRun := rfl
@[simp] theorem State.setRet_freeN (v : Option Size) : (s.setRet v).freeN = s.freeN := rfl

@[simp] theorem State.setFormat_lines (f : Format) : (s.setFormat f).lines = s.lines := rfl
@[simp] theorem State.setFormat_driven (f : Format) : (s.setFormat f).driven = s.driven := rfl
@[simp] theorem State.setFormat_byte (f : Format) : (s.setFormat f).byte = s.byte := rfl
@[simp] theorem State.setFormat_byteV (f : Format) : (s.setFormat f).byteV = s.byteV := rfl
@[simp] theorem State.setFormat_size (f : Format) : (s.setFormat f).size = s.size := rfl
@[simp] theorem State.setFormat_sizeV (f : Format) : (s.setFormat f).sizeV = s.sizeV := rfl
@[simp] theorem State.setFormat_mode (f : Format) : (s.setFormat f).mode = s.mode := rfl
@[simp] theorem State.setFormat_modeV (f : Format) : (s.setFormat f).modeV = s.modeV := rfl
@[simp] theorem State.setFormat_format (f : Format) : (s.setFormat f).format = f := rfl
@[simp] theorem State.setFormat_work (f : Format) : (s.setFormat f).work = s.work := rfl
@[simp] theorem State.setFormat_op (f : Format) : (s.setFormat f).op = s.op := rfl
@[simp] theorem State.setFormat_ph (f : Format) : (s.setFormat f).ph = s.ph := rfl
@[simp] theorem State.setFormat_tmr (f : Format) : (s.setFormat f).tmr = s.tmr := rfl
@[simp] theorem State.setFormat_stack (f : Format) : (s.setFormat f).stack = s.stack := rfl
@[simp] theorem State.setFormat_ret (f : Format) : (s.setFormat f).ret = s.ret := rfl
@[simp] theorem State.setFormat_req (f : Format) : (s.setFormat f).req = s.req := rfl
@[simp] theorem State.setFormat_busy (f : Format) : (s.setFormat f).busy = s.busy := rfl
@[simp] theorem State.setFormat_result (f : Format) : (s.setFormat f).result = s.result := rfl
@[simp] theorem State.setFormat_resultV (f : Format) : (s.setFormat f).resultV = s.resultV := rfl
@[simp] theorem State.setFormat_out (f : Format) : (s.setFormat f).out = s.out := rfl
@[simp] theorem State.setFormat_cart (f : Format) : (s.setFormat f).cart = s.cart := rfl
@[simp] theorem State.setFormat_params (f : Format) : (s.setFormat f).params = s.params := rfl
@[simp] theorem State.setFormat_env (f : Format) : (s.setFormat f).env = s.env := rfl
@[simp] theorem State.setFormat_cmdInput (f : Format) : (s.setFormat f).cmdInput = s.cmdInput := rfl
@[simp] theorem State.setFormat_cmdLive (f : Format) : (s.setFormat f).cmdLive = s.cmdLive := rfl
@[simp] theorem State.setFormat_autoRun (f : Format) : (s.setFormat f).autoRun = s.autoRun := rfl
@[simp] theorem State.setFormat_freeN (f : Format) : (s.setFormat f).freeN = s.freeN := rfl

@[simp] theorem State.pushOut_lines (v : Byte) : (s.pushOut v).lines = s.lines := rfl
@[simp] theorem State.pushOut_driven (v : Byte) : (s.pushOut v).driven = s.driven := rfl
@[simp] theorem State.pushOut_byte (v : Byte) : (s.pushOut v).byte = s.byte := rfl
@[simp] theorem State.pushOut_byteV (v : Byte) : (s.pushOut v).byteV = s.byteV := rfl
@[simp] theorem State.pushOut_size (v : Byte) : (s.pushOut v).size = s.size := rfl
@[simp] theorem State.pushOut_sizeV (v : Byte) : (s.pushOut v).sizeV = s.sizeV := rfl
@[simp] theorem State.pushOut_mode (v : Byte) : (s.pushOut v).mode = s.mode := rfl
@[simp] theorem State.pushOut_modeV (v : Byte) : (s.pushOut v).modeV = s.modeV := rfl
@[simp] theorem State.pushOut_format (v : Byte) : (s.pushOut v).format = s.format := rfl
@[simp] theorem State.pushOut_work (v : Byte) : (s.pushOut v).work = s.work := rfl
@[simp] theorem State.pushOut_op (v : Byte) : (s.pushOut v).op = s.op := rfl
@[simp] theorem State.pushOut_ph (v : Byte) : (s.pushOut v).ph = s.ph := rfl
@[simp] theorem State.pushOut_tmr (v : Byte) : (s.pushOut v).tmr = s.tmr := rfl
@[simp] theorem State.pushOut_stack (v : Byte) : (s.pushOut v).stack = s.stack := rfl
@[simp] theorem State.pushOut_ret (v : Byte) : (s.pushOut v).ret = s.ret := rfl
@[simp] theorem State.pushOut_req (v : Byte) : (s.pushOut v).req = s.req := rfl
@[simp] theorem State.pushOut_busy (v : Byte) : (s.pushOut v).busy = s.busy := rfl
@[simp] theorem State.pushOut_result (v : Byte) : (s.pushOut v).result = s.result := rfl
@[simp] theorem State.pushOut_resultV (v : Byte) : (s.pushOut v).resultV = s.resultV := rfl
@[simp] theorem State.pushOut_out (v : Byte) : (s.pushOut v).out = s.out ++ [v] := rfl
@[simp] theorem State.pushOut_cart (v : Byte) : (s.pushOut v).cart = s.cart := rfl
@[simp] theorem State.pushOut_params (v : Byte) : (s.pushOut v).params = s.params := rfl
@[simp] theorem State.pushOut_env (v : Byte) : (s.pushOut v).env = s.env := rfl
@[simp] theorem State.pushOut_cmdInput (v : Byte) : (s.pushOut v).cmdInput = s.cmdInput := rfl
@[simp] theorem State.pushOut_cmdLive (v : Byte) : (s.pushOut v).cmdLive = s.cmdLive := rfl
@[simp] theorem State.pushOut_autoRun (v : Byte) : (s.pushOut v).autoRun = s.autoRun := rfl
@[simp] theorem State.pushOut_freeN (v : Byte) : (s.pushOut v).freeN = s.freeN := rfl

@[simp] theorem State.storeByte_lines (v : Byte) (used : Nat) : (s.storeByte v used).lines = s.lines := rfl
@[simp] theorem State.storeByte_driven (v : Byte) (used : Nat) : (s.storeByte v used).driven = s.driven := rfl
@[simp] theorem State.storeByte_byte (v : Byte) (used : Nat) : (s.storeByte v used).byte = v := rfl
@[simp] theorem State.storeByte_byteV (v : Byte) (used : Nat) : (s.storeByte v used).byteV = true := rfl
@[simp] theorem State.storeByte_size (v : Byte) (used : Nat) : (s.storeByte v used).size = s.size := rfl
@[simp] theorem State.storeByte_sizeV (v : Byte) (used : Nat) : (s.storeByte v used).sizeV = s.sizeV := rfl
@[simp] theorem State.storeByte_mode (v : Byte) (used : Nat) : (s.storeByte v used).mode = s.mode := rfl
@[simp] theorem State.storeByte_modeV (v : Byte) (used : Nat) : (s.storeByte v used).modeV = s.modeV := rfl
@[simp] theorem State.storeByte_format (v : Byte) (used : Nat) : (s.storeByte v used).format = s.format := rfl
@[simp] theorem State.storeByte_work (v : Byte) (used : Nat) : (s.storeByte v used).work = s.work := rfl
@[simp] theorem State.storeByte_op (v : Byte) (used : Nat) : (s.storeByte v used).op = s.op := rfl
@[simp] theorem State.storeByte_ph (v : Byte) (used : Nat) : (s.storeByte v used).ph = s.ph := rfl
@[simp] theorem State.storeByte_tmr (v : Byte) (used : Nat) : (s.storeByte v used).tmr = s.tmr := rfl
@[simp] theorem State.storeByte_stack (v : Byte) (used : Nat) : (s.storeByte v used).stack = s.stack := rfl
@[simp] theorem State.storeByte_ret (v : Byte) (used : Nat) : (s.storeByte v used).ret = s.ret := rfl
@[simp] theorem State.storeByte_req (v : Byte) (used : Nat) : (s.storeByte v used).req = s.req := rfl
@[simp] theorem State.storeByte_busy (v : Byte) (used : Nat) : (s.storeByte v used).busy = s.busy := rfl
@[simp] theorem State.storeByte_result (v : Byte) (used : Nat) : (s.storeByte v used).result = s.result := rfl
@[simp] theorem State.storeByte_resultV (v : Byte) (used : Nat) : (s.storeByte v used).resultV = s.resultV := rfl
@[simp] theorem State.storeByte_out (v : Byte) (used : Nat) : (s.storeByte v used).out = s.out := rfl
@[simp] theorem State.storeByte_cart (v : Byte) (used : Nat) : (s.storeByte v used).cart = s.cart := rfl
@[simp] theorem State.storeByte_params (v : Byte) (used : Nat) : (s.storeByte v used).params = s.params := rfl
@[simp] theorem State.storeByte_env (v : Byte) (used : Nat) : (s.storeByte v used).env = s.env := rfl
@[simp] theorem State.storeByte_cmdInput (v : Byte) (used : Nat) : (s.storeByte v used).cmdInput = s.cmdInput := rfl
@[simp] theorem State.storeByte_cmdLive (v : Byte) (used : Nat) : (s.storeByte v used).cmdLive = s.cmdLive := rfl
@[simp] theorem State.storeByte_autoRun (v : Byte) (used : Nat) : (s.storeByte v used).autoRun = s.autoRun := rfl
@[simp] theorem State.storeByte_freeN (v : Byte) (used : Nat) : (s.storeByte v used).freeN = s.freeN + used := rfl

@[simp] theorem State.storeDetection_lines (s0 s1 : Size) (m0 m1 : ModeFlags) :
    (s.storeDetection s0 s1 m0 m1).lines = s.lines := rfl
@[simp] theorem State.storeDetection_driven (s0 s1 : Size) (m0 m1 : ModeFlags) :
    (s.storeDetection s0 s1 m0 m1).driven = s.driven := rfl
@[simp] theorem State.storeDetection_byte (s0 s1 : Size) (m0 m1 : ModeFlags) :
    (s.storeDetection s0 s1 m0 m1).byte = s.byte := rfl
@[simp] theorem State.storeDetection_byteV (s0 s1 : Size) (m0 m1 : ModeFlags) :
    (s.storeDetection s0 s1 m0 m1).byteV = s.byteV := rfl
@[simp] theorem State.storeDetection_size (s0 s1 : Size) (m0 m1 : ModeFlags) :
    (s.storeDetection s0 s1 m0 m1).size = ⟨s0, s1⟩ := rfl
@[simp] theorem State.storeDetection_sizeV (s0 s1 : Size) (m0 m1 : ModeFlags) :
    (s.storeDetection s0 s1 m0 m1).sizeV = ⟨true, true⟩ := rfl
@[simp] theorem State.storeDetection_mode (s0 s1 : Size) (m0 m1 : ModeFlags) :
    (s.storeDetection s0 s1 m0 m1).mode = ⟨m0, m1⟩ := rfl
@[simp] theorem State.storeDetection_modeV (s0 s1 : Size) (m0 m1 : ModeFlags) :
    (s.storeDetection s0 s1 m0 m1).modeV = ⟨true, true⟩ := rfl
@[simp] theorem State.storeDetection_format (s0 s1 : Size) (m0 m1 : ModeFlags) :
    (s.storeDetection s0 s1 m0 m1).format = s.format := rfl
@[simp] theorem State.storeDetection_work (s0 s1 : Size) (m0 m1 : ModeFlags) :
    (s.storeDetection s0 s1 m0 m1).work = s.work := rfl
@[simp] theorem State.storeDetection_op (s0 s1 : Size) (m0 m1 : ModeFlags) :
    (s.storeDetection s0 s1 m0 m1).op = s.op := rfl
@[simp] theorem State.storeDetection_ph (s0 s1 : Size) (m0 m1 : ModeFlags) :
    (s.storeDetection s0 s1 m0 m1).ph = s.ph := rfl
@[simp] theorem State.storeDetection_tmr (s0 s1 : Size) (m0 m1 : ModeFlags) :
    (s.storeDetection s0 s1 m0 m1).tmr = s.tmr := rfl
@[simp] theorem State.storeDetection_stack (s0 s1 : Size) (m0 m1 : ModeFlags) :
    (s.storeDetection s0 s1 m0 m1).stack = s.stack := rfl
@[simp] theorem State.storeDetection_ret (s0 s1 : Size) (m0 m1 : ModeFlags) :
    (s.storeDetection s0 s1 m0 m1).ret = s.ret := rfl
@[simp] theorem State.storeDetection_req (s0 s1 : Size) (m0 m1 : ModeFlags) :
    (s.storeDetection s0 s1 m0 m1).req = s.req := rfl
@[simp] theorem State.storeDetection_busy (s0 s1 : Size) (m0 m1 : ModeFlags) :
    (s.storeDetection s0 s1 m0 m1).busy = s.busy := rfl
@[simp] theorem State.storeDetection_result (s0 s1 : Size) (m0 m1 : ModeFlags) :
    (s.storeDetection s0 s1 m0 m1).result = s.result := rfl
@[simp] theorem State.storeDetection_resultV (s0 s1 : Size) (m0 m1 : ModeFlags) :
    (s.storeDetection s0 s1 m0 m1).resultV = s.resultV := rfl
@[simp] theorem State.storeDetection_out (s0 s1 : Size) (m0 m1 : ModeFlags) :
    (s.storeDetection s0 s1 m0 m1).out = s.out := rfl
@[simp] theorem State.storeDetection_cart (s0 s1 : Size) (m0 m1 : ModeFlags) :
    (s.storeDetection s0 s1 m0 m1).cart = s.cart := rfl
@[simp] theorem State.storeDetection_params (s0 s1 : Size) (m0 m1 : ModeFlags) :
    (s.storeDetection s0 s1 m0 m1).params = s.params := rfl
@[simp] theorem State.storeDetection_env (s0 s1 : Size) (m0 m1 : ModeFlags) :
    (s.storeDetection s0 s1 m0 m1).env = s.env := rfl
@[simp] theorem State.storeDetection_cmdInput (s0 s1 : Size) (m0 m1 : ModeFlags) :
    (s.storeDetection s0 s1 m0 m1).cmdInput = s.cmdInput := rfl
@[simp] theorem State.storeDetection_cmdLive (s0 s1 : Size) (m0 m1 : ModeFlags) :
    (s.storeDetection s0 s1 m0 m1).cmdLive = s.cmdLive := rfl
@[simp] theorem State.storeDetection_autoRun (s0 s1 : Size) (m0 m1 : ModeFlags) :
    (s.storeDetection s0 s1 m0 m1).autoRun = s.autoRun := rfl
@[simp] theorem State.storeDetection_freeN (s0 s1 : Size) (m0 m1 : ModeFlags) :
    (s.storeDetection s0 s1 m0 m1).freeN = s.freeN := rfl

@[simp] theorem State.accept_lines (op : Op) (frames : List Frame) : (s.accept op frames).lines = s.lines := rfl
@[simp] theorem State.accept_driven (op : Op) (frames : List Frame) : (s.accept op frames).driven = s.driven := rfl
@[simp] theorem State.accept_byte (op : Op) (frames : List Frame) : (s.accept op frames).byte = s.byte := rfl
@[simp] theorem State.accept_byteV (op : Op) (frames : List Frame) : (s.accept op frames).byteV = s.byteV := rfl
@[simp] theorem State.accept_size (op : Op) (frames : List Frame) : (s.accept op frames).size = s.size := rfl
@[simp] theorem State.accept_sizeV (op : Op) (frames : List Frame) : (s.accept op frames).sizeV = s.sizeV := rfl
@[simp] theorem State.accept_mode (op : Op) (frames : List Frame) : (s.accept op frames).mode = s.mode := rfl
@[simp] theorem State.accept_modeV (op : Op) (frames : List Frame) : (s.accept op frames).modeV = s.modeV := rfl
@[simp] theorem State.accept_format (op : Op) (frames : List Frame) : (s.accept op frames).format = s.format := rfl
@[simp] theorem State.accept_work (op : Op) (frames : List Frame) : (s.accept op frames).work = s.work := rfl
@[simp] theorem State.accept_op (op : Op) (frames : List Frame) : (s.accept op frames).op = op := rfl
@[simp] theorem State.accept_ph (op : Op) (frames : List Frame) : (s.accept op frames).ph = none := rfl
@[simp] theorem State.accept_tmr (op : Op) (frames : List Frame) : (s.accept op frames).tmr = s.tmr := rfl
@[simp] theorem State.accept_stack (op : Op) (frames : List Frame) : (s.accept op frames).stack = frames := rfl
@[simp] theorem State.accept_ret (op : Op) (frames : List Frame) : (s.accept op frames).ret = none := rfl
@[simp] theorem State.accept_req (op : Op) (frames : List Frame) : (s.accept op frames).req = s.req := rfl
@[simp] theorem State.accept_busy (op : Op) (frames : List Frame) : (s.accept op frames).busy = true := rfl
@[simp] theorem State.accept_result (op : Op) (frames : List Frame) : (s.accept op frames).result = s.result := rfl
@[simp] theorem State.accept_resultV (op : Op) (frames : List Frame) : (s.accept op frames).resultV = s.resultV := rfl
@[simp] theorem State.accept_out (op : Op) (frames : List Frame) : (s.accept op frames).out = s.out := rfl
@[simp] theorem State.accept_cart (op : Op) (frames : List Frame) : (s.accept op frames).cart = s.cart := rfl
@[simp] theorem State.accept_params (op : Op) (frames : List Frame) : (s.accept op frames).params = s.params := rfl
@[simp] theorem State.accept_env (op : Op) (frames : List Frame) : (s.accept op frames).env = s.env := rfl
@[simp] theorem State.accept_cmdInput (op : Op) (frames : List Frame) :
    (s.accept op frames).cmdInput = s.cmdInput := rfl
@[simp] theorem State.accept_cmdLive (op : Op) (frames : List Frame) : (s.accept op frames).cmdLive = s.cmdLive := rfl
@[simp] theorem State.accept_autoRun (op : Op) (frames : List Frame) : (s.accept op frames).autoRun = s.autoRun := rfl
@[simp] theorem State.accept_freeN (op : Op) (frames : List Frame) : (s.accept op frames).freeN = s.freeN := rfl

@[simp] theorem State.finish_lines (r : Size) (valid : Bool) (used : Nat) :
    (s.finish r valid used).lines = s.lines := rfl
@[simp] theorem State.finish_driven (r : Size) (valid : Bool) (used : Nat) :
    (s.finish r valid used).driven = s.driven := rfl
@[simp] theorem State.finish_byte (r : Size) (valid : Bool) (used : Nat) : (s.finish r valid used).byte = s.byte := rfl
@[simp] theorem State.finish_byteV (r : Size) (valid : Bool) (used : Nat) :
    (s.finish r valid used).byteV = s.byteV := rfl
@[simp] theorem State.finish_size (r : Size) (valid : Bool) (used : Nat) : (s.finish r valid used).size = s.size := rfl
@[simp] theorem State.finish_sizeV (r : Size) (valid : Bool) (used : Nat) :
    (s.finish r valid used).sizeV = s.sizeV := rfl
@[simp] theorem State.finish_mode (r : Size) (valid : Bool) (used : Nat) : (s.finish r valid used).mode = s.mode := rfl
@[simp] theorem State.finish_modeV (r : Size) (valid : Bool) (used : Nat) :
    (s.finish r valid used).modeV = s.modeV := rfl
@[simp] theorem State.finish_format (r : Size) (valid : Bool) (used : Nat) :
    (s.finish r valid used).format = s.format := rfl
@[simp] theorem State.finish_work (r : Size) (valid : Bool) (used : Nat) : (s.finish r valid used).work = s.work := rfl
@[simp] theorem State.finish_op (r : Size) (valid : Bool) (used : Nat) : (s.finish r valid used).op = .idle := rfl
@[simp] theorem State.finish_ph (r : Size) (valid : Bool) (used : Nat) : (s.finish r valid used).ph = s.ph := rfl
@[simp] theorem State.finish_tmr (r : Size) (valid : Bool) (used : Nat) : (s.finish r valid used).tmr = s.tmr := rfl
@[simp] theorem State.finish_stack (r : Size) (valid : Bool) (used : Nat) :
    (s.finish r valid used).stack = s.stack := rfl
@[simp] theorem State.finish_ret (r : Size) (valid : Bool) (used : Nat) : (s.finish r valid used).ret = none := rfl
@[simp] theorem State.finish_req (r : Size) (valid : Bool) (used : Nat) : (s.finish r valid used).req = s.req := rfl
@[simp] theorem State.finish_busy (r : Size) (valid : Bool) (used : Nat) : (s.finish r valid used).busy = false := rfl
@[simp] theorem State.finish_result (r : Size) (valid : Bool) (used : Nat) : (s.finish r valid used).result = r := rfl
@[simp] theorem State.finish_resultV (r : Size) (valid : Bool) (used : Nat) :
    (s.finish r valid used).resultV = valid := rfl
@[simp] theorem State.finish_out (r : Size) (valid : Bool) (used : Nat) : (s.finish r valid used).out = s.out := rfl
@[simp] theorem State.finish_cart (r : Size) (valid : Bool) (used : Nat) : (s.finish r valid used).cart = s.cart := rfl
@[simp] theorem State.finish_params (r : Size) (valid : Bool) (used : Nat) :
    (s.finish r valid used).params = s.params := rfl
@[simp] theorem State.finish_env (r : Size) (valid : Bool) (used : Nat) : (s.finish r valid used).env = s.env := rfl
@[simp] theorem State.finish_cmdInput (r : Size) (valid : Bool) (used : Nat) :
    (s.finish r valid used).cmdInput = s.cmdInput := rfl
@[simp] theorem State.finish_cmdLive (r : Size) (valid : Bool) (used : Nat) :
    (s.finish r valid used).cmdLive = s.cmdLive := rfl
@[simp] theorem State.finish_autoRun (r : Size) (valid : Bool) (used : Nat) :
    (s.finish r valid used).autoRun = s.autoRun := rfl
@[simp] theorem State.finish_freeN (r : Size) (valid : Bool) (used : Nat) :
    (s.finish r valid used).freeN = s.freeN + used := rfl

/-- An indexed register reads back what was written to the same element, and keeps the other. -/
@[simp] theorem PerChip.get_set_same {α : Type} (p : PerChip α) (c : Chip) (v : α) : (p.set c v).get c = v := by
  cases c <;> rfl

theorem PerChip.get_set_other {α : Type} (p : PerChip α) (c d : Chip) (v : α) (h : d ≠ c) :
    (p.set c v).get d = p.get d := by
  cases c <;> cases d <;> first | rfl | exact absurd rfl h

@[simp] theorem PerChip.set_set {α : Type} (p : PerChip α) (c : Chip) (v w : α) : (p.set c v).set c w = p.set c w := by
  cases c <;> rfl

end Sys2Proof.Machine
end

