-- ==== Sys2Proof/Laws/Run.lean ====
section
/-! SUPPORT. What a step does when no input is pending, and how runs compose. -/

namespace Sys2Proof.Machine

theorem Runs.trans {s t u : State} {l m : List BusRead} (h : Runs s l t) (k : Runs t m u) : Runs s (l ++ m) u := by
  induction h with
  | refl => simpa using k
  | step busy next _ ih => rw [List.append_assoc]; exact .step busy next (ih k)

theorem busReads_of_ne {s : State} (h : s.ph ≠ some .rb8) : busReads s = [] := by
  simp [busReads, h]

/-- A step that samples nothing. -/
theorem Runs.silent {s t u : State} {l : List BusRead} (busy : s.busy = true) (noSample : s.ph ≠ some .rb8)
    (next : Machine.step s = .next t) (after : Runs t l u) : Runs s l u := by
  simpa [busReads_of_ne noSample] using Runs.step busy next after

theorem awaitsCommand_of_phase {s : State} {p : Phase} (h : s.ph = some p) : s.awaitsCommand = false := by
  simp [State.awaitsCommand, h]

theorem awaitsCommand_of_frame {s : State} {f : Frame} {rest : List Frame} (h : s.stack = f :: rest)
    (hf : f ≠ .commandLoop) : s.awaitsCommand = false := by
  simp [State.awaitsCommand, h, hf]

theorem awaitsCommand_of_empty {s : State} (h : s.stack = []) : s.awaitsCommand = false := by
  simp [State.awaitsCommand, h]

/-- With no input pending and no command to dispatch, the operation in progress goes on. -/
theorem step_advance {s : State} (quiet : Quiet s) (busy : s.busy = true) (loop : s.awaitsCommand = false) :
    step s = .next (advance true s) := by
  simp only [Quiet] at quiet
  simp [step, fetch, quiet, fetchOwn, loop, State.startsUp, busy]

/-- A phase runs. -/
theorem step_phase {s : State} {p : Phase} (quiet : Quiet s) (busy : s.busy = true) (h : s.ph = some p) :
    step s = .next (phaseStep p s) := by
  rw [step_advance quiet busy (awaitsCommand_of_phase h)]
  simp [advance, busy, h]

/-- A control point is taken. -/
theorem step_frame {s : State} {f : Frame} {rest : List Frame} (quiet : Quiet s) (busy : s.busy = true)
    (h : s.ph = none) (hs : s.stack = f :: rest) (hf : f ≠ .commandLoop) :
    step s = .next (frameStep true f rest s) := by
  rw [step_advance quiet busy (awaitsCommand_of_frame hs hf)]
  simp [advance, busy, h, controlStep, hs]

/-- The operation that was accepted ends. -/
theorem step_complete {s : State} (quiet : Quiet s) (busy : s.busy = true) (h : s.ph = none) (hs : s.stack = []) :
    step s = .next (complete s) := by
  rw [step_advance quiet busy (awaitsCommand_of_empty hs)]
  simp [advance, busy, h, controlStep, hs]

theorem Runs.phase {s u : State} {p : Phase} {l : List BusRead} (quiet : Quiet s) (busy : s.busy = true)
    (h : s.ph = some p) (hp : p ≠ .rb8) (after : Runs (phaseStep p s) l u) : Runs s l u :=
  .silent busy (by simp [h, hp]) (step_phase quiet busy h) after

/-- The sample: the cartridge sees one read, the lines', if they select a chip. -/
theorem Runs.sample {s u : State} {l r : List BusRead} (quiet : Quiet s) (busy : s.busy = true)
    (h : s.ph = some .rb8) (hr : busReads s ++ l = r) (after : Runs (phaseStep .rb8 s) l u) : Runs s r u :=
  hr ▸ .step busy (step_phase quiet busy h) after

theorem Runs.frame {s u : State} {f : Frame} {rest : List Frame} {l : List BusRead} (quiet : Quiet s)
    (busy : s.busy = true) (h : s.ph = none) (hs : s.stack = f :: rest) (hf : f ≠ .commandLoop)
    (after : Runs (frameStep true f rest s) l u) : Runs s l u :=
  .silent busy (by simp [h]) (step_frame quiet busy h hs hf) after

/-- A run is determined by its start and its end point as long as the end is not busy. -/
theorem Runs.det_done {s u : State} {l : List BusRead} (h : Runs s l u) (hu : u.busy = false) :
    ∀ {m : List BusRead} {v : State}, Runs s m v → v.busy = false → l = m ∧ u = v := by
  induction h with
  | refl s =>
    intro m v k hv
    cases k with
    | refl => exact ⟨rfl, rfl⟩
    | step busy _ _ => rw [hu] at busy; cases busy
  | step busy next _ ih =>
    intro m v k hv
    cases k with
    | refl => rw [hv] at busy; cases busy
    | step _ next' after' =>
      rw [next] at next'
      cases next'
      obtain ⟨rfl, rfl⟩ := ih hu after' hv
      exact ⟨rfl, rfl⟩

/-- An operation completes in at most one way. -/
theorem Completes.unique {s u v : State} {l m : List BusRead} (h : Completes s l u) (k : Completes s m v) :
    l = m ∧ u = v := h.1.det_done h.2 k.1 k.2

/-- Of two runs from one state, one goes on from the other's end. -/
theorem Runs.comparable {s t : State} {l : List BusRead} (h : Runs s l t) :
    ∀ {m : List BusRead} {u : State}, Runs s m u → (∃ r, Runs t r u) ∨ (∃ r, Runs u r t) := by
  induction h with
  | refl => intro m u k; exact .inl ⟨m, k⟩
  | step busy next after ih =>
    intro m u k
    cases k with
    | refl => exact .inr ⟨_, .step busy next after⟩
    | step _ next' after' =>
      rw [next] at next'
      cases next'
      exact ih after'

/-- A run with its number of steps. -/
inductive RunsIn : Nat → State → List BusRead → State → Prop
  | refl (s : State) : RunsIn 0 s [] s
  | step {n : Nat} {s t u : State} {reads : List BusRead} (busy : s.busy = true) (next : Machine.step s = .next t)
      (after : RunsIn n t reads u) : RunsIn (n + 1) s (busReads s ++ reads) u

theorem Runs.runsIn {s u : State} {l : List BusRead} (h : Runs s l u) : ∃ n, RunsIn n s l u := by
  induction h with
  | refl s => exact ⟨0, .refl s⟩
  | step busy next _ ih => obtain ⟨n, ih⟩ := ih; exact ⟨n + 1, .step busy next ih⟩

theorem RunsIn.reads_of_zero {s u : State} {l : List BusRead} (h : RunsIn 0 s l u) : l = [] := by
  cases h; rfl

/-- The state a run reaches after more steps lies on the way of a longer run, or beyond its end. -/
theorem RunsIn.compare {n : Nat} {s t : State} {l : List BusRead} (h : RunsIn n s l t) :
    ∀ {k : Nat} {m : List BusRead} {u : State}, RunsIn k s m u →
      (n ≤ k ∧ ∃ r, RunsIn (k - n) t r u) ∨ (u.busy = true ∧ ∃ v, Machine.step u = .next v) := by
  induction h with
  | refl => intro k m u hk; exact .inl ⟨Nat.zero_le _, m, hk⟩
  | step busy next after ih =>
    intro k m u hk
    cases hk with
    | refl => exact .inr ⟨busy, _, next⟩
    | step _ next' after' =>
      rw [next] at next'
      cases next'
      rcases ih after' with ⟨hle, r, hr⟩ | h
      · exact .inl ⟨by omega, r, by rwa [Nat.add_sub_add_right]⟩
      · exact .inr h

/-- An operation that keeps coming back to states of one kind, by at least one step each time, never completes. -/
theorem neverCompletes_of_recurrence {P : State → Prop}
    (h : ∀ s, P s → ∃ n l t, RunsIn (n + 1) s l t ∧ P t) {s : State} (hs : P s) : NeverCompletes s := by
  have main : ∀ k s, P s → ∀ m u, RunsIn k s m u → u.busy = true ∧ ∃ v, Machine.step u = .next v := by
    intro k
    induction k using Nat.strongRecOn with
    | ind k ih =>
      intro s hs m u hu
      obtain ⟨n, l, t, ht, hP⟩ := h s hs
      rcases ht.compare hu with ⟨hle, r, hr⟩ | hbusy
      · exact ih (k - (n + 1)) (by omega) t hP r u hr
      · exact hbusy
  intro reads u hu
  obtain ⟨k, hk⟩ := hu.runsIn
  exact main k s hs reads u hk

/-- An operation that leads to one that never completes never completes. -/
theorem NeverCompletes.of_runs {s t : State} {l : List BusRead} (h : Runs s l t) (ht : NeverCompletes t) :
    NeverCompletes s := by
  intro m u hu
  rcases h.comparable hu with ⟨r, hr⟩ | ⟨r, hr⟩
  · exact ht r u hr
  · cases hr with
    | refl => exact ht [] _ (.refl _)
    | step busy next _ => exact ⟨busy, _, next⟩

/-- An operation that completes does not run for ever. -/
theorem NeverCompletes.not_completes {s u : State} {l : List BusRead} (h : NeverCompletes s) : ¬ Completes s l u :=
  fun k => by
    have := (h l u k.1).1
    rw [k.2] at this
    cases this

end Sys2Proof.Machine
end

