-- ==== Sys2Proof/Laws/Bus.lean ====
section
/-! SUPPORT. The read cycle as a whole: thirteen phases present the operands to the cartridge and return its byte
(40_bus_read_cycle.md R122 to R128). -/

namespace Sys2Proof.Machine

/-- An operation is in progress, the lines are driven and idle, and no input is pending: where a read cycle, or a
control point of the pseudocode, can begin. -/
structure Going (s : State) : Prop where
  busy : s.busy = true
  driven : s.driven = true
  lines : s.lines = Lines.idleAt s.lines.addr
  quiet : Quiet s

/-- The state after the read cycle whose operands are latched: the lines are idle again at the address read, BYTE is
the cartridge's byte, and `readByte` has returned it. -/
def afterRead (s : State) : State :=
  { s with
    lines := Lines.idleAt s.work.rAddr
    tmr := .elapsed
    byte := dev s.cart s.work.rChip s.work.rBankA s.work.rBankB s.work.rAddr
    byteV := true
    ph := none
    ret := some ((dev s.cart s.work.rChip s.work.rBankA s.work.rBankB s.work.rAddr).setWidth 17) }

/-- The read that the latched operands ask for. -/
def latchedRead (w : Work) : BusRead := ⟨w.rChip, w.rBankA, w.rBankB, w.rAddr⟩

/-- The read cycle (R122): from RB1 on idle lines the thirteen phases run, sampling once. -/
theorem readCycle_runs {s : State} (g : Going s) (h : s.ph = some .rb1) :
    Runs s [latchedRead s.work] (afterRead s) := by
  obtain ⟨busy, driven, lines, quiet⟩ := g
  obtain ⟨⟨addr, bankA, bankB, ceN, oeN, weN, latchN, clk, rst⟩, drv, byte, byteV, size, sizeV, mode, modeV, format,
    ⟨sizeW, probe, bs, idx, first, base, fa, fb, b, actr, rChip, rBankA, rBankB, rAddr⟩, op, ph, tmr, stack, ret, req,
    busyBit, result, resultV, out, cart, params, env, cmdInput, cmdLive, autoRun, freeN⟩ := s
  simp only at busy driven h
  simp only [Quiet] at quiet
  simp only [Lines.idleAt, Lines.mk.injEq] at lines
  obtain ⟨-, rfl, rfl, rfl, rfl, rfl, rfl, rfl, rfl⟩ := lines
  subst busy driven h quiet
  cases rChip <;>
  · refine .phase rfl rfl rfl (by decide) ?_
    refine .phase rfl rfl rfl (by decide) ?_
    refine .phase rfl rfl rfl (by decide) ?_
    refine .phase rfl rfl rfl (by decide) ?_
    refine .phase rfl rfl rfl (by decide) ?_
    refine .phase rfl rfl rfl (by decide) ?_
    refine .phase rfl rfl rfl (by decide) ?_
    refine .sample (l := []) rfl rfl rfl rfl ?_
    refine .phase rfl rfl rfl (by decide) ?_
    refine .phase rfl rfl rfl (by decide) ?_
    refine .phase rfl rfl rfl (by decide) ?_
    refine .phase rfl rfl rfl (by decide) ?_
    refine .phase rfl rfl rfl (by decide) ?_
    exact .refl _

/-- What read cycles leave behind besides their operand latches. -/
structure ReadEffect where
  addr : Addr
  tmr : Timer
  byte : Byte
  byteV : Bool

/-- The state when a part of the pseudocode that only reads has returned `v` to the control points `rest`: the lines
idle, the read effects `x`, the working registers `w`, everything else as before. -/
def State.readsDone (s : State) (x : ReadEffect) (w : Work) (rest : List Frame) (v : Option Size) : State :=
  { s with
    lines := Lines.idleAt x.addr
    tmr := x.tmr
    byte := x.byte
    byteV := x.byteV
    work := w
    ph := none
    stack := rest
    ret := v }

theorem State.readsDone_readsDone (s : State) (x y : ReadEffect) (w z : Work) (r q : List Frame) (v u : Option Size) :
    (s.readsDone x w r v).readsDone y z q u = s.readsDone y z q u := rfl

theorem Going.readsDone {s : State} (g : Going s) (x : ReadEffect) (w : Work) (rest : List Frame) (v : Option Size) :
    Going (s.readsDone x w rest v) := ⟨g.busy, g.driven, rfl, g.quiet⟩

/-- A state in which no phase runs and the lines are idle is its own `readsDone`. -/
theorem Going.eq_readsDone {s : State} (g : Going s) (h : s.ph = none) :
    s = s.readsDone ⟨s.lines.addr, s.tmr, s.byte, s.byteV⟩ s.work s.stack s.ret := by
  have hl := g.lines
  obtain ⟨lines, drv, byte, byteV, size, sizeV, mode, modeV, format, work, op, ph, tmr, stack, ret, req, busyBit,
    result, resultV, out, cart, params, env, cmdInput, cmdLive, autoRun, freeN⟩ := s
  simp only at h hl
  simp only [State.readsDone]
  rw [← hl, h]

/-- The operand latches set to the operands of a read (R29). -/
def Work.latch (w : Work) (r : BusRead) : Work :=
  { w with rChip := r.chip, rBankA := r.bankA, rBankB := r.bankB, rAddr := r.addr }

/-- The byte a read returns. -/
def BusRead.byte (r : BusRead) (cart : List Host.Cell) : Byte := dev cart r.chip r.bankA r.bankB r.addr

/-- The effect of one read. -/
def BusRead.effect (r : BusRead) (cart : List Host.Cell) : ReadEffect := ⟨r.addr, .elapsed, r.byte cart, true⟩

/-- `readByte` as called by the pseudocode: one read, whose byte is in BYTE when the next control point is taken. -/
theorem startRead_runs {s : State} (g : Going s) (r : BusRead) (rest : List Frame) :
    Runs (startRead r.chip r.bankA r.bankB r.addr rest s) [r]
      (s.readsDone (r.effect s.cart) (s.work.latch r) rest (some ((r.byte s.cart).setWidth 17))) :=
  readCycle_runs (s := startRead r.chip r.bankA r.bankB r.addr rest s) ⟨g.busy, g.driven, g.lines, g.quiet⟩ rfl

end Sys2Proof.Machine
end

