-- ==== Sys2Proof/Laws/Control.lean ====
section
/-! SUPPORT. Everything a control point, a phase, an accepted instruction and a step can do, each said once. -/

namespace Sys2Proof.Machine

/-- What every control point leaves alone, and the two things it can do with the read cycle: begin none, the operand
latches as they are, or begin one (10_state.md R30). -/
structure ControlEffect (s t : State) : Prop where
  lines : t.lines = s.lines
  driven : t.driven = s.driven
  byte : t.byte = s.byte
  byteV : t.byteV = s.byteV
  format : t.format = s.format
  op : t.op = s.op
  tmr : t.tmr = s.tmr
  req : t.req = s.req
  busy : t.busy = s.busy
  result : t.result = s.result
  resultV : t.resultV = s.resultV
  cart : t.cart = s.cart
  params : t.params = s.params
  env : t.env = s.env
  cmdInput : t.cmdInput = s.cmdInput
  cmdLive : t.cmdLive = s.cmdLive
  autoRun : t.autoRun = s.autoRun
  freeN : t.freeN = s.freeN
  reads : (t.ph = s.ph ∧ t.work.rChip = s.work.rChip ∧ t.work.rBankA = s.work.rBankA ∧ t.work.rBankB = s.work.rBankB
      ∧ t.work.rAddr = s.work.rAddr)
    ∨ (t.ph = some .rb1 ∧ t.out = s.out ∧ t.size = s.size ∧ t.sizeV = s.sizeV ∧ t.mode = s.mode ∧ t.modeV = s.modeV)

theorem frameStep_effect (ready : Bool) (f : Frame) (rest : List Frame) (s : State) :
    ControlEffect s (frameStep ready f rest s) := by
  cases f <;> simp only [frameStep, compareHead, compareFirst, compareSecond, compareNext, startCompare, sizeLoop,
    sizeTest, startGetSize, probeStart, probeBase, probeA, probeB, startProbe, detectStart, detectRomSized,
    detectRamSized, detectRomProbed, detectRamProbed, startDetect, dumpBank, dumpAddr, dumpByte, dumpEmitted, nextBank,
    emitStep, runBroughtUp, runDetected, commandLoop, returnTo, startRead] <;> (try split) <;> (try split) <;>
    constructor <;> simp

/-- OUT and the detection results through a control point: OUT grows only by an emission, and only the last control
point of DETECT stores results (R33, R174). -/
theorem frameStep_outputs (ready : Bool) (f : Frame) (rest : List Frame) (s : State) :
    ((frameStep ready f rest s).out = s.out
      ∨ ∃ v vs, f = .emit (v :: vs) ∧ (frameStep ready f rest s).out = s.out ++ [v])
    ∧ (((frameStep ready f rest s).size = s.size ∧ (frameStep ready f rest s).sizeV = s.sizeV
        ∧ (frameStep ready f rest s).mode = s.mode ∧ (frameStep ready f rest s).modeV = s.modeV)
      ∨ ∃ s0 s1 m0, f = .detectRamProbed s0 s1 m0) := by
  cases f <;> simp only [frameStep, compareHead, compareFirst, compareSecond, compareNext, startCompare, sizeLoop,
    sizeTest, startGetSize, probeStart, probeBase, probeA, probeB, startProbe, detectStart, detectRomSized,
    detectRamSized, detectRomProbed, detectRamProbed, startDetect, dumpBank, dumpAddr, dumpByte, dumpEmitted, nextBank,
    emitStep, runBroughtUp, runDetected, commandLoop, returnTo, startRead] <;> (try split) <;> (try split) <;> simp

/-- What every phase leaves alone (R121 to R127). -/
structure PhaseEffect (p : Phase) (s t : State) : Prop where
  driven : p ≠ .bu2 → t.driven = s.driven
  byte : p ≠ .rb8 → t.byte = s.byte ∧ t.byteV = s.byteV ∧ t.freeN = s.freeN
  size : t.size = s.size
  sizeV : t.sizeV = s.sizeV
  mode : t.mode = s.mode
  modeV : t.modeV = s.modeV
  format : t.format = s.format
  work : t.work = s.work
  op : t.op = s.op
  stack : t.stack = s.stack
  req : t.req = s.req
  busy : t.busy = s.busy
  result : t.result = s.result
  resultV : t.resultV = s.resultV
  out : t.out = s.out
  cart : t.cart = s.cart
  params : t.params = s.params
  env : t.env = s.env
  cmdInput : t.cmdInput = s.cmdInput
  cmdLive : t.cmdLive = s.cmdLive
  autoRun : t.autoRun = s.autoRun

theorem phaseStep_effect (p : Phase) (s : State) : PhaseEffect p s (phaseStep p s) := by
  cases p <;> simp only [phaseStep, holdReset, configureLines, waitReset, releaseReset, assertAddress, assertBanks,
    assertChip, assertOutput, openLatch, raiseClock, holdLines, sampleData, releaseBanks, releaseChip, releaseOutput,
    closeLatch, dropClock] <;> (try split) <;> constructor <;> simp

/-- An instruction that exec lets run, the state it runs at and the next state (R31; log entry 2). -/
inductive Accepted : Instr → State → State → Prop
  /-- Nothing to do. -/
  | same {i : Instr} {s : State} (h : s.busy = false ∨ s.awaitsCommand = true) : Accepted i s s
  | format {s : State} {i : Instr} (f : Format) (h : s.busy = false ∨ s.awaitsCommand = true)
      (hi : (i = .cmdH ∧ f = .hex) ∨ (i = .cmdB ∧ f = .binary)) : Accepted i s (s.setFormat f)
  | bringup {s : State} (idle : s.busy = false) (driven : s.driven = false) :
      Accepted .bringup s (startBringup [] (s.accept .bringup []))
  | run {s : State} (idle : s.busy = false) (atPowerOn : s.atPowerOn = true) :
      Accepted .run s (startBringup [.runBroughtUp] ((s.accept .run []).setFormat .binary))
  | readByte {s : State} {chip : Chip} {bankA bankB : Bool} {address : Addr} (idle : s.busy = false)
      (driven : s.driven = true) (lines : s.lines.isIdle = true) :
      Accepted (.readByte chip bankA bankB address) s (startRead chip bankA bankB address [] (s.accept .readByte []))
  | compareBlock {s : State} {chip : Chip} {blockSize : Size} (idle : s.busy = false) (driven : s.driven = true)
      (domain : sizeInDomain blockSize = true) :
      Accepted (.compareBlock chip blockSize) s (startCompare chip blockSize [] (s.accept .compareBlock []))
  | getSize {s : State} {chip : Chip} (idle : s.busy = false) (driven : s.driven = true) :
      Accepted (.getSize chip) s (startGetSize chip [] (s.accept .getSize []))
  | probeMode {s : State} {chip : Chip} (idle : s.busy = false) (driven : s.driven = true) :
      Accepted (.probeMode chip) s (startProbe chip [] (s.accept .probeMode []))
  | detect {s : State} (idle : s.busy = false) (driven : s.driven = true) (nothing : s.nothingDetected = true) :
      Accepted .detect s (startDetect [] (s.accept .detect []))
  | dump {s : State} {d : DumpArgs} (idle : s.busy = false) (driven : s.driven = true)
      (domain : sizeInDomain d.size = true) :
      Accepted (.dump d.chip d.affectsA d.affectsB d.size d.format) s (startDump d [] (s.accept .dump []))
  | command {s : State} {i : Instr} {op : Op} {chip : Chip} (hi : (i = .cmdO ∧ op = .cmdO) ∨ (i = .cmdA ∧ op = .cmdA))
      (idle : s.busy = false) (driven : s.driven = true) (detected : s.sizeV.get chip = true ∧ s.modeV.get chip = true)
      (domain : sizeInDomain (s.size.get chip) = true) :
      Accepted i s (startDump (commandDump s chip) [] (s.accept op []))
  | commandInLoop {s : State} {i : Instr} {chip : Chip} (hi : i = .cmdO ∨ i = .cmdA)
      (busy : s.busy = true) (loop : s.awaitsCommand = true) (driven : s.driven = true)
      (detected : s.sizeV.get chip = true ∧ s.modeV.get chip = true)
      (domain : sizeInDomain (s.size.get chip) = true) :
      Accepted i s (startDump (commandDump s chip) s.stack s)

theorem noEffect_next {s t : State} (h : noEffect s = .next t) : s.busy = false ∧ t = s := by
  unfold noEffect whenIdle at h
  split at h
  · cases h
  · next hb => cases h; exact ⟨by simpa using hb, rfl⟩

theorem whenDispatching_next {s t : State} {k : Result} (h : whenDispatching s k = .next t) :
    (s.busy = false ∨ s.awaitsCommand = true) ∧ k = .next t := by
  unfold whenDispatching at h
  split at h
  · cases h
  · next hb =>
    refine ⟨?_, h⟩
    cases hbusy : s.busy <;> cases ha : s.awaitsCommand <;> simp_all

theorem dumpCommand_next {i : Instr} {op : Op} {chip : Chip} {s t : State}
    (hi : (i = .cmdO ∧ op = .cmdO) ∨ (i = .cmdA ∧ op = .cmdA)) (h : dumpCommand op chip s = .next t) :
    Accepted i s t := by
  obtain ⟨hd, h⟩ := whenDispatching_next h
  unfold whenDriven at h
  split at h
  case isFalse => cases h
  next driven =>
  unfold whenDetected at h
  split at h
  case isFalse => cases h
  next detected =>
  unfold whenInDomain at h
  split at h
  case isFalse => cases h
  next domain =>
  simp only [Bool.and_eq_true] at detected
  cases h
  unfold enterCommandDump
  split
  · next busy =>
    exact .commandInLoop (hi.imp And.left And.left) busy (hd.resolve_left (by simp [busy])) driven detected domain
  · next idle => exact .command hi (by simpa using idle) driven detected domain

/-- Inversion of exec. -/
theorem exec_next {i : Instr} {s t : State} (h : exec i s = .next t) : Accepted i s t := by
  have idleOf : ∀ {k : Result}, whenIdle s k = .next t → s.busy = false ∧ k = .next t := by
    intro k hk
    unfold whenIdle at hk
    split at hk
    · cases hk
    · next hb => exact ⟨by simpa using hb, hk⟩
  have drivenOf : ∀ {k : Result}, whenDriven s k = .next t → s.driven = true ∧ k = .next t := by
    intro k hk
    unfold whenDriven at hk
    split at hk
    · next hd => exact ⟨hd, hk⟩
    · cases hk
  have domainOf : ∀ {n : Size} {k : Result}, whenInDomain n k = .next t → sizeInDomain n = true ∧ k = .next t := by
    intro n k hk
    unfold whenInDomain at hk
    split at hk
    · next hd => exact ⟨hd, hk⟩
    · cases hk
  have noOp : noEffect s = .next t → Accepted i s t := fun hk => by
    obtain ⟨hb, rfl⟩ := noEffect_next hk
    exact .same (.inl hb)
  cases i with
  | nop => exact noOp h
  | reserved9 => exact noOp h
  | reservedA => exact noOp h
  | reservedB => exact noOp h
  | reservedC => exact noOp h
  | reservedD => exact noOp h
  | reservedE => exact noOp h
  | reservedF => exact noOp h
  | bringup =>
    obtain ⟨idle, h⟩ := idleOf h
    split at h
    · cases h
    · next hd => cases h; exact .bringup idle (by simpa using hd)
  | readByte chip bankA bankB address =>
    obtain ⟨idle, h⟩ := idleOf h
    obtain ⟨driven, h⟩ := drivenOf h
    split at h
    · next hl => cases h; exact .readByte idle driven hl
    · cases h
  | compareBlock chip blockSize =>
    obtain ⟨idle, h⟩ := idleOf h
    obtain ⟨driven, h⟩ := drivenOf h
    obtain ⟨domain, h⟩ := domainOf h
    cases h
    exact .compareBlock idle driven domain
  | getSize chip =>
    obtain ⟨idle, h⟩ := idleOf h
    obtain ⟨driven, h⟩ := drivenOf h
    cases h
    exact .getSize idle driven
  | probeMode chip =>
    obtain ⟨idle, h⟩ := idleOf h
    obtain ⟨driven, h⟩ := drivenOf h
    cases h
    exact .probeMode idle driven
  | detect =>
    obtain ⟨idle, h⟩ := idleOf h
    obtain ⟨driven, h⟩ := drivenOf h
    split at h
    · next hn => cases h; exact .detect idle driven hn
    · cases h
  | dump chip affectsA affectsB size format =>
    obtain ⟨idle, h⟩ := idleOf h
    obtain ⟨driven, h⟩ := drivenOf h
    obtain ⟨domain, h⟩ := domainOf h
    cases h
    exact .dump (d := ⟨chip, affectsA, affectsB, size, format⟩) idle driven domain
  | run =>
    obtain ⟨idle, h⟩ := idleOf h
    split at h
    · next hp => cases h; exact .run idle hp
    · cases h
  | cmdH =>
    obtain ⟨hd, h⟩ := whenDispatching_next h
    cases h
    exact .format .hex hd (.inl ⟨rfl, rfl⟩)
  | cmdB =>
    obtain ⟨hd, h⟩ := whenDispatching_next h
    cases h
    exact .format .binary hd (.inr ⟨rfl, rfl⟩)
  | cmdO => exact dumpCommand_next (.inl ⟨rfl, rfl⟩) h
  | cmdA => exact dumpCommand_next (.inr ⟨rfl, rfl⟩) h
  | cmdOther opcode =>
    obtain ⟨hd, h⟩ := whenDispatching_next h
    cases h
    exact .same hd

/-- What fetch changes on the way: the inputs it takes and REQ. -/
def State.fetched (s : State) (env : List Input) (req : ReqWord) (cmdInput : List Byte) : State :=
  { s with env := env, req := req, cmdInput := cmdInput }

/-- What fetch can lead to. -/
inductive FetchCase (s : State) : Fetched → Prop
  | instr (i : Instr) (env : List Input) (req : ReqWord) (cmdInput : List Byte)
      (loop : s.busy = true → s.awaitsCommand = true ∨ ∃ w, i = decodeRequest w) :
      FetchCase s (.instr i (s.fetched env req cmdInput))
  | advance (ready : Bool) (env : List Input) (cmdInput : List Byte)
      (blocked : s.awaitsCommand = true → cmdInput = []) :
      FetchCase s (.advance ready (s.fetched env s.req cmdInput))
  | reset (env : List Input) (h : s.env = .externalReset :: env) :
      FetchCase s (.reset (s.fetched env s.req s.cmdInput))
  | refused (r : Refusal) : FetchCase s (.refused r)

theorem fetchOwn_cases (ready : Bool) (s : State) (env : List Input) (cmdInput : List Byte) :
    FetchCase s (fetchOwn ready (s.fetched env s.req cmdInput)) := by
  unfold fetchOwn
  split
  · next ha =>
    have ha' : s.awaitsCommand = true := ha
    split
    · exact .instr _ env s.req _ (fun _ => .inl ha')
    · next hc => exact .advance ready env cmdInput (fun _ => hc)
  · next ha =>
    have ha' : s.awaitsCommand = false := by
      cases h : s.awaitsCommand
      · rfl
      · exact absurd h ha
    split
    · next hs =>
      refine .instr _ env s.req cmdInput (fun hb => ?_)
      simp only [State.startsUp, State.fetched, Bool.and_eq_true, Bool.not_eq_true'] at hs
      rw [hs.1.2] at hb
      cases hb
    · exact .advance ready env cmdInput (fun h => by rw [ha'] at h; cases h)

theorem fetch_cases (s : State) : FetchCase s (fetch s) := by
  unfold fetch
  split
  · next h => simpa [State.fetched, ← h] using fetchOwn_cases true s s.env s.cmdInput
  · exact fetchOwn_cases true s _ s.cmdInput
  · exact fetchOwn_cases false s _ s.cmdInput
  · exact fetchOwn_cases true s _ _
  · next w es h => exact .instr _ es w s.cmdInput (fun _ => .inr ⟨w, rfl⟩)
  · split
    · exact .refused _
    · next hb => exact .instr _ _ s.req s.cmdInput (fun h => absurd h hb)
  · next es h => exact .reset es h
  · exact .refused _

/-- Inversion of step: external reset lands, an instruction is accepted, or the operation in progress goes on. -/
theorem step_next {s t : State} (h : step s = .next t) :
    (∃ es, s.env = .externalReset :: es ∧ t = externalReset { s with env := es })
      ∨ (∃ i env req cmdInput, fetch s = .instr i (s.fetched env req cmdInput)
        ∧ Accepted i (s.fetched env req cmdInput) t)
      ∨ (∃ ready env cmdInput, fetch s = .advance ready (s.fetched env s.req cmdInput)
        ∧ (s.awaitsCommand = true → cmdInput = []) ∧ t = advance ready (s.fetched env s.req cmdInput)) := by
  unfold step at h
  have hc := fetch_cases s
  generalize hf : fetch s = f at h hc
  cases hc with
  | instr i env req cmdInput _ => exact .inr (.inl ⟨i, env, req, cmdInput, rfl, exec_next h⟩)
  | advance ready env cmdInput hb => cases h; exact .inr (.inr ⟨ready, env, cmdInput, rfl, hb, rfl⟩)
  | reset env he => cases h; exact .inl ⟨env, he, rfl⟩
  | refused r => cases h

end Sys2Proof.Machine
end

