-- ==== Sys2Proof/Laws/Detector.lean ====
section
/-! SUPPORT. The loops of the capacity detector as wholes (41_size_detector.md): what a comparison returns and reads,
and what GET_SIZE returns or that it never does. -/

namespace Sys2Proof.Machine

/-- The reads of `k` pairs from pair `i` on. -/
def pairReadsFrom (chip : Chip) (n i k : Nat) : List BusRead :=
  (List.range' i k).flatMap (fun j =>
    [⟨chip, false, false, BitVec.ofNat 16 j⟩, ⟨chip, false, false, BitVec.ofNat 16 (j + n)⟩])

theorem pairReads_eq (chip : Chip) (n k : Nat) : pairReads chip n k = pairReadsFrom chip n 0 k := by
  simp [pairReads, pairReadsFrom, List.range_eq_range']

theorem pairReadsFrom_succ (chip : Chip) (n i k : Nat) :
    pairReadsFrom chip n i (k + 1) =
      ⟨chip, false, false, BitVec.ofNat 16 i⟩ :: ⟨chip, false, false, BitVec.ofNat 16 (i + n)⟩
        :: pairReadsFrom chip n (i + 1) k := by
  simp [pairReadsFrom, List.range'_succ]

theorem addrOf_ofNat (i : Nat) : addrOf (BitVec.ofNat 17 i) = BitVec.ofNat 16 i := by
  apply BitVec.eq_of_toNat_eq
  simp [addrOf]

theorem pairAddr_ofNat (i n : Nat) : pairAddr (BitVec.ofNat 17 i) (BitVec.ofNat 17 n) = BitVec.ofNat 16 (i + n) := by
  rw [pairAddr, ← BitVec.ofNat_add, addrOf_ofNat]

theorem idx_succ {x : Size} {i : Nat} (h : x = BitVec.ofNat 17 i) : x + 1 = BitVec.ofNat 17 (i + 1) := by
  rw [h, BitVec.ofNat_add]; rfl

/-- The working registers that a comparison changes. -/
def Work.compared (w : Work) (idx : Size) (first : Byte) (r : BusRead) : Work :=
  ({ w with idx := idx, first := first }).latch r

/-- The two bytes of pair `j` are equal. -/
abbrev PairEqual (cart : List Host.Cell) (chip : Chip) (n j : Nat) : Prop :=
  plainByte cart chip j = plainByte cart chip (j + n)

/-- How many pairs a comparison reads from pair `i` on (R151): all of them, unless it stops early at the first unequal
one. -/
structure PairCount (early : Bool) (cart : List Host.Cell) (chip : Chip) (n i k : Nat) : Prop where
  all : (early = false ∨ ∀ j, i ≤ j → j < n → PairEqual cart chip n j) → i + k = n
  first : early = true → ∀ f, i ≤ f → f < n → ¬ PairEqual cart chip n f →
    (∀ j, i ≤ j → j < f → PairEqual cart chip n j) → i + k = f + 1

open Classical in
/-- The loop of COMPARE_BLOCK from pair `i` on (R150, R151). -/
theorem compareLoop_runs {chip : Chip} {n : Nat} (hn : n ≤ 65536) {rest : List Frame} :
    ∀ (m i : Nat) (seen : Bool) (s : State), Going s → s.ph = none → s.stack = .compareHead chip seen :: rest →
      s.work.bs = BitVec.ofNat 17 n → s.work.idx = BitVec.ofNat 17 i → i + m = n →
      ∃ x idx first r k,
        Runs s (pairReadsFrom chip n i k)
          (s.readsDone x (s.work.compared idx first r) rest
            (some (sizeOfBool (!seen && decide (∀ j, i ≤ j → j < n → PairEqual s.cart chip n j)))))
        ∧ PairCount s.params.compareEarlyExit s.cart chip n i k := by
  intro m
  induction m with
  | zero =>
    intro i seen s g hph hst hbs hidx him
    refine ⟨⟨s.lines.addr, s.tmr, s.byte, s.byteV⟩, s.work.idx, s.work.first, latchedRead s.work, 0, ?_, ?_⟩
    · refine .frame g.quiet g.busy hph hst (by simp) ?_
      have hlt : ¬ s.work.idx < s.work.bs := by rw [hbs, hidx, ← him]; simp
      have hall : ∀ j, i ≤ j → j < n → PairEqual s.cart chip n j := fun j _ _ => by omega
      have hdone : frameStep true (.compareHead chip seen) rest s =
          s.readsDone ⟨s.lines.addr, s.tmr, s.byte, s.byteV⟩
            (s.work.compared s.work.idx s.work.first (latchedRead s.work)) rest
            (some (sizeOfBool (!seen && decide (∀ j, i ≤ j → j < n → PairEqual s.cart chip n j)))) := by
        simp only [frameStep, compareHead, if_neg hlt, decide_eq_true hall, Bool.and_true, returnTo]
        conv => lhs; rw [g.eq_readsDone hph]
        rfl
      rw [hdone]
      exact .refl _
    · exact ⟨fun _ => by omega, fun _ f h1 h2 => by omega⟩
  | succ m ih =>
    intro i seen s g hph hst hbs hidx him
    have hlt : s.work.idx < s.work.bs := by
      rw [hbs, hidx, BitVec.lt_def]; simp only [BitVec.toNat_ofNat]; omega
    -- the two reads of pair `i`
    let r1 : BusRead := ⟨chip, false, false, BitVec.ofNat 16 i⟩
    let r2 : BusRead := ⟨chip, false, false, BitVec.ofNat 16 (i + n)⟩
    let s1 := s.readsDone (r1.effect s.cart) (s.work.latch r1) (.compareFirst chip seen :: rest)
      (some ((r1.byte s.cart).setWidth 17))
    let w2 : Work := { s.work.latch r1 with first := r1.byte s.cart }
    let s2 := s.readsDone (r2.effect s.cart) (w2.latch r2) (.compareSecond chip seen :: rest)
      (some ((r2.byte s.cart).setWidth 17))
    have run1 : Runs s [r1] s1 := by
      refine .frame g.quiet g.busy hph hst (by simp) ?_
      simp only [frameStep, compareHead, if_pos hlt]
      rw [hidx, addrOf_ofNat]
      exact startRead_runs g r1 _
    have g1 : Going s1 := g.readsDone _ _ _ _
    have run2 : Runs s1 [r2] s2 := by
      refine .frame g1.quiet g1.busy rfl rfl (by simp) ?_
      simp only [frameStep, compareFirst]
      have haddr : pairAddr s1.work.idx s1.work.bs = BitVec.ofNat 16 (i + n) := by
        rw [show s1.work.idx = BitVec.ofNat 17 i from hidx, show s1.work.bs = BitVec.ofNat 17 n from hbs, pairAddr_ofNat]
      rw [haddr]
      exact startRead_runs (s := s1.setWork w2) ⟨g1.busy, g1.driven, g1.lines, g1.quiet⟩ r2 _
    have run12 : Runs s [r1, r2] s2 := run1.trans run2
    have g2 : Going s2 := g.readsDone _ _ _ _
    have hb1 : s2.work.first = plainByte s.cart chip i := rfl
    have hb2 : s2.byte = plainByte s.cart chip (i + n) := rfl
    by_cases heq : PairEqual s.cart chip n i
    · -- equal pair: the loop goes on
      have hdiff : bytesDiffer s2.work.first s2.byte = false := by simp [bytesDiffer, hb1, hb2, heq]
      let s3 := compareNext chip seen rest s2
      have run3 : Runs s2 [] s3 := by
        refine .frame g2.quiet g2.busy rfl rfl (by simp) ?_
        simp only [frameStep, compareSecond, hdiff]
        exact .refl _
      have g3 : Going s3 := ⟨g2.busy, g2.driven, g2.lines, g2.quiet⟩
      obtain ⟨x, idx, first, r, k, hrun, hk⟩ := ih (i + 1) seen s3 g3 rfl rfl hbs
        (idx_succ hidx) (by omega)
      have hiff : (∀ j, i ≤ j → j < n → PairEqual s.cart chip n j) ↔
          ∀ j, i + 1 ≤ j → j < n → PairEqual s.cart chip n j := by
        refine ⟨fun h j h1 h2 => h j (by omega) h2, fun h j h1 h2 => ?_⟩
        rcases Nat.eq_or_lt_of_le h1 with rfl | h1
        · exact heq
        · exact h j h1 h2
      refine ⟨x, idx, first, r, k + 1, ?_, ?_⟩
      · rw [pairReadsFrom_succ]
        have := run12.trans (run3.trans hrun)
        simp only [hiff]
        exact this
      · refine ⟨fun h => ?_, fun he f h1 h2 h3 h4 => ?_⟩
        · have := hk.all (h.imp id (fun h j h1 h2 => h j (by omega) h2))
          omega
        · have hf : i + 1 ≤ f := by
            rcases Nat.eq_or_lt_of_le h1 with rfl | h1
            · exact absurd heq h3
            · exact h1
          have := hk.first he f hf h2 h3 (fun j h5 h6 => h4 j (by omega) h6)
          omega
    · -- unequal pair
      have hdiff : bytesDiffer s2.work.first s2.byte = true := by simp [bytesDiffer, hb1, hb2]; exact heq
      have hnot : ¬ ∀ j, i ≤ j → j < n → PairEqual s.cart chip n j := fun h => heq (h i (Nat.le_refl _) (by omega))
      cases hearly : s.params.compareEarlyExit with
      | true =>
        refine ⟨r2.effect s.cart, s.work.idx, r1.byte s.cart, r2, 1, ?_, ?_⟩
        · rw [pairReadsFrom_succ]
          have run3 : Runs s2 [] (returnTo rest (some (sizeOfBool false)) s2) := by
            refine .frame g2.quiet g2.busy rfl rfl (by simp) ?_
            have he : s2.params.compareEarlyExit = true := hearly
            simp only [frameStep, compareSecond, hdiff, he]
            exact .refl _
          have := run12.trans run3
          simp only [decide_eq_false hnot, Bool.and_false]
          exact this
        · refine ⟨fun h => ?_, fun _ f h1 h2 h3 h4 => ?_⟩
          · rcases h with h | h
            · cases h
            · exact absurd h hnot
          · rcases Nat.eq_or_lt_of_le h1 with rfl | h1
            · rfl
            · exact absurd (h4 i (Nat.le_refl _) h1) heq
      | false =>
        let s3 := compareNext chip true rest s2
        have run3 : Runs s2 [] s3 := by
          refine .frame g2.quiet g2.busy rfl rfl (by simp) ?_
          have he : s2.params.compareEarlyExit = false := hearly
          simp only [frameStep, compareSecond, hdiff, he]
          exact .refl _
        have g3 : Going s3 := ⟨g2.busy, g2.driven, g2.lines, g2.quiet⟩
        obtain ⟨x, idx, first, r, k, hrun, hk⟩ := ih (i + 1) true s3 g3 rfl rfl hbs
          (idx_succ hidx) (by omega)
        refine ⟨x, idx, first, r, k + 1, ?_, ?_⟩
        · rw [pairReadsFrom_succ]
          have := run12.trans (run3.trans hrun)
          simp only [decide_eq_false hnot, Bool.and_false]
          exact this
        · have he : s3.params.compareEarlyExit = false := hearly
          rw [he] at hk
          refine ⟨fun _ => ?_, fun h => by cases h⟩
          have := hk.all (.inl rfl)
          omega

open Classical in
/-- `compareBlock(chip, n)` as called by the pseudocode (R150): it returns whether the blocks are equal. -/
theorem startCompare_runs {chip : Chip} {n : Nat} (hn : n ≤ 65536) {rest : List Frame} {s : State} (g : Going s)
    (hph : s.ph = none) :
    ∃ x idx first r k,
      Runs (startCompare chip (BitVec.ofNat 17 n) rest s) (pairReads chip n k)
        (s.readsDone x (({ s.work with bs := BitVec.ofNat 17 n }).compared idx first r) rest
          (some (sizeOfBool (decide (BlocksEqual s.cart chip n)))))
      ∧ PairCount s.params.compareEarlyExit s.cart chip n 0 k := by
  obtain ⟨x, idx, first, r, k, hrun, hk⟩ :=
    compareLoop_runs (chip := chip) hn (rest := rest) n 0 false (startCompare chip (BitVec.ofNat 17 n) rest s)
      ⟨g.busy, g.driven, g.lines, g.quiet⟩ hph rfl rfl rfl (by omega)
  refine ⟨x, idx, first, r, k, ?_, hk⟩
  rw [pairReads_eq]
  have hiff : BlocksEqual s.cart chip n ↔ ∀ j, 0 ≤ j → j < n → PairEqual s.cart chip n j :=
    ⟨fun h j _ hj => h j hj, fun h j hj => h j (Nat.zero_le _) hj⟩
  simp only [hiff]
  exact hrun

/-! GET_SIZE. -/

/-- The working registers that GET_SIZE changes. -/
def Work.sized (w : Work) (sizeW : Size) (probe : BitVec 16) (bs idx : Size) (first : Byte) (r : BusRead) : Work :=
  ({ w with sizeW := sizeW, probe := probe, bs := bs }).compared idx first r

theorem sizeOfBool_eq_true {b : Bool} : (some (sizeOfBool b) = some (sizeOfBool true)) ↔ b = true := by
  cases b <;> simp [sizeOfBool]

theorem sizeOfProbe_pow {k : Nat} (hk : k ≤ 15) : sizeOfProbe (BitVec.ofNat 16 (2 ^ k)) = BitVec.ofNat 17 (2 ^ k) := by
  apply BitVec.eq_of_toNat_eq
  have : 2 ^ k ≤ 2 ^ 15 := Nat.pow_le_pow_right (by omega) hk
  simp only [sizeOfProbe, BitVec.toNat_setWidth, BitVec.toNat_ofNat]
  rw [Nat.mod_eq_of_lt (by omega : 2 ^ k < 2 ^ 16)]

theorem halve_pow {k : Nat} (hk : k + 1 ≤ 15) :
    (if 1#16 < BitVec.ofNat 16 (2 ^ (k + 1)) then halve (BitVec.ofNat 16 (2 ^ (k + 1))) else BitVec.ofNat 16 (2 ^ (k + 1)))
      = BitVec.ofNat 16 (2 ^ k) := by
  have h1 : 2 ^ (k + 1) ≤ 2 ^ 15 := Nat.pow_le_pow_right (by omega) hk
  have h2 : 2 ^ (k + 1) = 2 * 2 ^ k := by rw [Nat.pow_succ]; omega
  have h3 : 0 < 2 ^ k := Nat.pow_pos (by omega)
  have hmod : 2 ^ (k + 1) % 2 ^ 16 = 2 ^ (k + 1) := Nat.mod_eq_of_lt (by omega)
  have hlt : 1#16 < BitVec.ofNat 16 (2 ^ (k + 1)) := by
    rw [BitVec.lt_def]; simp only [BitVec.toNat_ofNat]; omega
  rw [if_pos hlt]
  apply BitVec.eq_of_toNat_eq
  simp only [halve, BitVec.toNat_ushiftRight, BitVec.toNat_ofNat, Nat.shiftRight_eq_div_pow, hmod]
  omega

/-- GET_SIZE stands at its label `loop` with probe `2 ^ k`, nothing else pending. -/
structure AtSizeLoop (chip : Chip) (k : Nat) (rest : List Frame) (s : State) : Prop where
  going : Going s
  ph : s.ph = none
  stack : s.stack = .sizeLoop chip :: rest
  probe : s.work.probe = BitVec.ofNat 16 (2 ^ k)

/-- The state after the comparison at probe `2 ^ k` succeeded: the probe is recorded, and halved unless it is 1. -/
def recorded (chip : Chip) (k : Nat) (rest : List Frame) (s : State) (x : ReadEffect) (idx : Size) (first : Byte)
    (r : BusRead) : State :=
  s.readsDone x (s.work.sized (BitVec.ofNat 17 (2 ^ k)) (BitVec.ofNat 16 (2 ^ (k - 1))) (BitVec.ofNat 17 (2 ^ k)) idx
    first r) (.sizeLoop chip :: rest) (some (sizeOfBool true))

theorem recorded_at {chip : Chip} {k : Nat} {rest : List Frame} {s : State} (h : AtSizeLoop chip k rest s)
    (x : ReadEffect) (idx : Size) (first : Byte) (r : BusRead) :
    AtSizeLoop chip (k - 1) rest (recorded chip k rest s x idx first r) :=
  ⟨h.going.readsDone _ _ _ _, rfl, rfl, rfl⟩

open Classical in
/-- One turn of the loop whose comparison succeeds (R153). -/
theorem sizeLoop_success {chip : Chip} {k : Nat} (hk : k ≤ 15) {rest : List Frame} {s : State}
    (h : AtSizeLoop chip k rest s) (heq : BlocksEqual s.cart chip (2 ^ k)) :
    ∃ x idx first r, Runs s (pairReads chip (2 ^ k) (2 ^ k)) (recorded chip k rest s x idx first r) := by
  have hle : 2 ^ k ≤ 65536 := Nat.le_trans (Nat.pow_le_pow_right (by omega) hk) (by omega : 2 ^ 15 ≤ 65536)
  obtain ⟨x, idx, first, r, c, hrun, hc⟩ :=
    startCompare_runs (chip := chip) hle (rest := .sizeTest chip :: rest) h.going h.ph
  have hck : c = 2 ^ k := by
    have := hc.all (.inr fun j _ hj => heq j hj)
    omega
  subst hck
  refine ⟨x, idx, first, r, ?_⟩
  refine .frame h.going.quiet h.going.busy h.ph h.stack (by simp) ?_
  simp only [frameStep, sizeLoop, h.probe, sizeOfProbe_pow hk]
  rw [decide_eq_true heq] at hrun
  have g2 := h.going.readsDone x (({ s.work with bs := BitVec.ofNat 17 (2 ^ k) }).compared idx first r)
    (.sizeTest chip :: rest) (some (sizeOfBool true))
  refine List.append_nil (pairReads chip (2 ^ k) (2 ^ k)) ▸ hrun.trans ?_
  refine .frame g2.quiet g2.busy rfl rfl (by simp) ?_
  have hprobe : (if 1#16 < BitVec.ofNat 16 (2 ^ k) then halve (BitVec.ofNat 16 (2 ^ k)) else BitVec.ofNat 16 (2 ^ k))
      = BitVec.ofNat 16 (2 ^ (k - 1)) := by
    cases k with
    | zero => rfl
    | succ k => exact halve_pow hk
  have hdone : frameStep true (.sizeTest chip) rest
      (s.readsDone x (({ s.work with bs := BitVec.ofNat 17 (2 ^ k) }).compared idx first r) (.sizeTest chip :: rest)
        (some (sizeOfBool true))) = recorded chip k rest s x idx first r := by
    simp only [frameStep, sizeTest, State.readsDone, Work.compared, Work.latch, h.probe, if_true, hprobe, sizeOfProbe_pow hk]
    rfl
  rw [hdone]
  exact .refl _

open Classical in
/-- One turn of the loop whose comparison fails (R153): the last recorded size is returned. -/
theorem sizeLoop_failure {chip : Chip} {k : Nat} (hk : k ≤ 15) {rest : List Frame} {s : State}
    (h : AtSizeLoop chip k rest s) (hne : ¬ BlocksEqual s.cart chip (2 ^ k)) :
    ∃ x idx first r c,
      Runs s (pairReads chip (2 ^ k) c)
        (s.readsDone x (s.work.sized s.work.sizeW (BitVec.ofNat 16 (2 ^ k)) (BitVec.ofNat 17 (2 ^ k)) idx first r) rest
          (some s.work.sizeW))
      ∧ PairCount s.params.compareEarlyExit s.cart chip (2 ^ k) 0 c := by
  have hle : 2 ^ k ≤ 65536 := Nat.le_trans (Nat.pow_le_pow_right (by omega) hk) (by omega : 2 ^ 15 ≤ 65536)
  obtain ⟨x, idx, first, r, c, hrun, hc⟩ :=
    startCompare_runs (chip := chip) hle (rest := .sizeTest chip :: rest) h.going h.ph
  refine ⟨x, idx, first, r, c, ?_, hc⟩
  refine .frame h.going.quiet h.going.busy h.ph h.stack (by simp) ?_
  simp only [frameStep, sizeLoop, h.probe, sizeOfProbe_pow hk]
  rw [decide_eq_false hne] at hrun
  have g2 := h.going.readsDone x (({ s.work with bs := BitVec.ofNat 17 (2 ^ k) }).compared idx first r)
    (.sizeTest chip :: rest) (some (sizeOfBool false))
  refine List.append_nil (pairReads chip (2 ^ k) c) ▸ hrun.trans ?_
  refine .frame g2.quiet g2.busy rfl rfl (by simp) ?_
  have hdone : frameStep true (.sizeTest chip) rest
      (s.readsDone x (({ s.work with bs := BitVec.ofNat 17 (2 ^ k) }).compared idx first r) (.sizeTest chip :: rest)
        (some (sizeOfBool false))) =
      s.readsDone x (s.work.sized s.work.sizeW (BitVec.ofNat 16 (2 ^ k)) (BitVec.ofNat 17 (2 ^ k)) idx first r) rest
        (some s.work.sizeW) := by
    rw [← h.probe]
    rfl
  rw [hdone]
  exact .refl _

/-- The reads of the successful comparisons at the probes `2 ^ k` down to `2 ^ (j + 1)`, then of `c` pairs at the
probe `2 ^ j` (R154, R158). -/
def sizeReads (chip : Chip) (j c : Nat) : Nat → List BusRead
  | 0 => pairReads chip (2 ^ j) c
  | m + 1 => pairReads chip (2 ^ (j + m + 1)) (2 ^ (j + m + 1)) ++ sizeReads chip j c m

/-- GET_SIZE from its loop when some probe fails (R153, R156): `2 ^ j` is the first failing probe, and what is returned
is the probe before it, or the size recorded already if none was tested before it. -/
theorem sizeLoop_returns {chip : Chip} {rest : List Frame} {j : Nat} :
    ∀ (m : Nat) (s : State), j + m ≤ 15 → AtSizeLoop chip (j + m) rest s →
      ¬ BlocksEqual s.cart chip (2 ^ j) → (∀ i, j < i → i ≤ j + m → BlocksEqual s.cart chip (2 ^ i)) →
      ∃ x sizeW idx first r c,
        Runs s (sizeReads chip j c m)
          (s.readsDone x (s.work.sized sizeW (BitVec.ofNat 16 (2 ^ j)) (BitVec.ofNat 17 (2 ^ j)) idx first r) rest
            (some sizeW))
        ∧ sizeW = (if m = 0 then s.work.sizeW else BitVec.ofNat 17 (2 ^ (j + 1)))
        ∧ PairCount s.params.compareEarlyExit s.cart chip (2 ^ j) 0 c := by
  intro m
  induction m with
  | zero =>
    intro s hk h hne _
    obtain ⟨x, idx, first, r, c, hrun, hc⟩ := sizeLoop_failure hk h hne
    exact ⟨x, _, idx, first, r, c, hrun, by simp, hc⟩
  | succ m ih =>
    intro s hk h hne hall
    obtain ⟨x, idx, first, r, hrun⟩ := sizeLoop_success hk h (hall _ (by omega) (by omega))
    have h2 : AtSizeLoop chip (j + m) rest (recorded chip (j + (m + 1)) rest s x idx first r) := recorded_at h x idx first r
    obtain ⟨x', sizeW, idx', first', r', c, hrun', hsize, hc⟩ := ih _ (by omega) h2 hne (fun i h1 h3 => hall i h1 (by omega))
    refine ⟨x', sizeW, idx', first', r', c, hrun.trans hrun', ?_, hc⟩
    rw [hsize]
    cases m with
    | zero => rfl
    | succ m => simp

/-- All sixteen comparisons hold only on a uniform chip (R155): by doubling, every byte is the first byte. -/
theorem uniform_of_blocksEqual {cart : List Host.Cell} {chip : Chip}
    (h : ∀ k, k ≤ 15 → BlocksEqual cart chip (2 ^ k)) : Uniform cart chip := by
  have key : ∀ k, k ≤ 16 → ∀ i, i < 2 ^ k → plainByte cart chip i = plainByte cart chip 0 := by
    intro k
    induction k with
    | zero => intro _ i hi; rw [show i = 0 by simpa using hi]
    | succ k ih =>
      intro hk i hi
      by_cases hlt : i < 2 ^ k
      · exact ih (by omega) i hlt
      · have h2 : 2 ^ (k + 1) = 2 * 2 ^ k := by rw [Nat.pow_succ]; omega
        have hb := h k (by omega) (i - 2 ^ k) (by omega)
        rw [Nat.sub_add_cancel (by omega)] at hb
        rw [← hb]
        exact ih (by omega) _ (by omega)
  intro a
  have := key 16 (Nat.le_refl _) a.toNat a.isLt
  simpa [plainByte] using this

theorem blocksEqual_of_uniform {cart : List Host.Cell} {chip : Chip} (h : Uniform cart chip) (n : Nat) :
    BlocksEqual cart chip n := fun _ _ => (h _).trans (h _).symm

/-- `2 ^ j` is the first probe of the sequence whose comparison fails. -/
structure FirstFailure (cart : List Host.Cell) (chip : Chip) (j : Nat) : Prop where
  le : j ≤ 15
  fails : ¬ BlocksEqual cart chip (2 ^ j)
  above : ∀ i, j < i → i ≤ 15 → BlocksEqual cart chip (2 ^ i)

/-- On a chip that is not uniform some probe fails, and there is a first one that does. -/
theorem exists_first_failure {cart : List Host.Cell} {chip : Chip} (h : ¬ Uniform cart chip) :
    ∃ j, FirstFailure cart chip j := by
  classical
  have hex : ∃ m, m ≤ 15 ∧ ¬ BlocksEqual cart chip (2 ^ (15 - m)) := by
    by_contra hno
    refine h (uniform_of_blocksEqual fun k hk => ?_)
    by_contra hne
    exact hno ⟨15 - k, by omega, by rwa [Nat.sub_sub_self hk]⟩
  obtain ⟨hm, hfail⟩ := Nat.find_spec hex
  refine ⟨15 - Nat.find hex, by omega, hfail, fun i h1 h2 => ?_⟩
  by_contra hne
  have : Nat.find hex ≤ 15 - i := Nat.find_min' hex ⟨by omega, by rwa [Nat.sub_sub_self h2]⟩
  omega

/-- GET_SIZE from its loop on a uniform chip never completes (R155): each turn of the loop comes back to it. -/
theorem sizeLoop_neverCompletes {chip : Chip} {k : Nat} (hk : k ≤ 15) {rest : List Frame} {s : State}
    (h : AtSizeLoop chip k rest s) (hu : Uniform s.cart chip) : NeverCompletes s := by
  refine neverCompletes_of_recurrence
    (P := fun s => ∃ k, k ≤ 15 ∧ AtSizeLoop chip k rest s ∧ Uniform s.cart chip) ?_ ⟨k, hk, h, hu⟩
  rintro s ⟨k, hk, h, hu⟩
  obtain ⟨x, idx, first, r, hrun⟩ := sizeLoop_success hk h (blocksEqual_of_uniform hu _)
  obtain ⟨n, hn⟩ := hrun.runsIn
  cases n with
  | succ n => exact ⟨n, _, _, hn, k - 1, by omega, recorded_at h x idx first r, hu⟩
  | zero =>
    exfalso
    have hlen : (pairReads chip (2 ^ k) (2 ^ k)).length = 2 ^ k * 2 := by simp [pairReads]
    rw [hn.reads_of_zero] at hlen
    have hpos : 0 < 2 ^ k := Nat.pow_pos (by omega)
    simp only [List.length_nil] at hlen
    omega

/-- The state after a turn of the loop at probe 1 on a uniform chip. -/
def turnAtOne (chip : Chip) (rest : List Frame) (s : State) : State :=
  s.readsDone ((⟨chip, false, false, 1⟩ : BusRead).effect s.cart)
    (s.work.sized 1#17 1#16 1#17 1#17 (dev s.cart chip false false 0) ⟨chip, false, false, 1⟩)
    (.sizeLoop chip :: rest) (some (sizeOfBool true))

/-- One turn of the loop at probe 1 on a uniform chip (R155): two reads, and the loop again. -/
theorem sizeLoop_turn_at_one {chip : Chip} {rest : List Frame} {s : State} (h : AtSizeLoop chip 0 rest s)
    (hu : Uniform s.cart chip) :
    Runs s [⟨chip, false, false, 0⟩, ⟨chip, false, false, 1⟩] (turnAtOne chip rest s) := by
  let r0 : BusRead := ⟨chip, false, false, 0⟩
  let r1 : BusRead := ⟨chip, false, false, 1⟩
  obtain ⟨g, hp, hs, hpr⟩ := h
  have hpr' : s.work.probe = 1#16 := hpr
  let w0 : Work := { s.work with bs := 1#17, idx := 0 }
  let s1 := s.readsDone (r0.effect s.cart) (w0.latch r0) (.compareFirst chip false :: .sizeTest chip :: rest)
    (some ((r0.byte s.cart).setWidth 17))
  let w2 : Work := { w0.latch r0 with first := r0.byte s.cart }
  let s2 := s.readsDone (r1.effect s.cart) (w2.latch r1) (.compareSecond chip false :: .sizeTest chip :: rest)
    (some ((r1.byte s.cart).setWidth 17))
  let w3 : Work := { w2.latch r1 with idx := 1#17 }
  let s3 := s.readsDone (r1.effect s.cart) w3 (.compareHead chip false :: .sizeTest chip :: rest)
    (some ((r1.byte s.cart).setWidth 17))
  let s4 := s.readsDone (r1.effect s.cart) w3 (.sizeTest chip :: rest) (some (sizeOfBool true))
  have e0 : sizeLoop chip rest s = (s.setWork w0).setStack (.compareHead chip false :: .sizeTest chip :: rest) := by
    simp only [sizeLoop, hpr']; rfl
  have run1 : Runs s [r0] s1 := by
    refine .frame g.quiet g.busy hp hs (by simp) ?_
    simp only [frameStep]; rw [e0]
    exact .frame g.quiet g.busy hp rfl (by simp)
      (startRead_runs (s := (s.setWork w0).setStack (.compareHead chip false :: .sizeTest chip :: rest))
        ⟨g.busy, g.driven, g.lines, g.quiet⟩ r0 _)
  have run2 : Runs s1 [r1] s2 := 
    .frame g.quiet g.busy rfl rfl (by simp) (startRead_runs (s := s1.setWork w2) ⟨g.busy, g.driven, rfl, g.quiet⟩ r1 _)
  have e3 : frameStep true (.compareSecond chip false) (.sizeTest chip :: rest) s2 = s3 := by
    have : bytesDiffer s2.work.first s2.byte = false := by
      show bytesDiffer (dev s.cart chip false false 0) (dev s.cart chip false false 1) = false
      rw [hu 1]; simp [bytesDiffer]
    simp only [frameStep, compareSecond, this]; rfl
  have run3 : Runs s2 [] s3 := .frame g.quiet g.busy rfl rfl (by simp) (e3 ▸ .refl _)
  have run4 : Runs s3 [] s4 := .frame g.quiet g.busy rfl rfl (by simp) (.refl _)
  have e5 : frameStep true (.sizeTest chip) rest s4 = turnAtOne chip rest s := by
    have : s4.work.probe = 1#16 := hpr'
    simp only [frameStep, sizeTest]
    rw [if_pos (show s4.ret = some (sizeOfBool true) from rfl), this]; rfl
  have run5 : Runs s4 [] (turnAtOne chip rest s) := .frame g.quiet g.busy rfl rfl (by simp) (e5 ▸ .refl _)
  exact run1.trans (run2.trans (run3.trans (run4.trans run5)))

theorem turnAtOne_at {chip : Chip} {rest : List Frame} {s : State} (h : AtSizeLoop chip 0 rest s) :
    AtSizeLoop chip 0 rest (turnAtOne chip rest s) :=
  ⟨h.going.readsDone _ _ _ _, rfl, rfl, rfl⟩

/-- On a uniform chip the loop makes one comparison at each remaining probe and then stands at probe 1 (R155). -/
theorem sizeLoop_uniform_runs {chip : Chip} {rest : List Frame} :
    ∀ (k : Nat), k ≤ 15 → ∀ {s : State}, AtSizeLoop chip k rest s → Uniform s.cart chip →
      ∃ w, Runs s ((probes.drop (15 - k)).flatMap (fun q => pairReads chip q q)) (turnAtOne chip rest w)
        ∧ AtSizeLoop chip 0 rest w ∧ w.cart = s.cart := by
  intro k
  induction k with
  | zero =>
    intro hk s h hu
    exact ⟨s, by simpa [probes, pairReads] using sizeLoop_turn_at_one h hu, h, rfl⟩
  | succ k ih =>
    intro hk s h hu
    obtain ⟨x, idx, first, r, hrun⟩ := sizeLoop_success hk h (blocksEqual_of_uniform hu _)
    obtain ⟨v, h1, h2, h3⟩ := ih (by omega) (recorded_at h x idx first r) hu
    refine ⟨v, ?_, h2, h3⟩
    have := hrun.trans h1
    have e : probes.drop (15 - (k+1)) = 2^(k+1) :: probes.drop (15 - k) := by
      have : k = 0 ∨ k = 1 ∨ k = 2 ∨ k = 3 ∨ k = 4 ∨ k = 5 ∨ k = 6 ∨ k = 7 ∨ k = 8
          ∨ k = 9 ∨ k = 10 ∨ k = 11 ∨ k = 12 ∨ k = 13 ∨ k = 14 := by omega
      rcases this with rfl | rfl | rfl | rfl | rfl | rfl | rfl | rfl | rfl | rfl | rfl | rfl | rfl | rfl | rfl <;>
        simp [probes]
    rw [e, List.flatMap_cons]
    exact this

/-- The state after GET_SIZE has returned `2 ^ (j + 1)` to `rest`. -/
def sizeDone (j : Nat) (rest : List Frame) (s : State) (x : ReadEffect) (idx : Size) (first : Byte) (r : BusRead) :
    State :=
  s.readsDone x
    (s.work.sized (BitVec.ofNat 17 (2 ^ (j + 1))) (BitVec.ofNat 16 (2 ^ j)) (BitVec.ofNat 17 (2 ^ j)) idx first r)
    rest (some (BitVec.ofNat 17 (2 ^ (j + 1))))

theorem Going.sizeDone {s : State} (g : Going s) (j : Nat) (rest : List Frame) (x : ReadEffect) (idx : Size)
    (first : Byte) (r : BusRead) : Going (sizeDone j rest s x idx first r) := g.readsDone _ _ _ _

/-- `getSize(chip)` as called by the pseudocode, on a chip that is not uniform (R153, R156, R158). -/
theorem startGetSize_runs {chip : Chip} {rest : List Frame} {s : State} (g : Going s) (hph : s.ph = none) {j : Nat}
    (hj : FirstFailure s.cart chip j) :
    ∃ x idx first r c,
      Runs (startGetSize chip rest s) (sizeReads chip j c (15 - j)) (sizeDone j rest s x idx first r)
      ∧ PairCount s.params.compareEarlyExit s.cart chip (2 ^ j) 0 c := by
  have hm : j + (15 - j) = 15 := by have := hj.le; omega
  obtain ⟨x, sizeW, idx, first, r, c, hrun, hsize, hc⟩ :=
    sizeLoop_returns (chip := chip) (rest := rest) (j := j) (15 - j) (startGetSize chip rest s) (by omega)
      ⟨⟨g.busy, g.driven, g.lines, g.quiet⟩, hph, rfl, by rw [hm]; rfl⟩ hj.fails (fun i h1 h2 => hj.above i h1 (by omega))
  have hval : sizeW = BitVec.ofNat 17 (2 ^ (j + 1)) := by
    rw [hsize]
    split
    · have : j = 15 := by omega
      subst this; rfl
    · rfl
  subst hval
  exact ⟨x, idx, first, r, c, hrun, hc⟩

/-- `getSize(chip)` as called by the pseudocode, on a uniform chip (R155). -/
theorem startGetSize_neverCompletes {chip : Chip} {rest : List Frame} {s : State} (g : Going s) (hph : s.ph = none)
    (hu : Uniform s.cart chip) : NeverCompletes (startGetSize chip rest s) :=
  sizeLoop_neverCompletes (k := 15) (rest := rest) (by omega) ⟨⟨g.busy, g.driven, g.lines, g.quiet⟩, hph, rfl, rfl⟩ hu

end Sys2Proof.Machine
end

