-- ==== Sys2Proof/Laws/Dump.lean ====
section
/-! SUPPORT. Emission and the loops of the dump engine as wholes (43_dump_and_commands.md R185 to R190). -/

namespace Sys2Proof.Machine

/-- OUT extended by a list of bytes. -/
def State.pushAll (s : State) (bytes : List Byte) : State := { s with out := s.out ++ bytes }

theorem State.pushAll_pushAll (s : State) (x y : List Byte) : (s.pushAll x).pushAll y = s.pushAll (x ++ y) := by
  simp [State.pushAll]

theorem State.pushAll_nil (s : State) : s.pushAll [] = s := by
  simp [State.pushAll]

/-- The pending bytes are handed to the sink in order, and the control points below go on (R190). -/
theorem emit_runs {rest : List Frame} (bytes : List Byte) :
    ∀ {s : State}, Going s → s.ph = none → s.stack = .emit bytes :: rest →
      Runs s [] ((s.pushAll bytes).setStack rest) := by
  induction bytes with
  | nil =>
    intro s g hph hst
    refine .frame g.quiet g.busy hph hst (by simp) ?_
    simp only [frameStep, emitStep, State.pushAll_nil]
    exact .refl _
  | cons v vs ih =>
    intro s g hph hst
    refine .frame g.quiet g.busy hph hst (by simp) ?_
    simp only [frameStep, emitStep, if_true]
    have g1 : Going ((s.pushOut v).setStack (.emit vs :: rest)) := ⟨g.busy, g.driven, g.lines, g.quiet⟩
    have hfin : ((s.pushAll (v :: vs)).setStack rest) =
        ((((s.pushOut v).setStack (.emit vs :: rest)).pushAll vs).setStack rest) := by
      simp [State.pushAll, State.pushOut, State.setStack]
    rw [hfin]
    exact ih g1 hph rfl

/-- The reads of one bank index from address `i` on, `m` of them. -/
def bankReadsFrom (d : DumpArgs) (bank i m : Nat) : List BusRead :=
  (List.range' i m).map (fun a => ⟨d.chip, bank.testBit 0, bank.testBit 1, BitVec.ofNat 16 a⟩)

theorem bankReadsFrom_succ (d : DumpArgs) (bank i m : Nat) :
    bankReadsFrom d bank i (m + 1) =
      ⟨d.chip, bank.testBit 0, bank.testBit 1, BitVec.ofNat 16 i⟩ :: bankReadsFrom d bank (i + 1) m := by
  simp [bankReadsFrom, List.range'_succ]

/-- What a dump emits for a list of reads. -/
def readsText (p : Config.Params) (cart : List Host.Cell) (d : DumpArgs) (reads : List BusRead) : List Byte :=
  reads.flatMap (fun r => render p d.format (r.byte cart))

theorem readsText_append (p : Config.Params) (cart : List Host.Cell) (d : DumpArgs) (l m : List BusRead) :
    readsText p cart d (l ++ m) = readsText p cart d l ++ readsText p cart d m := by
  simp [readsText]

/-- The working registers that DUMP changes. -/
def Work.dumped (w : Work) (b : BitVec 3) (actr : Size) (r : BusRead) : Work := ({ w with b := b, actr := actr }).latch r

theorem bankAOf_ofNat {bank : Nat} (h : bank < 4) : bankAOf (BitVec.ofNat 3 bank) = bank.testBit 0 := by
  rcases bank with _ | _ | _ | _ | _ <;> first | rfl | omega

theorem bankBOf_ofNat {bank : Nat} (h : bank < 4) : bankBOf (BitVec.ofNat 3 bank) = bank.testBit 1 := by
  rcases bank with _ | _ | _ | _ | _ <;> first | rfl | omega

theorem bank_succ (bank : Nat) : BitVec.ofNat 3 bank + 1 = BitVec.ofNat 3 (bank + 1) := by
  rw [BitVec.ofNat_add]; rfl

/-- One turn of the address loop (R186): a read, then its rendering is emitted, then the counter goes up. -/
theorem dumpByte_runs {d : DumpArgs} {rest : List Frame} {bank i : Nat} (hb : bank < 4) {s : State} (g : Going s)
    (hph : s.ph = none) (hst : s.stack = .dumpAddr d :: rest) (hbank : s.work.b = BitVec.ofNat 3 bank)
    (hactr : s.work.actr = BitVec.ofNat 17 i) (hlt : i < d.size.toNat) :
    let r : BusRead := ⟨d.chip, bank.testBit 0, bank.testBit 1, BitVec.ofNat 16 i⟩
    Runs s [r]
      ((s.pushAll (render s.params d.format (r.byte s.cart))).readsDone (r.effect s.cart)
        (s.work.dumped (BitVec.ofNat 3 bank) (BitVec.ofNat 17 (i + 1)) r) (.dumpAddr d :: rest)
        (some ((r.byte s.cart).setWidth 17))) := by
  intro r
  have hsz := d.size.isLt
  have hcond : s.work.actr < d.size := by
    rw [hactr, BitVec.lt_def, BitVec.toNat_ofNat]; omega
  let s1 := s.readsDone (r.effect s.cart) (s.work.latch r) (.dumpByte d :: rest) (some ((r.byte s.cart).setWidth 17))
  have g1 : Going s1 := g.readsDone _ _ _ _
  have run1 : Runs s [r] s1 := by
    refine .frame g.quiet g.busy hph hst (by simp) ?_
    simp only [frameStep, dumpAddr, if_pos hcond]
    rw [hactr, hbank, addrOf_ofNat, bankAOf_ofNat hb, bankBOf_ofNat hb]
    exact startRead_runs g r _
  let s2 := dumpByte d rest s1
  have g2 : Going s2 := ⟨g.busy, g.driven, rfl, g.quiet⟩
  have run2 : Runs s1 [] s2 := .frame g1.quiet g1.busy rfl rfl (by simp) (.refl _)
  have run3 := emit_runs (render s.params d.format (r.byte s.cart)) (rest := .dumpEmitted d :: rest) g2 rfl rfl
  let s3 := (s2.pushAll (render s.params d.format (r.byte s.cart))).setStack (.dumpEmitted d :: rest)
  have g3 : Going s3 := ⟨g.busy, g.driven, rfl, g.quiet⟩
  have run4 : Runs s3 [] (dumpEmitted d rest s3) := .frame g3.quiet g3.busy rfl rfl (by simp) (.refl _)
  have hfin : dumpEmitted d rest s3 =
      (s.pushAll (render s.params d.format (r.byte s.cart))).readsDone (r.effect s.cart)
        (s.work.dumped (BitVec.ofNat 3 bank) (BitVec.ofNat 17 (i + 1)) r) (.dumpAddr d :: rest)
        (some ((r.byte s.cart).setWidth 17)) := by
    have h1 : s.work.actr + 1 = BitVec.ofNat 17 (i + 1) := idx_succ hactr
    rw [← h1, ← hbank]
    rfl
  rw [← hfin]
  exact run1.trans (run2.trans (run3.trans run4))

/-- The address loop of one bank index from address `i` on (R186). -/
theorem dumpAddr_runs {d : DumpArgs} {rest : List Frame} {bank : Nat} (hb : bank < 4) :
    ∀ (m i : Nat) {s : State}, Going s → s.ph = none → s.stack = .dumpAddr d :: rest →
      s.work.b = BitVec.ofNat 3 bank → s.work.actr = BitVec.ofNat 17 i → i + m = d.size.toNat →
      ∃ x r v,
        Runs s (bankReadsFrom d bank i m)
          ((s.pushAll (readsText s.params s.cart d (bankReadsFrom d bank i m))).readsDone x
            (s.work.dumped (BitVec.ofNat 3 (bank + 1)) d.size r) (.dumpBank d :: rest) v) := by
  intro m
  induction m with
  | zero =>
    intro i s g hph hst hbank hactr him
    refine ⟨⟨s.lines.addr, s.tmr, s.byte, s.byteV⟩, latchedRead s.work, s.ret, ?_⟩
    refine .frame g.quiet g.busy hph hst (by simp) ?_
    have hsize : s.work.actr = d.size := by
      rw [hactr, show i = d.size.toNat by omega]; simp
    have hcond : ¬ s.work.actr < d.size := by
      rw [hsize]; exact BitVec.lt_irrefl _
    simp only [frameStep, dumpAddr, if_neg hcond]
    have hfin : nextBank d rest s =
        (s.pushAll (readsText s.params s.cart d (bankReadsFrom d bank i 0))).readsDone
          ⟨s.lines.addr, s.tmr, s.byte, s.byteV⟩
          (s.work.dumped (BitVec.ofNat 3 (bank + 1)) d.size (latchedRead s.work)) (.dumpBank d :: rest) s.ret := by
      rw [show readsText s.params s.cart d (bankReadsFrom d bank i 0) = [] from rfl, State.pushAll_nil, ← bank_succ,
        ← hbank, ← hsize]
      conv => lhs; rw [g.eq_readsDone hph]
      rfl
    rw [hfin]
    exact .refl _
  | succ m ih =>
    intro i s g hph hst hbank hactr him
    have run1 := dumpByte_runs hb g hph hst hbank hactr (by omega)
    simp only at run1
    generalize hr : (⟨d.chip, bank.testBit 0, bank.testBit 1, BitVec.ofNat 16 i⟩ : BusRead) = r at run1
    have g1 : Going ((s.pushAll (render s.params d.format (r.byte s.cart))).readsDone (r.effect s.cart)
        (s.work.dumped (BitVec.ofNat 3 bank) (BitVec.ofNat 17 (i + 1)) r) (.dumpAddr d :: rest)
        (some ((r.byte s.cart).setWidth 17))) := ⟨g.busy, g.driven, rfl, g.quiet⟩
    obtain ⟨x, r', v, run2⟩ := ih (i + 1) g1 rfl rfl rfl rfl (by omega)
    refine ⟨x, r', v, ?_⟩
    rw [bankReadsFrom_succ, hr]
    have htext : readsText s.params s.cart d (r :: bankReadsFrom d bank (i + 1) m) =
        render s.params d.format (r.byte s.cart) ++ readsText s.params s.cart d (bankReadsFrom d bank (i + 1) m) := rfl
    rw [htext, ← State.pushAll_pushAll]
    exact run1.trans run2

/-- The reads of the bank indices from `bank` on that the flags select, `m` indices looked at. -/
def banksReadsFrom (d : DumpArgs) : Nat → Nat → List BusRead
  | _, 0 => []
  | bank, m + 1 =>
    (if bankSelected d.affectsA d.affectsB (BitVec.ofNat 3 bank) then bankReadsFrom d bank 0 d.size.toNat else [])
      ++ banksReadsFrom d (bank + 1) m

/-- The bank loop from index `bank` on (R185, R186, R189). -/
theorem dumpBank_runs {d : DumpArgs} {rest : List Frame} :
    ∀ (m bank : Nat) {s : State}, Going s → s.ph = none → s.stack = .dumpBank d :: rest →
      s.work.b = BitVec.ofNat 3 bank → bank + m = 4 →
      ∃ x actr r,
        Runs s (banksReadsFrom d bank m)
          ((s.pushAll (readsText s.params s.cart d (banksReadsFrom d bank m))).readsDone x
            (s.work.dumped 4#3 actr r) rest none)
        ∧ (actr = s.work.actr ∨ actr = d.size)
        ∧ (0 < m → bankSelected d.affectsA d.affectsB (BitVec.ofNat 3 bank) = true → actr = d.size) := by
  intro m
  induction m with
  | zero =>
    intro bank s g hph hst hbank hm
    obtain rfl : bank = 4 := by omega
    refine ⟨⟨s.lines.addr, s.tmr, s.byte, s.byteV⟩, s.work.actr, latchedRead s.work, ?_, .inl rfl,
      fun h => absurd h (by omega)⟩
    refine .frame g.quiet g.busy hph hst (by simp) ?_
    have hcond : ¬ s.work.b < 4#3 := by rw [hbank]; decide
    simp only [frameStep, dumpBank, if_neg hcond]
    have hfin : returnTo rest none s =
        (s.pushAll (readsText s.params s.cart d (banksReadsFrom d 4 0))).readsDone
          ⟨s.lines.addr, s.tmr, s.byte, s.byteV⟩ (s.work.dumped 4#3 s.work.actr (latchedRead s.work)) rest none := by
      rw [show readsText s.params s.cart d (banksReadsFrom d 4 0) = [] from rfl, State.pushAll_nil,
        show (4#3 : BitVec 3) = s.work.b from hbank.symm]
      conv => lhs; rw [g.eq_readsDone hph]
      rfl
    rw [hfin]
    exact .refl _
  | succ m ih =>
    intro bank s g hph hst hbank hm
    have hb : bank < 4 := by omega
    have hcond : s.work.b < 4#3 := by
      rw [hbank, BitVec.lt_def, BitVec.toNat_ofNat]
      simp only [BitVec.toNat_ofNat]
      omega
    by_cases hsel : bankSelected d.affectsA d.affectsB (BitVec.ofNat 3 bank) = true
    · let s1 := (s.setWork { s.work with actr := 0 }).setStack (.dumpAddr d :: rest)
      have g1 : Going s1 := ⟨g.busy, g.driven, g.lines, g.quiet⟩
      have run1 : Runs s [] s1 := by
        refine .frame g.quiet g.busy hph hst (by simp) ?_
        rw [← hbank] at hsel
        simp only [frameStep, dumpBank, if_pos hcond, if_pos hsel]
        exact .refl _
      obtain ⟨x, r, v, run2⟩ := dumpAddr_runs (rest := rest) hb d.size.toNat 0 g1 hph rfl hbank rfl (by omega)
      have g2 : Going ((s1.pushAll (readsText s1.params s1.cart d (bankReadsFrom d bank 0 d.size.toNat))).readsDone x
          (s1.work.dumped (BitVec.ofNat 3 (bank + 1)) d.size r) (.dumpBank d :: rest) v) :=
        ⟨g.busy, g.driven, rfl, g.quiet⟩
      obtain ⟨x', actr', r', run3, hactr, -⟩ := ih (bank + 1) g2 rfl rfl rfl (by omega)
      have hactr' : actr' = d.size := hactr.elim id id
      refine ⟨x', actr', r', ?_, .inr hactr', fun _ _ => hactr'⟩
      have hreads : banksReadsFrom d bank (m + 1) =
          bankReadsFrom d bank 0 d.size.toNat ++ banksReadsFrom d (bank + 1) m := by
        simp [banksReadsFrom, hsel]
      rw [hreads, readsText_append, ← State.pushAll_pushAll]
      exact run1.trans (run2.trans run3)
    · let s1 := nextBank d rest s
      have g1 : Going s1 := ⟨g.busy, g.driven, g.lines, g.quiet⟩
      have run1 : Runs s [] s1 := by
        refine .frame g.quiet g.busy hph hst (by simp) ?_
        rw [← hbank] at hsel
        simp only [frameStep, dumpBank, if_pos hcond, if_neg hsel]
        exact .refl _
      obtain ⟨x', actr', r', run2, hactr, -⟩ := ih (bank + 1) g1 hph rfl
        (by show s.work.b + 1 = _; rw [hbank, bank_succ]) (by omega)
      refine ⟨x', actr', r', ?_, hactr, fun _ h => absurd h hsel⟩
      have hreads : banksReadsFrom d bank (m + 1) = banksReadsFrom d (bank + 1) m := by
        simp [banksReadsFrom, hsel]
      rw [hreads]
      exact run1.trans run2

theorem banksReads_eq (d : DumpArgs) : banksReadsFrom d 0 4 = dumpReads d := by
  obtain ⟨chip, affectsA, affectsB, size, format⟩ := d
  cases affectsA <;> cases affectsB <;>
    simp [banksReadsFrom, bankSelected, bankAOf, bankBOf, dumpReads, bankSet, bankReadsFrom, List.range_eq_range']

/-- `dump(...)` as called by the pseudocode (R186): OUT grows by the rendering of every byte of every selected bank. -/
theorem startDump_runs {d : DumpArgs} {rest : List Frame} {s : State} (g : Going s) (hph : s.ph = none) :
    ∃ x r,
      Runs (startDump d rest s) (dumpReads d)
        ((s.pushAll (dumpText s.params s.cart d)).readsDone x (s.work.dumped 4#3 d.size r) rest none) := by
  obtain ⟨x, actr, r, hrun, -, hactr⟩ := dumpBank_runs (d := d) (rest := rest) 4 0 (s := startDump d rest s)
    ⟨g.busy, g.driven, g.lines, g.quiet⟩ hph rfl rfl rfl
  rw [banksReads_eq] at hrun
  obtain rfl := hactr (by omega) (by cases d.affectsA <;> cases d.affectsB <;> rfl)
  exact ⟨x, r, hrun⟩

end Sys2Proof.Machine
end

