-- ==== Sys2Proof/Laws/Probe.lean ====
section
/-! SUPPORT. The bank-select probe and detection as wholes (42_bank_mode_probe.md). -/

namespace Sys2Proof.Machine

/-- The working registers after PROBE_MODE (R170). -/
def Work.probed (w : Work) (base : Byte) (m : ModeFlags) (r : BusRead) : Work :=
  ({ w with base := base, fa := m.affectsA, fb := m.affectsB }).latch r

/-- The last read of PROBE_MODE (R171). -/
def lastProbeRead (chip : Chip) : BusRead := ⟨chip, false, true, 0⟩

/-- The state after PROBE_MODE has returned to `rest`. -/
def probeDone (chip : Chip) (rest : List Frame) (s : State) : State :=
  s.readsDone ((lastProbeRead chip).effect s.cart)
    (s.work.probed (dev s.cart chip false false 0) (modeOf s.cart chip) (lastProbeRead chip)) rest
    (some (packMode (modeOf s.cart chip)))

/-- PROBE_MODE as called by the pseudocode (R170): three reads, then the two flags. -/
theorem startProbe_runs {chip : Chip} {rest : List Frame} {s : State} (g : Going s) (hph : s.ph = none) :
    Runs (startProbe chip rest s) (probeReads chip) (probeDone chip rest s) := by
  let r1 : BusRead := ⟨chip, false, false, 0⟩
  let r2 : BusRead := ⟨chip, true, false, 0⟩
  let r3 : BusRead := ⟨chip, false, true, 0⟩
  let s1 := s.readsDone (r1.effect s.cart) (s.work.latch r1) (.probeBase chip :: rest)
    (some ((r1.byte s.cart).setWidth 17))
  let w2 : Work := { s.work.latch r1 with base := r1.byte s.cart }
  let s2 := s.readsDone (r2.effect s.cart) (w2.latch r2) (.probeA chip :: rest)
    (some ((r2.byte s.cart).setWidth 17))
  let w3 : Work := { w2.latch r2 with fa := bytesDiffer (r2.byte s.cart) (r1.byte s.cart) }
  let s3 := s.readsDone (r3.effect s.cart) (w3.latch r3) (.probeB chip :: rest)
    (some ((r3.byte s.cart).setWidth 17))
  have run1 : Runs (startProbe chip rest s) [r1] s1 :=
    .frame g.quiet g.busy hph rfl (by simp)
      (startRead_runs (s := startProbe chip rest s) ⟨g.busy, g.driven, g.lines, g.quiet⟩ r1 _)
  have run2 : Runs s1 [r2] s2 :=
    .frame g.quiet g.busy rfl rfl (by simp)
      (startRead_runs (s := s1.setWork w2) ⟨g.busy, g.driven, rfl, g.quiet⟩ r2 _)
  have run3 : Runs s2 [r3] s3 :=
    .frame g.quiet g.busy rfl rfl (by simp)
      (startRead_runs (s := s2.setWork w3) ⟨g.busy, g.driven, rfl, g.quiet⟩ r3 _)
  have run4 : Runs s3 [] (probeDone chip rest s) :=
    .frame g.quiet g.busy rfl rfl (by simp) (.refl _)
  exact run1.trans (run2.trans (run3.trans run4))

theorem Going.probeDone {s : State} (g : Going s) (chip : Chip) (rest : List Frame) : Going (probeDone chip rest s) :=
  g.readsDone _ _ _ _

/-- DETECT as called by the pseudocode, on two chips that are not uniform (R174): the four registers are written at the
end, and of the working registers only those of GET_SIZE and PROBE_MODE have changed, last for the RAM. -/
theorem startDetect_runs {rest : List Frame} {s : State} (g : Going s) (hph : s.ph = none) {j0 j1 : Nat}
    (h0 : FirstFailure s.cart .rom j0) (h1 : FirstFailure s.cart .ram j1) :
    ∃ idx first c0 c1,
      Runs (startDetect rest s)
        (sizeReads .rom j0 c0 (15 - j0) ++ (sizeReads .ram j1 c1 (15 - j1) ++ (probeReads .rom ++ probeReads .ram)))
        ((s.storeDetection (BitVec.ofNat 17 (2 ^ (j0 + 1))) (BitVec.ofNat 17 (2 ^ (j1 + 1))) (modeOf s.cart .rom)
            (modeOf s.cart .ram)).readsDone ((lastProbeRead .ram).effect s.cart)
          (({ s.work with
              sizeW := BitVec.ofNat 17 (2 ^ (j1 + 1))
              probe := BitVec.ofNat 16 (2 ^ j1)
              bs := BitVec.ofNat 17 (2 ^ j1)
              idx := idx
              first := first }).probed
            (dev s.cart .ram false false 0) (modeOf s.cart .ram) (lastProbeRead .ram)) rest none)
      ∧ PairCount s.params.compareEarlyExit s.cart .rom (2 ^ j0) 0 c0
      ∧ PairCount s.params.compareEarlyExit s.cart .ram (2 ^ j1) 0 c1 := by
  obtain ⟨x, idx, first, r, c0, hrun0, hc0⟩ := startGetSize_runs (rest := .detectRomSized :: rest) g hph h0
  have g1 := g.sizeDone j0 (.detectRomSized :: rest) x idx first r
  obtain ⟨x', idx', first', r', c1, hrun1, hc1⟩ := startGetSize_runs
    (rest := .detectRamSized (BitVec.ofNat 17 (2 ^ (j0 + 1))) :: rest) g1 rfl h1
  have g2 := g1.sizeDone j1 (.detectRamSized (BitVec.ofNat 17 (2 ^ (j0 + 1))) :: rest) x' idx' first' r'
  have hrun2 := startProbe_runs (chip := .rom)
    (rest := .detectRomProbed (BitVec.ofNat 17 (2 ^ (j0 + 1))) (BitVec.ofNat 17 (2 ^ (j1 + 1))) :: rest) g2 rfl
  have g3 := g2.probeDone .rom
    (.detectRomProbed (BitVec.ofNat 17 (2 ^ (j0 + 1))) (BitVec.ofNat 17 (2 ^ (j1 + 1))) :: rest)
  have hrun3 := startProbe_runs (chip := .ram)
    (rest := .detectRamProbed (BitVec.ofNat 17 (2 ^ (j0 + 1))) (BitVec.ofNat 17 (2 ^ (j1 + 1)))
      (modeOf s.cart .rom) :: rest) g3 rfl
  refine ⟨idx', first', c0, c1, ?_, hc0, hc1⟩
  refine .frame g.quiet g.busy hph rfl (by simp) ?_
  refine hrun0.trans ?_
  refine .frame g1.quiet g1.busy rfl rfl (by simp) ?_
  refine hrun1.trans ?_
  refine .frame g2.quiet g2.busy rfl rfl (by simp) ?_
  refine hrun2.trans ?_
  refine .frame g3.quiet g3.busy rfl rfl (by simp) ?_
  refine List.append_nil (probeReads .ram) ▸ hrun3.trans ?_
  exact .frame g3.quiet g3.busy rfl rfl (by simp) (.refl _)

end Sys2Proof.Machine
end

