-- ==== Sys2Proof/Laws/Session.lean ====
section
/-! SUPPORT. Bring-up, the end of an operation, and the firmware's session as wholes (40_bus_read_cycle.md R121,
43_dump_and_commands.md R191 to R197). -/

namespace Sys2Proof.Machine

/-- The state after bring-up has returned (R121). -/
def bringupDone (s : State) : State :=
  { s with lines := Lines.idleAt 0, driven := true, tmr := .elapsed, ph := none, ret := none }

/-- The four phases of bring-up (R121). -/
theorem bringup_runs {s : State} (busy : s.busy = true) (quiet : Quiet s) (h : s.ph = some .bu1) :
    Runs s [] (bringupDone s) :=
  .phase quiet busy h (by decide) (.phase quiet busy rfl (by decide) (.phase quiet busy rfl (by decide)
    (.phase quiet busy rfl (by decide) (.refl _))))

theorem bringupDone_going {s : State} (busy : s.busy = true) (quiet : Quiet s) : Going (bringupDone s) :=
  ⟨busy, rfl, rfl, quiet⟩

/-- The end of the operation that was accepted (R93). -/
theorem complete_runs {s : State} (busy : s.busy = true) (quiet : Quiet s) (h : s.ph = none) (hs : s.stack = []) :
    Runs s [] (complete s) :=
  .silent busy (by simp [h]) (step_complete quiet busy h hs) (.refl _)

/-- An accepted request starts from driven, idle lines. -/
theorem Ready.accept_going {s : State} (r : Ready s) (op : Op) (frames : List Frame) : Going (s.accept op frames) :=
  ⟨rfl, r.driven, by simpa [Lines.isIdle] using r.lines, r.quiet⟩

/-- A request that is accepted at `a`, whose pseudocode runs to `b` with nothing below it, completes. -/
theorem completes_of_runs {s b : State} {reads : List BusRead} (h : Runs s reads b) (busy : b.busy = true)
    (quiet : Quiet b) (hph : b.ph = none) (hs : b.stack = []) : Completes s reads (complete b) := by
  refine ⟨List.append_nil reads ▸ h.trans (complete_runs busy quiet hph hs), ?_⟩
  unfold complete
  split <;> rfl

/-! The command loop. -/

/-- RUN stands at the head of its command loop, after detection, on a finite CMD_INPUT. -/
structure InLoop (s : State) : Prop where
  going : Going s
  ph : s.ph = none
  stack : s.stack = [.commandLoop]
  detected : s.allDetected = true
  sizes : sizeInDomain s.size.rom = true ∧ sizeInDomain s.size.ram = true

theorem InLoop.awaits {s : State} (h : InLoop s) : s.awaitsCommand = true := by
  simp [State.awaitsCommand, h.going.busy, h.ph, h.stack]

/-- The next byte of CMD_INPUT is decoded and run (R191). -/
theorem step_command {s : State} (h : InLoop s) {c : Byte} {cs : List Byte} (hin : s.cmdInput = c :: cs) :
    step s = exec (decodeCommand c) { s with cmdInput := cs } := by
  have hq := h.going.quiet
  simp only [Quiet] at hq
  simp [step, fetch, hq, fetchOwn, h.awaits, hin]

/-- A dump command inside RUN. -/
theorem dumpCommand_inLoop {s : State} (h : InLoop s) (op : Op) (chip : Chip) :
    dumpCommand op chip s = .next (startDump (commandDump s chip) [.commandLoop] s) := by
  obtain ⟨h1, h2⟩ := h.sizes
  have hd := h.detected
  simp only [State.allDetected, Bool.and_eq_true] at hd
  obtain ⟨⟨⟨d1, d2⟩, d3⟩, d4⟩ := hd
  have hsz : sizeInDomain (s.size.get chip) = true := by cases chip <;> simpa [PerChip.get]
  have hdet : (s.sizeV.get chip && s.modeV.get chip) = true := by cases chip <;> simp [PerChip.get, d1, d2, d3, d4]
  simp [dumpCommand, whenDispatching, h.awaits, whenDriven, h.going.driven, whenDetected, hdet, whenInDomain, hsz,
    enterCommandDump, h.going.busy, h.stack]

/-- The state in which the command loop stands again after a sequence of commands: OUT and FORMAT as the commands say,
the consumed bytes gone. -/
def afterCommands (s : State) (text : List Byte) (f : Format) (x : ReadEffect) (w : Work) (rest : List Frame)
    (v : Option Size) : State :=
  ({ (s.pushAll text) with format := f, cmdInput := [] }).readsDone x w rest v

/-- The command loop on a finite CMD_INPUT (R191 to R196): every byte is dispatched in order, and RUN returns when the
input is used up; it has made the reads of the dumps, and left the counters of the last one. -/
theorem session_runs (cs : List Byte) :
    ∀ {s : State}, InLoop s → s.cmdInput = cs → s.cmdLive = false →
      ∃ x r,
        Runs s (sessionReads s.size s.mode cs)
          (afterCommands s (sessionText s.params s.cart s.size s.mode s.format cs) (formatAfter s.format cs) x
            (s.work.dumped (sessionCounters s.size (s.work.b, s.work.actr) cs).1
              (sessionCounters s.size (s.work.b, s.work.actr) cs).2 r) [] none) := by
  induction cs with
  | nil =>
    intro s h hin hlive
    refine ⟨⟨s.lines.addr, s.tmr, s.byte, s.byteV⟩, latchedRead s.work, ?_⟩
    have hq := h.going.quiet
    simp only [Quiet] at hq
    refine .silent h.going.busy (by simp [h.ph]) (t := returnTo [] none s) ?_ ?_
    · simp [step, fetch, hq, fetchOwn, h.awaits, hin, advance, h.going.busy, h.ph, controlStep, h.stack, frameStep,
        commandLoop, hlive]
    · have hfin : returnTo [] none s = afterCommands s (sessionText s.params s.cart s.size s.mode s.format [])
          (formatAfter s.format []) ⟨s.lines.addr, s.tmr, s.byte, s.byteV⟩
          (s.work.dumped s.work.b s.work.actr (latchedRead s.work)) [] none := by
        have hs : { s with format := s.format, cmdInput := [] } = s := by rw [← hin]
        simp only [sessionText, formatAfter, afterCommands, State.pushAll_nil, hs]
        conv => lhs; rw [h.going.eq_readsDone h.ph]
        rfl
      rw [hfin]
      exact .refl _
  | cons c cs ih =>
    intro s h hin hlive
    have hstep := step_command h hin
    -- the state in which the byte has been consumed is in the loop as well
    have h1 : InLoop { s with cmdInput := cs } :=
      ⟨⟨h.going.busy, h.going.driven, h.going.lines, h.going.quiet⟩, h.ph, h.stack, h.detected, h.sizes⟩
    have go : ∀ (t : State) (text : List Byte) (reads : List BusRead) (x : ReadEffect) (k : BitVec 3 × Size)
        (r : BusRead) (v : Option Size),
        step s = .next t →
        Runs t reads (({ s with cmdInput := cs, format := formatAfter s.format [c] }.pushAll text).readsDone x
          (s.work.dumped k.1 k.2 r) [.commandLoop] v) →
        sessionText s.params s.cart s.size s.mode s.format (c :: cs) =
          text ++ sessionText s.params s.cart s.size s.mode (formatAfter s.format [c]) cs →
        sessionReads s.size s.mode (c :: cs) = reads ++ sessionReads s.size s.mode cs →
        sessionCounters s.size (s.work.b, s.work.actr) (c :: cs) = sessionCounters s.size k cs →
        ∃ x r, Runs s (sessionReads s.size s.mode (c :: cs))
          (afterCommands s (sessionText s.params s.cart s.size s.mode s.format (c :: cs)) (formatAfter s.format (c :: cs))
            x (s.work.dumped (sessionCounters s.size (s.work.b, s.work.actr) (c :: cs)).1
              (sessionCounters s.size (s.work.b, s.work.actr) (c :: cs)).2 r) [] none) := by
      intro t text reads x k r v hnext hrun htext hreads hcount
      have h2 : InLoop (({ s with cmdInput := cs, format := formatAfter s.format [c] }.pushAll text).readsDone x
          (s.work.dumped k.1 k.2 r) [.commandLoop] v) :=
        ⟨⟨h.going.busy, h.going.driven, rfl, h.going.quiet⟩, rfl, rfl, h.detected, h.sizes⟩
      obtain ⟨x', r', hrun'⟩ := ih h2 rfl hlive
      refine ⟨x', r', ?_⟩
      rw [htext, hreads, hcount]
      have := hrun.trans hrun'
      refine .silent h.going.busy (by simp [h.ph]) hnext ?_
      have hfin : ∀ w : Work,
          afterCommands s (text ++ sessionText s.params s.cart s.size s.mode (formatAfter s.format [c]) cs)
          (formatAfter s.format (c :: cs)) x' w [] none =
          afterCommands (({ s with cmdInput := cs, format := formatAfter s.format [c] }.pushAll text).readsDone x
            (s.work.dumped k.1 k.2 r) [.commandLoop] v)
            (sessionText s.params s.cart s.size s.mode (formatAfter s.format [c]) cs)
            (formatAfter (formatAfter s.format [c]) cs) x' w [] none := by
        intro w
        simp [afterCommands, State.pushAll, State.readsDone, formatAfter]
      rw [hfin]
      exact this
    have hready : whenDispatching { s with cmdInput := cs } = fun k => k := by
      funext k
      have := h1.awaits
      simp [whenDispatching, this]
    have stay : ∀ f : Format, formatAfter s.format [c] = f →
        Runs { s with cmdInput := cs, format := f } []
          (({ s with cmdInput := cs, format := formatAfter s.format [c] }.pushAll []).readsDone
            ⟨s.lines.addr, s.tmr, s.byte, s.byteV⟩
            (s.work.dumped s.work.b s.work.actr (latchedRead s.work)) [.commandLoop] s.ret) := by
      intro f hf
      have g : Going { s with cmdInput := cs, format := f } :=
        ⟨h.going.busy, h.going.driven, h.going.lines, h.going.quiet⟩
      rw [State.pushAll_nil, hf, ← h.stack]
      have e := g.eq_readsDone h.ph
      exact e ▸ Runs.refl { s with cmdInput := cs, format := f }
    by_cases hh : c = 0x68#8
    · subst hh
      refine go { s with cmdInput := cs, format := .hex } [] [] _ (s.work.b, s.work.actr) _ _ ?_ (stay .hex rfl) ?_ ?_ ?_
      · rw [hstep]; simp [decodeCommand, exec, execCmdH, hready, State.setFormat]
      · simp [sessionText]
      · simp [sessionReads]
      · simp [sessionCounters]
    by_cases hb : c = 0x62#8
    · subst hb
      refine go { s with cmdInput := cs, format := .binary } [] [] _ (s.work.b, s.work.actr) _ _ ?_ (stay .binary rfl) ?_ ?_ ?_
      · rw [hstep]; simp [decodeCommand, exec, execCmdB, hready, State.setFormat]
      · simp [sessionText]
      · simp [sessionReads]
      · simp [sessionCounters]
    have hfmt : formatAfter s.format [c] = s.format := by simp [formatAfter, hh, hb]
    by_cases ho : c = 0x6F#8
    · obtain ⟨x, r, hrun⟩ := startDump_runs (d := commandDump { s with cmdInput := cs } .rom)
        (rest := [.commandLoop]) h1.going h1.ph
      refine go _ _ _ _ (4#3, s.size.rom) _ _ ?_ (by rw [hfmt]; exact hrun) ?_ ?_ ?_
      · rw [hstep, ho, ← dumpCommand_inLoop h1 .cmdO .rom]; rfl
      · subst ho; rfl
      · subst ho; rfl
      · subst ho; rfl
    by_cases ha : c = 0x61#8
    · obtain ⟨x, r, hrun⟩ := startDump_runs (d := commandDump { s with cmdInput := cs } .ram)
        (rest := [.commandLoop]) h1.going h1.ph
      refine go _ _ _ _ (4#3, s.size.ram) _ _ ?_ (by rw [hfmt]; exact hrun) ?_ ?_ ?_
      · rw [hstep, ha, ← dumpCommand_inLoop h1 .cmdA .ram]; rfl
      · subst ha; rfl
      · subst ha; rfl
      · subst ha; rfl
    · refine go { s with cmdInput := cs } [] [] _ (s.work.b, s.work.actr) _ _ ?_ (stay s.format hfmt) ?_ ?_ ?_
      · rw [hstep]; simp [decodeCommand, hh, hb, ho, ha, exec, execCmdOther, hready]
      · simp [sessionText, ho, ha]
      · simp [sessionReads, ho, ha]
      · simp [sessionCounters, ho, ha]

end Sys2Proof.Machine
end

