-- ==== Sys2Proof/Laws/Track.lean ====
section
/-! SUPPORT. What a run leaves on the lines, in BYTE and in the operand latches is what its last read cycle left there
(10_state.md R25, R29, 40_bus_read_cycle.md R129). -/

namespace Sys2Proof.Machine

/-- The part of the state that read cycles determine. -/
structure ReadPart where
  addr : Addr
  tmr : Timer
  byte : Byte
  byteV : Bool
  rChip : Chip
  rBankA : Bool
  rBankB : Bool
  rAddr : Addr

def State.readPart (s : State) : ReadPart :=
  ⟨s.lines.addr, s.tmr, s.byte, s.byteV, s.work.rChip, s.work.rBankA, s.work.rBankB, s.work.rAddr⟩

/-- The phases up to the sample, and those after it. -/
def Phase.late : Phase → Bool
  | .rb9 | .rb10 | .rb11 | .rb12 | .rb13 => true
  | _ => false

/-- `v` is a state on the way from `s` after the reads `l`, in or between read cycles. -/
structure Tracks (s : State) (l : List BusRead) (v : State) : Prop where
  quiet : Quiet v
  driven : v.driven = true
  cart : v.cart = s.cart
  lines : v.lines = linesAt v.work v.lines.addr v.ph ∧ beforeDriven v.ph = false
  bringup : v.ph ≠ some .bu3 ∧ v.ph ≠ some .bu4
  timer : v.ph = some .rb8 → v.tmr = .elapsed
  settled : v.ph = none → v.readPart = (s.afterReads l).readPart
  early : ∀ p, v.ph = some p → p.late = false →
    v.byte = (s.afterReads l).byte ∧ v.byteV = (s.afterReads l).byteV
  late : ∀ p, v.ph = some p → p.late = true →
    l.getLast? = some ⟨v.work.rChip, v.work.rBankA, v.work.rBankB, v.work.rAddr⟩ ∧ v.tmr = .elapsed
      ∧ v.byte = dev v.cart v.work.rChip v.work.rBankA v.work.rBankB v.work.rAddr ∧ v.byteV = true

theorem tracks_start {s : State} (quiet : Quiet s) (driven : s.driven = true)
    (lines : s.lines = Lines.idleAt s.lines.addr) (h : s.ph = none) : Tracks s [] s := by
  refine ⟨quiet, driven, rfl, ?_, ?_, ?_, fun _ => rfl, ?_, ?_⟩ <;> rw [h]
  · exact ⟨lines, rfl⟩
  · simp
  · simp
  · simp
  · simp

/-- A state that differs from a tracked one in other fields only, no read cycle running in either. -/
theorem Tracks.congr {s v t : State} {l : List BusRead} (h : Tracks s l v) (hv : v.ph = none) (ht : t.ph = none)
    (quiet : t.env = v.env) (driven : t.driven = v.driven) (cart : t.cart = v.cart) (lines : t.lines = v.lines)
    (part : t.readPart = v.readPart) : Tracks s l t := by
  have hl := h.lines
  rw [hv] at hl
  refine ⟨quiet.trans h.quiet, driven.trans h.driven, cart.trans h.cart, ?_, ?_, ?_, fun _ => part.trans (h.settled hv),
    ?_, ?_⟩ <;> rw [ht]
  · rw [lines]; exact ⟨hl.1, rfl⟩
  · simp
  · simp
  · simp
  · simp

/-- A control point begins a read cycle. -/
theorem Tracks.begin {s v t : State} {l : List BusRead} (h : Tracks s l v) (hv : v.ph = none) (ht : t.ph = some .rb1)
    (quiet : t.env = v.env) (driven : t.driven = v.driven) (cart : t.cart = v.cart) (lines : t.lines = v.lines)
    (byte : t.byte = v.byte ∧ t.byteV = v.byteV) : Tracks s l t := by
  have hl := h.lines
  have hs := h.settled hv
  simp only [State.readPart, ReadPart.mk.injEq] at hs
  rw [hv] at hl
  refine ⟨quiet.trans h.quiet, driven.trans h.driven, cart.trans h.cart, ?_, ?_, ?_, ?_, ?_, ?_⟩ <;> rw [ht]
  · rw [lines]; exact ⟨hl.1, rfl⟩
  · simp
  · simp
  · simp
  · intro _ _ _; rw [byte.1, byte.2]; exact ⟨hs.2.2.1, hs.2.2.2.1⟩
  · intro p hp hl; cases hp; cases hl

/-- A control point keeps track. -/
theorem Tracks.frame {s v : State} {l : List BusRead} (h : Tracks s l v) (hv : v.ph = none) (ready : Bool) (f : Frame)
    (rest : List Frame) : Tracks s l (frameStep ready f rest v) := by
  have e := frameStep_effect ready f rest v
  rcases e.reads with ⟨h1, h2, h3, h4, h5⟩ | ⟨h1, -⟩
  · refine h.congr hv (h1.trans hv) e.env e.driven e.cart e.lines ?_
    simp only [State.readPart, e.lines, e.tmr, e.byte, e.byteV, h2, h3, h4, h5]
  · exact h.begin hv h1 e.env e.driven e.cart e.lines ⟨e.byte, e.byteV⟩

theorem afterReads_snoc (s : State) (l : List BusRead) (r : BusRead) :
    s.afterReads (l ++ [r]) = s.afterReads [r] := by
  simp [State.afterReads]

theorem busReads_phase {v : State} {p : Phase} (h : v.ph = some p) (hp : p ≠ .rb8) : busReads v = [] :=
  busReads_of_ne (by rw [h]; simpa using hp)

/-- A phase keeps track. -/
theorem Tracks.phase {s v : State} {l : List BusRead} (h : Tracks s l v) {p : Phase} (hp : v.ph = some p) :
    Tracks s (l ++ busReads v) (phaseStep p v) := by
  obtain ⟨quiet, driven, cart, ⟨lines, before⟩, bringup, timer, -, early, late⟩ := h
  have e := phaseStep_effect p v
  rw [hp] at lines before bringup
  by_cases h8 : p = .rb8
  · subst h8
    have ht := timer hp
    have hdata : busData v = some (dev v.cart v.work.rChip v.work.rBankA v.work.rBankB v.work.rAddr)
        ∧ busReads v = [⟨v.work.rChip, v.work.rBankA, v.work.rBankB, v.work.rAddr⟩] := by
      generalize hL : v.lines = L at lines
      generalize L.addr = z at lines
      subst lines
      cases hc : v.work.rChip <;>
        simp [busData, busReads, State.busEnabled, hp, driven, ht, hL, hc, linesAt, Lines.idleAt, PerChip.set,
          selectedChip]
    have hstep : phaseStep .rb8 v =
        (v.storeByte (dev v.cart v.work.rChip v.work.rBankA v.work.rBankB v.work.rAddr) 0).setPh (some .rb9) := by
      simp [phaseStep, sampleData, hdata.1]
    rw [hdata.2, hstep]
    refine ⟨quiet, driven, cart, ⟨lines, rfl⟩, by simp, by simp, by simp, by simp [Phase.late], ?_⟩
    intro q hq hl
    simp at hq ⊢
    exact ht
  · rw [busReads_phase hp h8, List.append_nil]
    obtain ⟨hbyte, hbyteV, -⟩ := e.byte h8
    have hdriven : (phaseStep p v).driven = true := by
      rw [e.driven (by rintro rfl; simp [beforeDriven] at before), driven]
    have hlines : (phaseStep p v).lines = linesAt v.work (phaseStep p v).lines.addr (phaseStep p v).ph
        ∧ beforeDriven (phaseStep p v).ph = false ∧ (phaseStep p v).ph ≠ some .bu3 ∧ (phaseStep p v).ph ≠ some .bu4
        ∧ ((phaseStep p v).ph = some .rb8 → (phaseStep p v).tmr = .elapsed) := by
      cases p <;> first
        | (simp [beforeDriven] at before; done)
        | (simp at bringup; done)
        | (exact absurd rfl h8)
        | (simp only [phaseStep, assertAddress, assertBanks, assertChip, assertOutput, openLatch, raiseClock, holdLines,
            releaseBanks, releaseChip, releaseOutput, closeLatch, dropClock]
           simp
           rw [lines]
           cases hc : v.work.rChip <;> simp [linesAt, Lines.idleAt, beforeDriven, PerChip.set, hc])
    have hnext : ((phaseStep p v).ph = none → p = .rb13)
        ∧ (∀ q, (phaseStep p v).ph = some q → q.late = p.late)
        ∧ (p.late = true → (phaseStep p v).tmr = v.tmr)
        ∧ (p = .rb13 → (phaseStep p v).lines.addr = v.work.rAddr) := by
      cases p <;> first
        | (simp [beforeDriven] at before; done)
        | (simp at bringup; done)
        | (exact absurd rfl h8)
        | (simp only [phaseStep, assertAddress, assertBanks, assertChip, assertOutput, openLatch, raiseClock, holdLines,
            releaseBanks, releaseChip, releaseOutput, closeLatch, dropClock]
           simp [Phase.late]
           try rw [lines]
           try simp [linesAt, Lines.idleAt])
    refine ⟨e.env.trans quiet, hdriven, e.cart.trans cart, ?_, hlines.2.2.1 |> fun h3 => ⟨h3, hlines.2.2.2.1⟩,
      hlines.2.2.2.2, ?_, ?_, ?_⟩
    · rw [e.work]; exact ⟨hlines.1, hlines.2.1⟩
    · intro hn
      obtain rfl := hnext.1 hn
      obtain ⟨hlast, htmr, hb, hv⟩ := late _ hp rfl
      simp only [State.readPart, State.afterReads, hlast, e.work, hbyte, hbyteV, hb, hv, hnext.2.2.1 rfl, htmr,
        hnext.2.2.2 rfl, cart]
      rfl
    · intro q hq hl
      rw [hbyte, hbyteV]
      exact early p hp (by rw [← hnext.2.1 q hq]; exact hl)
    · intro q hq hl
      have hpl : p.late = true := by rw [← hnext.2.1 q hq]; exact hl
      obtain ⟨hlast, htmr, hb, hv⟩ := late p hp hpl
      rw [e.work, hbyte, hbyteV, hnext.2.2.1 hpl, e.cart]
      exact ⟨hlast, htmr, hb, hv⟩

/-- A step of an operation in progress keeps track. -/
theorem Tracks.step {s v t : State} {l : List BusRead} (h : Tracks s l v) (busy : v.busy = true)
    (next : Machine.step v = .next t) : Tracks s (l ++ busReads v) t := by
  have hq : v.env = [] := h.quiet
  cases ha : v.awaitsCommand with
  | true =>
    simp only [State.awaitsCommand, Bool.and_eq_true, beq_iff_eq] at ha
    have hp := ha.1.2
    have hr : busReads v = [] := busReads_of_ne (by rw [hp]; simp)
    rw [hr, List.append_nil]
    have hawait : v.awaitsCommand = true := by simp [State.awaitsCommand, ha]
    cases hc : v.cmdInput with
    | nil =>
      have : Machine.step v = .next (advance true v) := by
        simp [Machine.step, fetch, hq, fetchOwn, hawait, hc]
      rw [this] at next
      cases next
      have hadv : advance true v = controlStep true v := by simp [advance, busy, hp]
      rw [hadv]
      unfold controlStep
      split
      · next hs => rw [hs] at ha; simp at ha
      · exact h.frame hp _ _ _
    | cons c cs =>
      have : Machine.step v = exec (decodeCommand c) { v with cmdInput := cs } := by
        simp [Machine.step, fetch, hq, fetchOwn, hawait, hc]
      rw [this] at next
      have hacc := exec_next next
      have h' : Tracks s l { v with cmdInput := cs } := h.congr hp hp rfl rfl rfl rfl rfl
      have busy' : ¬ ({ v with cmdInput := cs } : State).busy = false := by simp [busy]
      generalize decodeCommand c = i at hacc
      cases hacc with
      | same => exact h'
      | format f _ _ => exact h'.congr hp hp rfl rfl rfl rfl rfl
      | commandInLoop => exact h'.congr hp hp rfl rfl rfl rfl rfl
      | bringup idle => exact absurd idle busy'
      | run idle => exact absurd idle busy'
      | readByte idle => exact absurd idle busy'
      | compareBlock idle => exact absurd idle busy'
      | getSize idle => exact absurd idle busy'
      | probeMode idle => exact absurd idle busy'
      | detect idle => exact absurd idle busy'
      | dump idle => exact absurd idle busy'
      | command _ idle => exact absurd idle busy'
  | false =>
    rw [step_advance h.quiet busy ha] at next
    cases next
    unfold advance
    rw [if_pos busy]
    split
    · next p hp => exact h.phase hp
    · next hp =>
      have hr : busReads v = [] := busReads_of_ne (by rw [hp]; simp)
      rw [hr, List.append_nil]
      unfold controlStep
      split
      · unfold complete
        split <;> exact h.congr hp hp rfl rfl rfl rfl rfl
      · exact h.frame hp _ _ _

theorem Tracks.runs {s v u : State} {l m : List BusRead} (h : Tracks s l v) (k : Runs v m u) : Tracks s (l ++ m) u := by
  induction k generalizing l with
  | refl => simpa using h
  | step busy next _ ih =>
    rw [← List.append_assoc]
    exact ih (h.step busy next)

end Sys2Proof.Machine
end

