-- ==== Sys2Proof/Laws/Finish.lean ====
section
/-! SUPPORT. From the loops' lemmas to whole operations: the read effects that a loop leaves are those of its last read
cycle, and completion turns the state a loop returns in into the state the host sees. -/

namespace Sys2Proof.Machine

/-- A run from between two read cycles is tracked. -/
theorem Going.tracks {s u : State} {l : List BusRead} (g : Going s) (hph : s.ph = none) (k : Runs s l u) :
    Tracks s l u := by
  simpa using (tracks_start g.quiet g.driven g.lines hph).runs k

/-- The parts of a state that reads leave alone. -/
theorem afterReads_eq (s : State) (l : List BusRead) :
    s.afterReads l = { s with
      lines := (s.afterReads l).lines
      tmr := (s.afterReads l).tmr
      byte := (s.afterReads l).byte
      byteV := (s.afterReads l).byteV
      work := { s.work with
        rChip := (s.afterReads l).work.rChip
        rBankA := (s.afterReads l).work.rBankA
        rBankB := (s.afterReads l).work.rBankB
        rAddr := (s.afterReads l).work.rAddr } } := by
  unfold State.afterReads; split <;> rfl

/-- What reads leave depends on the cartridge and on what the lines, BYTE and the latches held before. -/
theorem afterReads_readPart_congr {s t : State} (cart : t.cart = s.cart) (part : t.readPart = s.readPart)
    (l : List BusRead) : (t.afterReads l).readPart = (s.afterReads l).readPart := by
  unfold State.afterReads
  split
  · exact part
  · simp [State.readPart, Lines.idleAt, cart]

theorem afterReads_lines {s : State} (l : List BusRead) (h : s.lines = Lines.idleAt s.lines.addr) :
    (s.afterReads l).lines = Lines.idleAt (s.afterReads l).lines.addr := by
  unfold State.afterReads; split
  · exact h
  · rfl

/-- The state a loop has returned in, in terms of the reads it made: `w` keeps the last operands in its latches. -/
theorem readsDone_eq {s : State} {l : List BusRead} {x : ReadEffect} {w : Work} {rest : List Frame} {v : Option Size}
    (lines : s.lines = Lines.idleAt s.lines.addr)
    (h : (s.readsDone x w rest v).readPart = (s.afterReads l).readPart) :
    s.readsDone x w rest v = { s.afterReads l with
      work := { w with
        rChip := (s.afterReads l).work.rChip
        rBankA := (s.afterReads l).work.rBankA
        rBankB := (s.afterReads l).work.rBankB
        rAddr := (s.afterReads l).work.rAddr }
      ph := none
      stack := rest
      ret := v } := by
  have hl := afterReads_lines l lines
  have e := afterReads_eq s l
  simp only [State.readPart, State.readsDone, ReadPart.mk.injEq, Lines.idleAt] at h
  obtain ⟨h1, h2, h3, h4, h5, h6, h7, h8⟩ := h
  rw [← h5, ← h6, ← h7, ← h8]
  rw [show ({ s.afterReads l with work := w, ph := none, stack := rest, ret := v } : State) =
    { s with
      lines := (s.afterReads l).lines
      tmr := (s.afterReads l).tmr
      byte := (s.afterReads l).byte
      byteV := (s.afterReads l).byteV
      work := w
      ph := none
      stack := rest
      ret := v } by rw [e]]
  rw [hl, ← h1, ← h2, ← h3, ← h4]
  rfl

/-- The end of an operation that returned a value. -/
theorem complete_value {s : State} {r : Size} (h : s.ret = some r) (hp : s.ph = none) (hs : s.stack = []) :
    complete s = s.returned r := by
  simp only [complete, h, State.finish, State.returned, Nat.add_zero]
  rw [hp, hs]

/-- The end of an operation that returned nothing. -/
theorem complete_nothing {s : State} (h : s.ret = none) (hp : s.ph = none) (hs : s.stack = []) :
    complete s = s.returnedNothing := by
  simp only [complete, h, State.finish, State.returnedNothing]
  rw [hp, hs]

/-- The count of R151 in the terms of Safety.lean. -/
theorem PairCount.isPairCount {early : Bool} {cart : List Host.Cell} {chip : Chip} {n k : Nat}
    (h : PairCount early cart chip n 0 k) : IsPairCount early cart chip n k := by
  classical
  by_cases hb : BlocksEqual cart chip n
  · exact .inl ⟨hb, by have := h.all (.inr fun j _ hj => hb j hj); omega⟩
  · cases early with
    | false => exact .inr (.inl ⟨rfl, by have := h.all (.inl rfl); omega⟩)
    | true =>
      have hex : ∃ f, f < n ∧ ¬ PairEqual cart chip n f := by
        simp only [BlocksEqual, not_forall] at hb
        obtain ⟨f, hf, hne⟩ := hb
        exact ⟨f, hf, hne⟩
      obtain ⟨hlt, hne⟩ := Nat.find_spec hex
      have before : ∀ j, j < Nat.find hex → PairEqual cart chip n j := fun j hj => by
        by_contra hnej
        exact Nat.find_min hex hj ⟨by omega, hnej⟩
      refine .inr (.inr ⟨rfl, Nat.find hex, ⟨hlt, hne, before⟩, ?_⟩)
      have := h.first rfl (Nat.find hex) (Nat.zero_le _) hlt hne (fun j _ hj => before j hj)
      omega

/-- The reads of GET_SIZE in the terms of Safety.lean, `2 ^ j` being the first failing probe. -/
theorem sizeReads_eq {chip : Chip} {j : Nat} (hj : j ≤ 15) (c : Nat) :
    sizeReads chip j c (15 - j) = sizeSweep chip (2 ^ (j + 1)) c := by
  have hcases : j = 0 ∨ j = 1 ∨ j = 2 ∨ j = 3 ∨ j = 4 ∨ j = 5 ∨ j = 6 ∨ j = 7 ∨ j = 8 ∨ j = 9 ∨ j = 10 ∨ j = 11
      ∨ j = 12 ∨ j = 13 ∨ j = 14 ∨ j = 15 := by omega
  rcases hcases with rfl | rfl | rfl | rfl | rfl | rfl | rfl | rfl | rfl | rfl | rfl | rfl | rfl | rfl | rfl | rfl <;>
    simp [sizeReads, sizeSweep, probes]

/-- The value of R156 in the terms of Safety.lean. -/
theorem FirstFailure.isDetectedSize {cart : List Host.Cell} {chip : Chip} {j : Nat} (h : FirstFailure cart chip j) :
    IsDetectedSize cart chip (2 ^ (j + 1)) := by
  have mem : ∀ q, q ∈ probes → ∃ i, i ≤ 15 ∧ q = 2 ^ i := by
    intro q hq
    simp only [probes, List.mem_cons, List.not_mem_nil, or_false] at hq
    rcases hq with rfl | rfl | rfl | rfl | rfl | rfl | rfl | rfl | rfl | rfl | rfl | rfl | rfl | rfl | rfl | rfl
    exacts [⟨15, by decide, rfl⟩, ⟨14, by decide, rfl⟩, ⟨13, by decide, rfl⟩, ⟨12, by decide, rfl⟩,
      ⟨11, by decide, rfl⟩, ⟨10, by decide, rfl⟩, ⟨9, by decide, rfl⟩, ⟨8, by decide, rfl⟩, ⟨7, by decide, rfl⟩,
      ⟨6, by decide, rfl⟩, ⟨5, by decide, rfl⟩, ⟨4, by decide, rfl⟩, ⟨3, by decide, rfl⟩, ⟨2, by decide, rfl⟩,
      ⟨1, by decide, rfl⟩, ⟨0, by decide, rfl⟩]
  have mem' : ∀ i, i ≤ 15 → 2 ^ i ∈ probes := by
    intro i hi
    have hcases : i = 0 ∨ i = 1 ∨ i = 2 ∨ i = 3 ∨ i = 4 ∨ i = 5 ∨ i = 6 ∨ i = 7 ∨ i = 8 ∨ i = 9 ∨ i = 10 ∨ i = 11
        ∨ i = 12 ∨ i = 13 ∨ i = 14 ∨ i = 15 := by omega
    rcases hcases with rfl | rfl | rfl | rfl | rfl | rfl | rfl | rfl | rfl | rfl | rfl | rfl | rfl | rfl | rfl | rfl <;>
      decide
  have hle := h.le
  have hfails := h.fails
  by_cases h15 : j = 15
  · subst h15
    exact .inl ⟨hfails, rfl⟩
  · have hlt : j + 1 ≤ 15 := by omega
    refine .inr ⟨h.above 15 (by omega) (by omega), mem' _ hlt, ?_, ?_⟩
    · intro q hq hqp
      obtain ⟨i, hi, rfl⟩ := mem q hq
      have : j + 1 ≤ i := (Nat.pow_le_pow_iff_right (by omega : 1 < 2)).mp hqp
      exact h.above i (by omega) hi
    · intro q hq hhold
      obtain ⟨i, hi, rfl⟩ := mem q hq
      refine Nat.pow_le_pow_right (by omega) ?_
      by_contra hni
      exact hfails (hhold _ (mem' j hle) (Nat.pow_le_pow_right (by omega) (by omega)))

end Sys2Proof.Machine
end

