-- ==== Sys2Proof/Laws/Memory.lean ====
section
/-! SUPPORT. The laws of the cartridge as memory: a read after a write, and that a write keeps the canonical form. -/

namespace Sys2Proof.Machine

theorem Memory.read_cons_ne {k key : Nat} {v : Byte} {rest : List Host.Cell} (h : k ≠ key) :
    Memory.read ((k, v) :: rest) key = Memory.read rest key := by
  simp [Memory.read, h]

/-- Below the lower bound of a canonical list nothing is listed. -/
theorem Memory.read_below {lo key : Nat} {cells : List Host.Cell} (hc : Memory.canonicalFrom lo cells = true)
    (h : key < lo) : Memory.read cells key = unlistedByte := by
  induction cells generalizing lo with
  | nil => rfl
  | cons c rest ih =>
    obtain ⟨k, v⟩ := c
    simp only [Memory.canonicalFrom, Bool.and_eq_true, decide_eq_true_eq, bne_iff_ne] at hc
    obtain ⟨⟨⟨hlo, _⟩, _⟩, hrest⟩ := hc
    rw [Memory.read_cons_ne (by omega)]
    exact ih hrest (by omega)

theorem Memory.canonicalFrom_mono {lo lo' : Nat} {cells : List Host.Cell} (h : lo' ≤ lo)
    (hc : Memory.canonicalFrom lo cells = true) : Memory.canonicalFrom lo' cells = true := by
  cases cells with
  | nil => rfl
  | cons c rest =>
    obtain ⟨k, v⟩ := c
    simp only [Memory.canonicalFrom, Bool.and_eq_true, decide_eq_true_eq] at hc ⊢
    exact ⟨⟨⟨by omega, hc.1.1.2⟩, hc.1.2⟩, hc.2⟩

theorem Memory.put_canonical {lo key : Nat} {v : Byte} {rest : List Host.Cell} (hlo : lo ≤ key)
    (hkey : key < numLocations) (hrest : Memory.canonicalFrom (key + 1) rest = true) :
    Memory.canonicalFrom lo (Memory.put key v rest) = true := by
  unfold Memory.put
  split
  · exact Memory.canonicalFrom_mono (by omega) hrest
  · next hv => simp [Memory.canonicalFrom, hlo, hkey, hv, hrest]

/-- A write inside the space keeps the canonical form. -/
theorem Memory.write_canonical {lo key : Nat} {v : Byte} {cells : List Host.Cell} (hlo : lo ≤ key)
    (hkey : key < numLocations) (hc : Memory.canonicalFrom lo cells = true) :
    Memory.canonicalFrom lo (Memory.write cells key v) = true := by
  induction cells generalizing lo with
  | nil => exact Memory.put_canonical hlo hkey rfl
  | cons c rest ih =>
    obtain ⟨k, u⟩ := c
    simp only [Memory.canonicalFrom, Bool.and_eq_true, decide_eq_true_eq] at hc
    obtain ⟨⟨⟨hk, hklt⟩, hu⟩, hrest⟩ := hc
    unfold Memory.write
    split
    · refine Memory.put_canonical hlo hkey ?_
      simp only [Memory.canonicalFrom, Bool.and_eq_true, decide_eq_true_eq]
      exact ⟨⟨⟨by omega, hklt⟩, hu⟩, hrest⟩
    · split
      · next heq =>
        subst heq
        exact Memory.put_canonical hlo hkey hrest
      · simp only [Memory.canonicalFrom, Bool.and_eq_true, decide_eq_true_eq]
        exact ⟨⟨⟨hk, hklt⟩, hu⟩, ih (by omega) hrest⟩

theorem Memory.write_wf {key : Nat} {v : Byte} {cells : List Host.Cell} (hkey : key < numLocations)
    (hc : Memory.wf cells = true) : Memory.wf (Memory.write cells key v) = true :=
  Memory.write_canonical (Nat.zero_le _) hkey hc

theorem Memory.read_put_same {key : Nat} {v : Byte} {rest : List Host.Cell}
    (hrest : Memory.read rest key = unlistedByte) : Memory.read (Memory.put key v rest) key = v := by
  unfold Memory.put
  split
  · next hv => rw [hrest, hv]
  · simp [Memory.read]

theorem Memory.read_put_other {key key' : Nat} {v : Byte} {rest : List Host.Cell} (h : key ≠ key') :
    Memory.read (Memory.put key v rest) key' = Memory.read rest key' := by
  unfold Memory.put
  split
  · rfl
  · exact Memory.read_cons_ne h

/-- A read after a write to the same location gives the value written. -/
theorem Memory.read_write_same {lo key : Nat} {v : Byte} {cells : List Host.Cell}
    (hc : Memory.canonicalFrom lo cells = true) : Memory.read (Memory.write cells key v) key = v := by
  induction cells generalizing lo with
  | nil => exact Memory.read_put_same rfl
  | cons c rest ih =>
    obtain ⟨k, u⟩ := c
    simp only [Memory.canonicalFrom, Bool.and_eq_true, decide_eq_true_eq] at hc
    obtain ⟨⟨⟨hk, hklt⟩, hu⟩, hrest⟩ := hc
    unfold Memory.write
    split
    · next hlt =>
      apply Memory.read_put_same
      rw [Memory.read_cons_ne (by omega)]
      exact Memory.read_below hrest (by omega)
    · split
      · next heq =>
        subst heq
        exact Memory.read_put_same (Memory.read_below hrest (by omega))
      · next hne =>
        rw [Memory.read_cons_ne (fun h => hne h.symm)]
        exact ih hrest

/-- A write leaves every other location alone. -/
theorem Memory.read_write_other {key key' : Nat} {v : Byte} {cells : List Host.Cell} (h : key ≠ key') :
    Memory.read (Memory.write cells key v) key' = Memory.read cells key' := by
  induction cells with
  | nil => exact Memory.read_put_other h
  | cons c rest ih =>
    obtain ⟨k, u⟩ := c
    unfold Memory.write
    split
    · exact Memory.read_put_other h
    · split
      · next heq =>
        subst heq
        rw [Memory.read_put_other h, Memory.read_cons_ne h]
      · by_cases hk : k = key'
        · simp [Memory.read, hk]
        · rw [Memory.read_cons_ne hk, Memory.read_cons_ne hk, ih]

/-- Every location lies inside the space. -/
theorem location_lt (chip : Chip) (bankA bankB : Bool) (a : Addr) : location chip bankA bankB a < numLocations := by
  have := a.isLt
  cases chip <;> cases bankA <;> cases bankB <;>
    simp [location, Chip.bit, numLocations] <;> omega

/-- Distinct locations have distinct keys. -/
theorem location_injective {c c' : Chip} {ba ba' bb bb' : Bool} {a a' : Addr}
    (h : location c ba bb a = location c' ba' bb' a') : c = c' ∧ ba = ba' ∧ bb = bb' ∧ a = a' := by
  have h1 := a.isLt
  have h2 := a'.isLt
  cases c <;> cases c' <;> cases ba <;> cases ba' <;> cases bb <;> cases bb' <;>
    simp [location, Chip.bit] at h ⊢ <;> first | exact BitVec.eq_of_toNat_eq (by omega) | omega

end Sys2Proof.Machine
end

