-- ==== Sys2Proof/Laws/PerInstr.lean ====
section
/-! SUPPORT. Per-instruction lemmas: the length of every instruction's encoding (30_encoding.md R100: a request is always
32 bits, a command always 8 bits). -/

namespace Sys2Proof.Laws.WordLength

/-- Whether the instruction is a command byte of the host layer (R90, R96). -/
def isCommand : Instr → Bool
  | .cmdH | .cmdB | .cmdO | .cmdA | .cmdOther _ => true
  | _ => false

/-- A command is one byte, a request four (R100). -/
def Statement (i : Instr) : Prop := (encode i).length = if isCommand i then 1 else 4

theorem nop : Statement .nop := rfl

theorem bringup : Statement .bringup := rfl

theorem readByte (chip : Chip) (bankA bankB : Bool) (address : Addr) : Statement (.readByte chip bankA bankB address) := rfl

theorem compareBlock (chip : Chip) (blockSize : Size) : Statement (.compareBlock chip blockSize) := rfl

theorem getSize (chip : Chip) : Statement (.getSize chip) := rfl

theorem probeMode (chip : Chip) : Statement (.probeMode chip) := rfl

theorem detect : Statement .detect := rfl

theorem dump (chip : Chip) (affectsA affectsB : Bool) (size : Size) (format : Format) : Statement (.dump chip affectsA affectsB size format) := rfl

theorem run : Statement .run := rfl

theorem reserved9 : Statement .reserved9 := rfl

theorem reservedA : Statement .reservedA := rfl

theorem reservedB : Statement .reservedB := rfl

theorem reservedC : Statement .reservedC := rfl

theorem reservedD : Statement .reservedD := rfl

theorem reservedE : Statement .reservedE := rfl

theorem reservedF : Statement .reservedF := rfl

theorem cmdH : Statement .cmdH := rfl

theorem cmdB : Statement .cmdB := rfl

theorem cmdO : Statement .cmdO := rfl

theorem cmdA : Statement .cmdA := rfl

theorem cmdOther (opcode : Byte) : Statement (.cmdOther opcode) := rfl

end Sys2Proof.Laws.WordLength
end

