-- ==== Sys2Proof/Tests/Slice0.lean ====
section
/-! SUPPORT. The model's own tests: what the well-formedness check refuses, words written out from the spec's encodings,
single steps with the results of 95_test_vectors.md, and for every obligation with hypotheses a state and operands that
meet them together. -/

namespace Sys2Proof.Tests

open Sys2Proof Sys2Proof.Machine

/-! Small states. -/

def params : Config.Params where
  holdExtraUs := 0
  resetExtraUs := 0
  fClkHz := 1000000
  compareEarlyExit := true
  hexUppercase := true
  rstActiveLevel := false
  bankAssertLevel := true
  banner := ⟨[], [], [], [], [], [], [], [], 0, 0, 0⟩

/-- Power-on, with the parameters above. -/
def cold : State := { State.reset with params := params }

/-- After bring-up, idle. -/
def warm (cart : List Host.Cell) : State := { cold with driven := true, cart := cart }

/-- After detection, idle. -/
def known (cart : List Host.Cell) : State :=
  { warm cart with
    size := ⟨4, 2⟩
    sizeV := ⟨true, true⟩
    mode := ⟨⟨true, false⟩, ⟨false, false⟩⟩
    modeV := ⟨true, true⟩ }

/-- RUN at the head of its command loop. -/
def loop (cart : List Host.Cell) (cs : List Byte) (live : Bool) : State :=
  { known cart with busy := true, op := .run, stack := [.commandLoop], cmdInput := cs, cmdLive := live }

/-- READ_BYTE in a phase, with the lines that the phase begins with. -/
def reading (cart : List Host.Cell) (chip : Chip) (bankA bankB : Bool) (address : Addr) (p : Phase) (l : Lines)
    (t : Timer) : State :=
  { warm cart with
    busy := true, op := .readByte, ph := some p, lines := l, tmr := t
    work := { Work.reset with rChip := chip, rBankA := bankA, rBankB := bankB, rAddr := address } }

/-- An operation at a control point. -/
def standing (cart : List Host.Cell) (op : Op) (frames : List Frame) : State :=
  { warm cart with busy := true, op := op, stack := frames }

/-- The next state, if there is one. -/
def nextOf : Result → Option State
  | .next t => some t
  | .fault _ => none
  | .refused _ => none

/-- Why there is none. -/
def refusalOf : Result → Option Refusal
  | .next _ => none
  | .fault _ => none
  | .refused r => some r

/-- The vector LINES after one step. -/
def linesAfter (s : State) : Option (BitVec 25) := (nextOf (step s)).map (fun t => t.lines.pack)

/-! What the well-formedness check refuses (R95, R96). -/

theorem test_wf_compare_above : (Instr.compareBlock .rom 65537#17).wellFormed = false := by decide
theorem test_wf_compare_bound : (Instr.compareBlock .rom 65536#17).wellFormed = true := by decide
theorem test_wf_dump_above : (Instr.dump .rom false false 65537#17 .binary).wellFormed = false := by decide
theorem test_wf_other_h : (Instr.cmdOther 0x68#8).wellFormed = false := by decide
theorem test_wf_other_b : (Instr.cmdOther 0x62#8).wellFormed = false := by decide
theorem test_wf_other_o : (Instr.cmdOther 0x6F#8).wellFormed = false := by decide
theorem test_wf_other_a : (Instr.cmdOther 0x61#8).wellFormed = false := by decide

/-! Words written out from R91, R92, R96 and R103, field by field. -/

theorem test_decode_nop : decodeTableWord 32 0b0000_0000000000000000000000000000 = some .nop := by decide
theorem test_decode_bringup : decodeTableWord 32 0b0001_0000000000000000000000000000 = some .bringup := by decide
theorem test_decode_readByte : decodeTableWord 32 0b0010_1_000000000_0_1_0001001000110100
    = some (.readByte .ram true false 0x1234#16) := by decide
theorem test_decode_readByte_bankB : decodeTableWord 32 0b0010_0_000000000_1_0_0000000000000000
    = some (.readByte .rom false true 0#16) := by decide
theorem test_decode_compareBlock : decodeTableWord 32 0b0011_1_0000000000_10000000000000000
    = some (.compareBlock .ram 65536#17) := by decide
theorem test_decode_getSize : decodeTableWord 32 0b0100_1_000000000000000000000000000 = some (.getSize .ram) := by decide
theorem test_decode_probeMode : decodeTableWord 32 0b0101_1_000000000000000000000000000 = some (.probeMode .ram) := by
  decide
theorem test_decode_detect : decodeTableWord 32 0b0110_0000000000000000000000000000 = some .detect := by decide
-- DUMP's size field `REQ[16:0]` lies below its flags, affectsB at bit 18 and affectsA at bit 17 (R92); V5.3 and V5.5.
theorem test_decode_dump : decodeTableWord 32 0b0111_0_1_0000000_0_0_00000000000000100
    = some (.dump .rom false false 4#17 .hex) := by decide
theorem test_decode_dump_flags : decodeTableWord 32 0x70020002 = some (.dump .rom true false 2#17 .binary)
    ∧ decodeTableWord 32 0x70040002 = some (.dump .rom false true 2#17 .binary) := by decide
theorem test_decode_run : decodeTableWord 32 0b1000_0000000000000000000000000000 = some .run := by decide
theorem test_decode_reserved9 : decodeTableWord 32 0x90000000 = some .reserved9 := by decide
theorem test_decode_reservedA : decodeTableWord 32 0xA0000000 = some .reservedA := by decide
theorem test_decode_reservedB : decodeTableWord 32 0xB0000000 = some .reservedB := by decide
theorem test_decode_reservedC : decodeTableWord 32 0xC0000000 = some .reservedC := by decide
theorem test_decode_reservedD : decodeTableWord 32 0xD0000000 = some .reservedD := by decide
theorem test_decode_reservedE : decodeTableWord 32 0xE0000000 = some .reservedE := by decide
theorem test_decode_reservedF : decodeTableWord 32 0xFFFFFFFF = some .reservedF := by decide
theorem test_decode_cmdH : decodeTableWord 8 0b01101000 = some .cmdH := by decide
theorem test_decode_cmdB : decodeTableWord 8 0b01100010 = some .cmdB := by decide
theorem test_decode_cmdO : decodeTableWord 8 0b01101111 = some .cmdO := by decide
theorem test_decode_cmdA : decodeTableWord 8 0b01100001 = some .cmdA := by decide
theorem test_decode_cmdOther : decodeTableWord 8 0b01001000 = some (.cmdOther 0x48#8) := by decide
theorem test_decode_length : decode [0x68#8, 0x62#8] = .error (.noSuchLength 2) := by rfl

/-! Single steps. -/

/-- V1.6: no change of any state, before or after bring-up. -/
theorem test_nop : nextOf (exec .nop cold) = some cold ∧ nextOf (exec .nop (warm [])) = some (warm []) := by decide
theorem test_reserved : nextOf (exec .reservedA cold) = some cold ∧ nextOf (exec .reserved9 cold) = some cold
    ∧ nextOf (exec .reservedF (warm [])) = some (warm []) := by decide

/-- V1.7, P5: refusals. -/
theorem test_read_before_bringup : refusalOf (exec (.readByte .rom false false 0#16) cold) = some .notBroughtUp := by
  decide
theorem test_second_bringup : refusalOf (exec .bringup (warm [])) = some .alreadyBroughtUp := by decide
theorem test_request_while_busy :
    refusalOf (step { loop [] [] true with env := [.request 0#32] }) = some .concurrentInvocation := by decide
theorem test_compare_above : refusalOf (exec (.compareBlock .rom 65537#17) (warm [])) = some .operandOutOfDomain := by
  decide
theorem test_dump_above : refusalOf (exec (.dump .rom false false 65537#17 .binary) (warm [])) = some .operandOutOfDomain := by
  decide
theorem test_second_detect : refusalOf (exec .detect (known [])) = some .alreadyDetected := by decide
theorem test_cmdO_undetected : refusalOf (exec .cmdO (warm [])) = some .registerNotValid := by decide

/-- V1.1: after BU1 only RST is defined; after BU2 LINES is 0x17C0000; after BU4 it is 0x07C0000. -/
theorem test_bu1 : (nextOf (step { cold with busy := true, ph := some .bu1 })).map
    (fun t => (t.lineLevels, t.rstLevel)) = some (none, some true) := by decide
theorem test_bu2 : (nextOf (step { cold with
    busy := true, ph := some .bu2, lines := { Lines.idleAt 0x1234#16 with rst := true, oeN := false } })).map
    (fun t => (t.driven, t.lines.pack)) = some (true, 0x17C0000#25) := by decide
theorem test_bu4 : linesAfter { warm [] with
    busy := true, ph := some .bu4, lines := { Lines.idleAt 0 with rst := true } } = some 0x07C0000#25 := by decide

/-- V1.3, phase by phase: RB3, RB6, RB9 and RB10 of `READ_BYTE RAM, 1, 0, 0x1234`, each from the row before. -/
theorem test_rb3 : linesAfter (reading [] .ram true false 0x1234#16 .rb3
    { Lines.idleAt 0x1234#16 with bankA := true } .stopped) = some 0x0751234#25 := by decide
theorem test_rb6 : linesAfter (reading [] .ram true false 0x1234#16 .rb6
    { Lines.idleAt 0x1234#16 with bankA := true, ceN := ⟨true, false⟩, oeN := false, latchN := false } .stopped)
    = some 0x0A51234#25 := by decide
theorem test_rb9 : linesAfter (reading [] .ram true false 0x1234#16 .rb9
    { Lines.idleAt 0x1234#16 with bankA := true, ceN := ⟨true, false⟩, oeN := false, latchN := false, clk := true }
    .elapsed) = some 0x0A41234#25 := by decide
theorem test_rb10 : linesAfter (reading [] .ram true false 0x1234#16 .rb10
    { Lines.idleAt 0x1234#16 with ceN := ⟨true, false⟩, oeN := false, latchN := false, clk := true } .elapsed)
    = some 0x0AC1234#25 := by decide

/-- V1.3: the sample of `Dev(RAM, true, false, 0x1234)` = 0x7E; its key is 262144 + 65536 + 4660. -/
theorem test_rb8 : (nextOf (step (reading [(332340, 0x7E#8)] .ram true false 0x1234#16 .rb8
    { Lines.idleAt 0x1234#16 with bankA := true, ceN := ⟨true, false⟩, oeN := false, latchN := false, clk := true }
    .elapsed))).map (fun t => (t.byte, t.byteV)) = some (0x7E#8, true) := by decide

/-- V1.2: the end of `READ_BYTE`: RESULT = 0x00030, BUSY false. -/
theorem test_read_result : (nextOf (step { warm [] with busy := true, op := .readByte, ret := some 0x30#17 })).map
    (fun t => (t.busy, readResult t |>.toOption)) = some (false, some 0x00030#17) := by decide

/-- V2.1: `COMPARE_BLOCK ROM, 0` reads nothing and is true. -/
theorem test_compare_empty : (nextOf (step (standing [] .compareBlock [.compareHead .rom false]))).map
    (fun t => (t.ret, t.stack)) = some (some 1#17, []) := by decide

/-- V2.9: the second address of pair 1 at block size 65535 is 0x0000 (R69). -/
theorem test_pair_wraps : pairAddr 1#17 65535#17 = 0x0000#16 ∧ pairAddr 0#17 65535#17 = 0xFFFF#16 := by decide

/-- V2.2: 0x10 against 0x20 ends the comparison with 0. -/
theorem test_compare_unequal : (nextOf (step { standing [] .compareBlock [.compareSecond .rom false] with
    byte := 0x20#8, work := { Work.reset with first := 0x10#8, bs := 1 } })).map (fun t => (t.ret, t.stack))
    = some (some 0#17, []) := by decide

/-- V3.2: the first comparison fails: 65536 is returned. -/
theorem test_size_sentinel : (nextOf (step { standing [] .getSize [.sizeTest .rom] with
    ret := some 0#17, work := { Work.reset with sizeW := 65536#17, probe := 32768#16 } })).map (fun t => t.ret)
    = some (some 0x10000#17) := by decide

/-- V3.14: at probe 1 the same probe is tested again. -/
theorem test_size_repeats : (nextOf (step { standing [] .getSize [.sizeTest .rom] with
    ret := some 1#17, work := { Work.reset with sizeW := 2#17, probe := 1#16 } })).map
    (fun t => (t.work.sizeW, t.work.probe, t.stack)) = some (1#17, 1#16, [.sizeLoop .rom]) := by decide

/-- V4.2: 0x5A against 0xA5 with A and 0x5A with B: RESULT = 0x00001. -/
theorem test_probe_result : (nextOf (step { standing [] .probeMode [.probeB .rom] with
    byte := 0x5A#8, work := { Work.reset with base := 0x5A#8, fa := true } })).map (fun t => t.ret)
    = some (some 0x00001#17) := by decide

/-- R174: the four writes of DETECT happen together. -/
theorem test_detect_stores : (nextOf (step { standing [] .detect [.detectRamProbed 4#17 2#17 ⟨true, false⟩] with
    work := { Work.reset with fa := false, fb := true } })).map (fun t => (t.size, t.mode, t.allDetected))
    = some (⟨4#17, 2#17⟩, ⟨⟨true, false⟩, ⟨false, true⟩⟩, true) := by decide

/-- V5.10: 0xAB and 0x0F in both cases of the digits. -/
theorem test_render_hex : render params .hex 0xAB#8 ++ render params .hex 0x0F#8 = [0x41#8, 0x42, 0x20, 0x30, 0x46, 0x20]
    ∧ render { params with hexUppercase := false } .hex 0xC0#8 = [0x63#8, 0x30, 0x20] := by decide

/-- V5.5: with affectsB alone bank index 1 is skipped. -/
theorem test_dump_skips : (nextOf (step { standing [] .dump [.dumpBank ⟨.rom, false, true, 2, .binary⟩] with
    work := { Work.reset with b := 1 } })).map (fun t => (t.work.b, t.stack))
    = some (2#3, [.dumpBank ⟨.rom, false, true, 2, .binary⟩]) := by decide

/-- R191: RUN begins with bring-up and a Binary format. -/
theorem test_run : (nextOf (exec .run { cold with format := .hex })).map (fun t => (t.busy, t.op, t.ph, t.format))
    = some (true, .run, some .bu1, .binary) := by decide

/-- V6.1, V6.3: FORMAT. -/
theorem test_cmdH : (nextOf (step { known [] with env := [.command 0x68#8] })).map (fun t => t.format) = some .hex := by
  decide
theorem test_cmdB : (nextOf (step (loop [] [0x62#8] true))).map (fun t => (t.format, t.cmdInput)) = some (.binary, []) := by
  decide

/-- V6.4: `o` is `DUMP ROM, 1, 0, 4, BIN`; V6.5: `a` under Hex is `DUMP RAM, 0, 0, 2, HEX`. -/
theorem test_cmdO : (nextOf (exec .cmdO (known []))).map (fun t => (t.op, t.stack))
    = some (.cmdO, [.dumpBank ⟨.rom, true, false, 4, .binary⟩]) := by decide
theorem test_cmdA : (nextOf (exec .cmdA { loop [] [] true with format := .hex })).map (fun t => (t.op, t.stack))
    = some (.run, [.dumpBank ⟨.ram, false, false, 2, .hex⟩, .commandLoop]) := by decide

/-- V6.6. -/
theorem test_cmdOther : nextOf (exec (.cmdOther 0x78#8) (known [])) = some (known []) := by decide

/-- V7: 256 is $0100 and 65536 is $10000. -/
theorem test_size_text : sizeText true 256#17 = [0x30#8, 0x31, 0x30, 0x30]
    ∧ sizeText true 65536#17 = [0x31#8, 0x30, 0x30, 0x30, 0x30] := by decide

/-- R197: "P25.2 does not affect ROM contents" and "P25.3 affects RAM contents", as ASCII. -/
theorem test_report_lines : (reportLine false .rom false).map BitVec.toNat
      = [80, 50, 53, 46, 50, 32, 100, 111, 101, 115, 32, 110, 111, 116, 32, 97, 102, 102, 101, 99, 116, 32,
        82, 79, 77, 32, 99, 111, 110, 116, 101, 110, 116, 115]
    ∧ (reportLine true .ram true).map BitVec.toNat
      = [80, 50, 53, 46, 51, 32, 97, 102, 102, 101, 99, 116, 115, 32, 82, 65, 77, 32, 99, 111, 110, 116, 101, 110, 116, 115] := by
  decide

/-- R212: reset in the middle of a read cycle. -/
theorem test_external_reset : (nextOf (step { reading [] .rom false false 0#16 .rb5 (Lines.idleAt 0) .stopped with
    env := [.externalReset] })).map (fun t => (t.busy, t.driven, t.ph)) = some (false, false, none) := by decide

/-! Cartridges for the witnesses. -/

/-- One byte that is not 0xFF, in the ROM. -/
def oddRom : List Host.Cell := [(0, 0x30#8)]

/-- One such byte in each chip. -/
def oddBoth : List Host.Cell := [(0, 0x30#8), (262144, 0x31#8)]

theorem uniform_empty (chip : Chip) : Uniform [] chip := by
  intro a
  simp only [dev, Memory.read]

theorem oddRom_rom : ¬ Uniform oddRom .rom := fun h => absurd (h 1) (by decide)

theorem oddRom_ram : Uniform oddRom .ram := by
  intro a
  have other : ∀ a : Addr, 0 ≠ location .ram false false a := by intro a; simp [location, Chip.bit]; omega
  simp only [dev, oddRom, Memory.read, if_neg (other _)]

theorem oddBoth_rom : ¬ Uniform oddBoth .rom := fun h => absurd (h 1) (by decide)

theorem oddBoth_ram : ¬ Uniform oddBoth .ram := fun h => absurd (h 1) (by decide)

theorem warm_ready (cart : List Host.Cell) : Ready (warm cart) := ⟨rfl, rfl, rfl, rfl⟩

theorem known_ready (cart : List Host.Cell) : Ready (known cart) := ⟨rfl, rfl, rfl, rfl⟩

/-! States of the invariant. -/

theorem inv_warm : Inv (warm oddBoth) where
  cartridge := by decide
  op := by decide
  idle := fun _ => ⟨rfl, rfl⟩
  driven := fun _ => ⟨rfl, rfl⟩
  notDriven := fun h => by cases h
  timer := ⟨(fun h => by cases h), (fun h => by cases h)⟩
  stack := rfl
  ranges := rfl
  together := .inl rfl
  detection := by decide
  sizes := fun h => by cases h

theorem inv_loop (cs : List Byte) (live : Bool) : Inv (loop oddBoth cs live) where
  cartridge := by simp only [loop, known, warm]; decide
  op := by simp [loop]
  idle := fun h => by cases h
  driven := fun _ => ⟨rfl, rfl⟩
  notDriven := fun h => by cases h
  timer := ⟨(fun h => by cases h), (fun h => by cases h)⟩
  stack := rfl
  ranges := rfl
  together := .inr rfl
  detection := by simp only [loop, known, warm]; exact fun _ => rfl
  sizes := fun _ => ⟨rfl, rfl⟩

/-- The line state of R125 for the RAM, line A, address 0xFFFF. -/
def sampled : State := reading oddBoth .ram true false 0xFFFF#16 .rb8
  { Lines.idleAt 0xFFFF#16 with bankA := true, ceN := ⟨true, false⟩, oeN := false, latchN := false, clk := true } .elapsed

theorem inv_sampled : Inv sampled where
  cartridge := by decide
  op := by decide
  idle := fun h => by cases h
  driven := fun _ => ⟨rfl, rfl⟩
  notDriven := fun h => by cases h
  timer := ⟨(fun h => by cases h), fun _ => rfl⟩
  stack := rfl
  ranges := rfl
  together := .inl rfl
  detection := by decide
  sizes := fun h => by cases h

/-- PROBE_MODE at its first control point. -/
def probing : State := standing oddBoth .probeMode [.probeStart .rom]

theorem inv_probing : Inv probing where
  cartridge := by decide
  op := by decide
  idle := fun h => by cases h
  driven := fun _ => ⟨rfl, rfl⟩
  notDriven := fun h => by cases h
  timer := ⟨(fun h => by cases h), (fun h => by cases h)⟩
  stack := rfl
  ranges := rfl
  together := .inl rfl
  detection := by decide
  sizes := fun h => by cases h

/-! The witnesses: for each obligation with hypotheses, a state and operands that meet them all. -/

theorem witness_DecodeOfEncodeIsIdentity : (Instr.compareBlock .ram 65536#17).wellFormed = true
    ∧ (Instr.dump .ram true true 65536#17 .hex).wellFormed = true ∧ (Instr.cmdOther 0xFF#8).wellFormed = true := by decide

theorem witness_ExternalResetGivesThePowerOnState :
    ({ loop oddBoth [] true with env := [.externalReset] } : State).env = .externalReset :: [] := rfl

theorem witness_PowerOnStartsRun : (Quiet cold ∧ cold.busy = false ∧ cold.atPowerOn = true ∧ cold.autoRun = true)
    ∧ ∃ t, ({ loop [] [] true with env := [.externalReset] } : State).env = [.externalReset]
      ∧ (loop [] [] true).autoRun = true ∧ step { loop [] [] true with env := [.externalReset] } = .next t :=
  ⟨⟨rfl, rfl, rfl, rfl⟩, _, rfl, rfl, rfl⟩

theorem witness_StepRunsTheDecodedInstruction : (warm []).busy = false ∧ (loop [] [0x68#8] true).awaitsCommand = true
    ∧ Quiet (loop [] [0x68#8] true) ∧ (loop [] [0x68#8] true).cmdInput = 0x68#8 :: [] := ⟨rfl, rfl, rfl, rfl⟩

theorem witness_ConcurrentInvocationIsRefused : (loop [] [] true).busy = true := rfl

theorem witness_ReadingOperationsNeedBringup : cold.busy = false ∧ cold.driven = false := ⟨rfl, rfl⟩

theorem witness_NopAndReservedCodesChangeNothing : cold.busy = false
    ∧ Instr.reservedF ∈ ([.nop, .reserved9, .reservedA, .reservedB, .reservedC, .reservedD, .reservedE, .reservedF]
      : List Instr) := by decide

theorem witness_BringupDrivesTheLinesIdle : (cold.busy = false ∧ Quiet cold ∧ cold.driven = false)
    ∧ (warm []).busy = false ∧ Quiet (warm []) ∧ (warm []).driven = true := ⟨⟨rfl, rfl, rfl⟩, rfl, rfl, rfl⟩

theorem witness_ReadCycleLineTrace :
    let s := reading oddRom .rom true true 0xFFFF#16 .rb1 (Lines.idleAt 0x1234#16) .stopped
    s.busy = true ∧ Quiet s ∧ s.driven = true ∧ s.lines = Lines.idleAt s.lines.addr ∧ s.ph = some .rb1 :=
  ⟨rfl, rfl, rfl, rfl, rfl⟩

theorem witness_ReadByteReturnsTheDeviceByte : (cold.busy = false ∧ Quiet cold ∧ cold.driven = false)
    ∧ (let s := { warm [] with lines := { Lines.idleAt 0 with clk := true } }
      s.busy = false ∧ Quiet s ∧ s.driven = true ∧ s.lines.isIdle = false)
    ∧ (warm oddRom).busy = false ∧ Quiet (warm oddRom) ∧ (warm oddRom).driven = true
    ∧ (warm oddRom).lines.isIdle = true := ⟨⟨rfl, rfl, rfl⟩, ⟨rfl, rfl, rfl, rfl⟩, rfl, rfl, rfl, rfl⟩

theorem witness_SampleUnderTheDeviceContract : sampled.busy = true ∧ Quiet sampled ∧ sampled.ph = some .rb8
    ∧ sampled.driven = true ∧ sampled.tmr = .elapsed
    ∧ sampled.lines = { Lines.idleAt 0xFFFF#16 with
      bankA := true, bankB := false, ceN := ⟨Chip.ram != .rom, Chip.ram != .ram⟩, oeN := false, latchN := false,
      clk := true } := ⟨rfl, rfl, rfl, rfl, rfl, rfl⟩

theorem witness_EverySampleIsUnderTheContract : Inv sampled ∧ sampled.busy = true ∧ sampled.ph = some .rb8 :=
  ⟨inv_sampled, rfl, rfl⟩

theorem witness_WaitsAreNotShorterThanTheirBounds : Phase.rb8 ≠ .rb7 ∧ Phase.rb8 ≠ .bu3 := by decide

theorem witness_CompareBlockComparesTheBlocks : Ready (warm oddRom) ∧ 65536 < (65537#17).toNat
    ∧ (65536#17).toNat ≤ 65536 ∧ (0#17).toNat ≤ 65536 := ⟨warm_ready _, by decide, by decide, by decide⟩

/-- Both grounds of the wraparound premise: a capacity that divides 65536, at the largest block size, and one that does
not, at a block size of at most 32768. -/
theorem witness_CompareSucceedsAtMultiplesOfTheCapacity : Ready (warm [])
    ∧ (0 < 4 ∧ 4 ∣ (65536#17).toNat ∧ (65536#17).toNat ≤ 65536 ∧ (4 ∣ 65536 ∨ (65536#17).toNat ≤ 32768))
    ∧ (0 < 6 ∧ 6 ∣ (32766#17).toNat ∧ (32766#17).toNat ≤ 65536 ∧ (6 ∣ 65536 ∨ (32766#17).toNat ≤ 32768))
    ∧ ∀ (n : Nat) (a : Addr), dev [] .rom false false a = dev [] .rom false false (BitVec.ofNat 16 (a.toNat % n)) :=
  ⟨warm_ready _, by decide, by decide, fun _ _ => rfl⟩

theorem witness_GetSizeReturnsTheDetectedSize : Ready (warm oddRom) ∧ ¬ Uniform (warm oddRom).cart .rom :=
  ⟨warm_ready _, oddRom_rom⟩

theorem witness_GetSizeHangsExactlyOnUniformChips : Ready (warm oddRom) ∧ Uniform (warm oddRom).cart .ram
    ∧ ¬ Uniform (warm oddRom).cart .rom := ⟨warm_ready _, oddRom_ram, oddRom_rom⟩

theorem witness_GetSizeFindsTheCapacity : Ready (warm oddRom) ∧ 1 ≤ 16 ∧ 16 ≤ 16
    ∧ Mirrors (warm oddRom).cart .rom (2 ^ 16) ∧ ¬ BlocksEqual (warm oddRom).cart .rom (2 ^ 16 / 2) := by
  refine ⟨warm_ready _, by decide, by decide, fun bankA bankB a => ?_, fun h => absurd (h 0 (by decide)) (by decide)⟩
  rw [Nat.mod_eq_of_lt a.isLt, BitVec.ofNat_toNat, BitVec.setWidth_eq]

theorem witness_ProbeModeComparesWithTheBaseline : Ready (warm oddRom) := warm_ready _

theorem witness_DetectStoresTheFourResults : Ready (warm oddBoth) ∧ (warm oddBoth).nothingDetected = true
    ∧ ¬ Uniform (warm oddBoth).cart .rom ∧ ¬ Uniform (warm oddBoth).cart .ram :=
  ⟨warm_ready _, rfl, oddBoth_rom, oddBoth_ram⟩

/-- The ROM uniform, and the RAM alone uniform. -/
theorem witness_DetectHangsWithNothingWritten :
    (Ready (warm []) ∧ (warm []).nothingDetected = true ∧ Uniform (warm []).cart .rom)
    ∧ Ready (warm oddRom) ∧ (warm oddRom).nothingDetected = true ∧ ¬ Uniform (warm oddRom).cart .rom
    ∧ Uniform (warm oddRom).cart .ram :=
  ⟨⟨warm_ready _, rfl, uniform_empty _⟩, warm_ready _, rfl, oddRom_rom, oddRom_ram⟩

theorem witness_SecondDetectIsRefused : (known []).busy = false ∧ (known []).driven = true
    ∧ ∃ chip, (known []).sizeV.get chip = true ∨ (known []).modeV.get chip = true := ⟨rfl, rfl, .ram, .inr rfl⟩

theorem witness_DumpEmitsTheSelectedBanks : Ready (warm oddRom)
    ∧ 65536 < (⟨.rom, true, true, 65537#17, .hex⟩ : DumpArgs).size.toNat
    ∧ (⟨.rom, true, true, 65536#17, .hex⟩ : DumpArgs).size.toNat ≤ 65536 := ⟨warm_ready _, by decide, by decide⟩

theorem witness_BankIndexSet : 3#3 < 4#3 := by decide

theorem witness_EmissionWaitsForTheSink :
    let s := standing [] .dump [.emit [0x41#8, 0x20#8], .dumpEmitted ⟨.rom, false, false, 2, .hex⟩]
    s.busy = true ∧ s.ph = none ∧ s.stack = .emit (0x41#8 :: [0x20#8]) :: [.dumpEmitted ⟨.rom, false, false, 2, .hex⟩] :=
  ⟨rfl, rfl, rfl⟩

theorem witness_OutGrowsOnlyByEmission :
    let s := standing [] .dump [.emit [0x41#8], .dumpEmitted ⟨.rom, false, false, 2, .hex⟩]
    NotReset s ∧ ∃ t, step s = .next t ∧ t.out ≠ s.out := ⟨(fun _ h => by cases h), _, rfl, by decide⟩

theorem witness_SerialBytesDisturbNothing : sampled.busy = true ∧ sampled.awaitsCommand = false ∧ Quiet sampled
    ∧ ∃ t, step sampled = .next t := ⟨rfl, rfl, rfl, _, rfl⟩

theorem witness_RunServesAFiniteInput :
    let s := { cold with cart := oddBoth, cmdInput := [0x68#8, 0x6F#8, 0x00#8, 0x61#8], cmdLive := false }
    s.busy = false ∧ s.atPowerOn = true ∧ Quiet s ∧ s.cmdLive = false ∧ ¬ Uniform s.cart .rom ∧ ¬ Uniform s.cart .ram :=
  ⟨rfl, rfl, rfl, rfl, oddBoth_rom, oddBoth_ram⟩

/-- The ROM uniform, and the RAM alone uniform. -/
theorem witness_RunHangsOnAUniformChip : (cold.busy = false ∧ cold.atPowerOn = true ∧ Quiet cold ∧ Uniform cold.cart .rom)
    ∧ (let s := { cold with cart := oddRom }
      s.busy = false ∧ s.atPowerOn = true ∧ Quiet s ∧ ¬ Uniform s.cart .rom ∧ Uniform s.cart .ram) :=
  ⟨⟨rfl, rfl, rfl, uniform_empty _⟩, rfl, rfl, rfl, oddRom_rom, oddRom_ram⟩

theorem witness_RunOnALiveInputNeverCompletes :
    let s := { cold with cart := oddBoth, cmdInput := [0x6F#8] }
    s.busy = false ∧ s.atPowerOn = true ∧ Quiet s ∧ s.cmdLive = true := ⟨rfl, rfl, rfl, rfl⟩

theorem witness_CommandLoopBlocksWithoutInput : Quiet (loop oddBoth [] true) ∧ (loop oddBoth [] true).awaitsCommand = true
    ∧ (loop oddBoth [] true).cmdInput = [] ∧ (loop oddBoth [] true).cmdLive = true := ⟨rfl, rfl, rfl, rfl⟩

theorem witness_RunNeedsThePowerOnState : ((warm []).busy = false ∧ (warm []).driven = true)
    ∧ (let s := { cold with sizeV := ⟨false, true⟩ }
      s.busy = false ∧ s.driven = false ∧ ∃ chip, s.sizeV.get chip = true ∨ s.modeV.get chip = true) :=
  ⟨⟨rfl, rfl⟩, rfl, rfl, .ram, .inl rfl⟩

/-- Outside RUN and inside RUN. -/
theorem witness_FormatCommandsSetTheFormat : (known []).busy = false ∧ (loop [] [] true).busy = true
    ∧ (loop [] [] true).awaitsCommand = true := ⟨rfl, rfl, rfl⟩

theorem witness_OtherCommandsChangeNothing : (loop [] [] true).awaitsCommand = true
    ∧ 0x48#8 ≠ 0x68#8 ∧ 0x48#8 ≠ 0x62#8 ∧ 0x48#8 ≠ 0x6F#8 ∧ 0x48#8 ≠ 0x61#8 := by decide

theorem witness_DumpCommandsDumpTheirChip : Ready (known oddBoth) ∧ ∀ chip, (known oddBoth).sizeV.get chip = true
    ∧ (known oddBoth).modeV.get chip = true ∧ ((known oddBoth).size.get chip).toNat ≤ 65536 :=
  ⟨known_ready _, fun chip => by cases chip <;> decide⟩

theorem witness_DumpCommandsReturnToTheLoop : Inv (loop oddBoth [0x68#8] true) ∧ Quiet (loop oddBoth [0x68#8] true)
    ∧ (loop oddBoth [0x68#8] true).awaitsCommand = true := ⟨inv_loop _ _, rfl, rfl⟩

theorem witness_DumpCommandsNeedDetection : (warm []).busy = false ∧ (warm []).driven = true
    ∧ ((warm []).sizeV.get .rom = false ∨ (warm []).modeV.get .rom = false)
    ∧ ((warm []).sizeV.get .ram = false ∨ (warm []).modeV.get .ram = false) := ⟨rfl, rfl, .inl rfl, .inr rfl⟩

theorem witness_EveryStepKeepsTheInvariant : (Inv sampled ∧ ∃ t, step sampled = .next t)
    ∧ (Inv probing ∧ ∃ t, step probing = .next t) ∧ Inv (loop oddBoth [0x6F#8] true)
    ∧ ∃ t, step (loop oddBoth [0x6F#8] true) = .next t :=
  ⟨⟨inv_sampled, _, rfl⟩, ⟨inv_probing, _, rfl⟩, inv_loop _ _, _, rfl⟩

theorem witness_LinesAreNeverUnsafe : (Inv sampled ∧ sampled.driven = true) ∧ (Inv probing ∧ probing.ph = none)
    ∧ Inv (warm oddBoth) ∧ (warm oddBoth).busy = false := ⟨⟨inv_sampled, rfl⟩, ⟨inv_probing, rfl⟩, inv_warm, rfl⟩

/-- From the first control point of PROBE_MODE, over one read, to the second. -/
theorem witness_LastReadStaysOnTheLines : Inv probing ∧ Quiet probing ∧ probing.busy = true ∧ probing.driven = true
    ∧ probing.ph = none ∧ ∃ u, Runs probing [⟨.rom, false, false, 0⟩] u ∧ u.ph = none :=
  ⟨inv_probing, rfl, rfl, rfl, rfl, _, .frame rfl rfl rfl rfl (by decide)
    (startRead_runs (s := probing) ⟨rfl, rfl, rfl, rfl⟩ ⟨.rom, false, false, 0⟩ [.probeBase .rom]), rfl⟩

theorem witness_CartridgeIsNeverWritten : ∃ t, step sampled = .next t := ⟨_, rfl⟩

theorem witness_DetectionResultsAreImmutable : Inv (loop oddBoth [0x68#8] true)
    ∧ (loop oddBoth [0x68#8] true).allDetected = true ∧ NotReset (loop oddBoth [0x68#8] true)
    ∧ ∃ t, step (loop oddBoth [0x68#8] true) = .next t := ⟨inv_loop _ _, rfl, (fun _ h => by cases h), _, rfl⟩

theorem witness_FormatChangesOnlyByCommand : NotReset (loop [] [0x68#8] true)
    ∧ ∃ t, step (loop [] [0x68#8] true) = .next t ∧ t.format ≠ (loop [] [0x68#8] true).format :=
  ⟨(fun _ h => by cases h), _, rfl, by decide⟩

/-- One state for each of the four clauses. -/
theorem witness_RegistersChangeOnlyInTheirPhase :
    (let s := reading [] .rom false false 1#16 .rb1 (Lines.idleAt 0) .stopped;
      NotReset s ∧ ∃ t, step s = .next t ∧ t.lines ≠ s.lines)
    ∧ (NotReset sampled ∧ ∃ t, step sampled = .next t ∧ t.byte ≠ sampled.byte)
    ∧ (let s := { cold with busy := true, op := .bringup, ph := some .bu2 }
      NotReset s ∧ ∃ t, step s = .next t ∧ t.driven ≠ s.driven)
    ∧ (let s := { standing [] .readByte [] with ret := some 0x30#17 }
      NotReset s ∧ ∃ t, step s = .next t ∧ t.result ≠ s.result) := by
  refine ⟨⟨(fun _ h => by cases h), _, rfl, by decide⟩, ⟨(fun _ h => by cases h), _, rfl, by decide⟩,
    ⟨(fun _ h => by cases h), _, rfl, by decide⟩, (fun _ h => by cases h), _, rfl, by decide⟩

end Sys2Proof.Tests
end

/-! # What a step without external reset does

`StepCase` says once what such a step can do; each claim about the fields a step may change is then one lemma per way:
`Accepted.effect`, `phaseStep_effect`, `complete_effect`, `frameStep_effect` and `frameStep_outputs`. -/

namespace Sys2Proof.Machine

/-- What accepting an instruction leaves alone (R31): it only enters the operation, and FORMAT is the one register of
the host's view that it can change. -/
structure AcceptedEffect (i : Instr) (s t : State) : Prop where
  lines : t.lines = s.lines
  driven : t.driven = s.driven
  byte : t.byte = s.byte
  byteV : t.byteV = s.byteV
  size : t.size = s.size
  sizeV : t.sizeV = s.sizeV
  mode : t.mode = s.mode
  modeV : t.modeV = s.modeV
  tmr : t.tmr = s.tmr
  req : t.req = s.req
  result : t.result = s.result
  resultV : t.resultV = s.resultV
  out : t.out = s.out
  cart : t.cart = s.cart
  params : t.params = s.params
  env : t.env = s.env
  cmdInput : t.cmdInput = s.cmdInput
  cmdLive : t.cmdLive = s.cmdLive
  autoRun : t.autoRun = s.autoRun
  freeN : t.freeN = s.freeN
  format : t.format = s.format ∨ i = .cmdH ∨ i = .cmdB ∨ i = .run

theorem Accepted.effect {i : Instr} {s t : State} (h : Accepted i s t) : AcceptedEffect i s t := by
  cases h with
  | format f _ hi =>
    have command : i = .cmdH ∨ i = .cmdB := hi.imp And.left And.left
    constructor
    case format => exact .inr (command.imp_right .inl)
    all_goals rfl
  | run =>
    constructor
    case format => exact .inr (.inr (.inr rfl))
    all_goals rfl
  | _ =>
    constructor
    case format => exact .inl rfl
    all_goals rfl

/-- What the end of an operation does to BUSY, OP and the value returned, and what it leaves alone: all but RESULT, its
validity and the count of free values (R93). -/
structure CompleteEffect (s t : State) : Prop where
  busy : t.busy = false
  op : t.op = .idle
  ret : t.ret = none
  lines : t.lines = s.lines
  driven : t.driven = s.driven
  byte : t.byte = s.byte
  byteV : t.byteV = s.byteV
  size : t.size = s.size
  sizeV : t.sizeV = s.sizeV
  mode : t.mode = s.mode
  modeV : t.modeV = s.modeV
  format : t.format = s.format
  work : t.work = s.work
  ph : t.ph = s.ph
  tmr : t.tmr = s.tmr
  stack : t.stack = s.stack
  req : t.req = s.req
  out : t.out = s.out
  cart : t.cart = s.cart
  params : t.params = s.params
  env : t.env = s.env
  cmdInput : t.cmdInput = s.cmdInput
  cmdLive : t.cmdLive = s.cmdLive
  autoRun : t.autoRun = s.autoRun

theorem complete_effect (s : State) : CompleteEffect s (complete s) := by
  unfold complete
  split <;> constructor <;> rfl

/-- What a step without external reset can do: run an accepted instruction, or, with the inputs taken in, stay idle,
perform the phase that PH names, end the operation, or take its innermost control point (R30, R31). -/
inductive StepCase (s : State) : State → Prop
  | accepted {t : State} (i : Instr) (env : List Input) (req : ReqWord) (cmdInput : List Byte)
      (fetched : fetch s = .instr i (s.fetched env req cmdInput)) (runs : Accepted i (s.fetched env req cmdInput) t) :
      StepCase s t
  | idle (env : List Input) (cmdInput : List Byte) (idle : s.busy = false) : StepCase s (s.fetched env s.req cmdInput)
  | phase (p : Phase) (env : List Input) (cmdInput : List Byte) (busy : s.busy = true) (ph : s.ph = some p) :
      StepCase s (phaseStep p (s.fetched env s.req cmdInput))
  | complete (env : List Input) (cmdInput : List Byte) (busy : s.busy = true) (ph : s.ph = none) (stack : s.stack = []) :
      StepCase s (complete (s.fetched env s.req cmdInput))
  | control (ready : Bool) (f : Frame) (rest : List Frame) (env : List Input) (cmdInput : List Byte)
      (busy : s.busy = true) (ph : s.ph = none) (stack : s.stack = f :: rest)
      (blocked : s.awaitsCommand = true → cmdInput = []) :
      StepCase s (frameStep ready f rest (s.fetched env s.req cmdInput))

/-- Inversion of `advance`, as a step reaches it. -/
theorem advance_cases (s : State) (ready : Bool) (env : List Input) (cmdInput : List Byte)
    (blocked : s.awaitsCommand = true → cmdInput = []) : StepCase s (advance ready (s.fetched env s.req cmdInput)) := by
  unfold advance
  split
  case isFalse idle => exact .idle env cmdInput (Bool.eq_false_of_not_eq_true idle)
  case isTrue busy =>
    split
    case h_1 p ph => exact .phase p env cmdInput busy ph
    case h_2 ph =>
      unfold controlStep
      split
      case h_1 stack => exact .complete env cmdInput busy ph stack
      case h_2 f rest stack => exact .control ready f rest env cmdInput busy ph stack blocked

/-- Inversion of `step` where the outside world sends no external reset. -/
theorem step_cases {s t : State} (noReset : NotReset s) (h : step s = .next t) : StepCase s t := by
  obtain ⟨es, hreset, -⟩ | ⟨i, env, req, cmdInput, fetched, runs⟩ | ⟨ready, env, cmdInput, -, blocked, rfl⟩ :=
    step_next h
  · exact absurd hreset (noReset es)
  · exact .accepted i env req cmdInput fetched runs
  · exact advance_cases s ready env cmdInput blocked

/-! ## What a step can change -/

/-- The detection results change only at the last control point of DETECT (R174, R175). -/
theorem StepCase.detection {s t : State} (h : StepCase s t) :
    (t.size = s.size ∧ t.sizeV = s.sizeV ∧ t.mode = s.mode ∧ t.modeV = s.modeV)
      ∨ ∃ s0 s1 m0 rest, s.stack = .detectRamProbed s0 s1 m0 :: rest := by
  cases h with
  | accepted i env req cmdInput _ runs =>
    have e := runs.effect
    exact .inl ⟨e.size, e.sizeV, e.mode, e.modeV⟩
  | idle => exact .inl ⟨rfl, rfl, rfl, rfl⟩
  | phase p env cmdInput =>
    have e := phaseStep_effect p (s.fetched env s.req cmdInput)
    exact .inl ⟨e.size, e.sizeV, e.mode, e.modeV⟩
  | complete env cmdInput =>
    have e := complete_effect (s.fetched env s.req cmdInput)
    exact .inl ⟨e.size, e.sizeV, e.mode, e.modeV⟩
  | control ready f rest env cmdInput busy ph stack =>
    refine (frameStep_outputs ready f rest (s.fetched env s.req cmdInput)).2.imp_right ?_
    rintro ⟨s0, s1, m0, rfl⟩
    exact ⟨s0, s1, m0, rest, stack⟩

/-- OUT changes only at an emission, which appends one byte and leaves the lines alone (R33, R186, R190). -/
theorem StepCase.out {s t : State} (h : StepCase s t) :
    t.out = s.out ∨ (s.busy = true ∧ s.ph = none ∧ t.lines = s.lines
      ∧ ∃ v vs rest, s.stack = .emit (v :: vs) :: rest ∧ t.out = s.out ++ [v]) := by
  cases h with
  | accepted i env req cmdInput _ runs => exact .inl runs.effect.out
  | idle => exact .inl rfl
  | phase p => exact .inl (phaseStep_effect p _).out
  | complete => exact .inl (complete_effect _).out
  | control ready f rest env cmdInput busy ph stack =>
    refine (frameStep_outputs ready f rest (s.fetched env s.req cmdInput)).1.imp_right ?_
    rintro ⟨v, vs, rfl, grown⟩
    exact ⟨busy, ph, (frameStep_effect ready _ rest _).lines, v, vs, rest, stack, grown⟩

/-- FORMAT changes only as CMD_h, CMD_b or RUN is accepted (R28, R35, R191). -/
theorem StepCase.format {s t : State} (h : StepCase s t) :
    t.format = s.format ∨ ∃ i s', fetch s = .instr i s' ∧ (i = .cmdH ∨ i = .cmdB ∨ i = .run) := by
  cases h with
  | accepted i env req cmdInput fetched runs => exact runs.effect.format.imp_right fun hi => ⟨i, _, fetched, hi⟩
  | idle => exact .inl rfl
  | phase p => exact .inl (phaseStep_effect p _).format
  | complete => exact .inl (complete_effect _).format
  | control ready f rest => exact .inl (frameStep_effect ready f rest _).format

/-- The lines, DRIVEN and BYTE change only in a phase, and of the phases only RB8 stores BYTE and only BU2 sets DRIVEN
(R22, R23, R25). -/
theorem StepCase.bus {s t : State} (h : StepCase s t) :
    (∃ p, s.busy = true ∧ s.ph = some p ∧ (p ≠ .rb8 → t.byte = s.byte) ∧ (p ≠ .bu2 → t.driven = s.driven))
      ∨ (t.lines = s.lines ∧ t.byte = s.byte ∧ t.driven = s.driven) := by
  cases h with
  | accepted i env req cmdInput _ runs =>
    have e := runs.effect
    exact .inr ⟨e.lines, e.byte, e.driven⟩
  | idle => exact .inr ⟨rfl, rfl, rfl⟩
  | phase p env cmdInput busy ph =>
    have e := phaseStep_effect p (s.fetched env s.req cmdInput)
    exact .inl ⟨p, busy, ph, fun other => (e.byte other).1, e.driven⟩
  | complete env cmdInput =>
    have e := complete_effect (s.fetched env s.req cmdInput)
    exact .inr ⟨e.lines, e.byte, e.driven⟩
  | control ready f rest env cmdInput =>
    have e := frameStep_effect ready f rest (s.fetched env s.req cmdInput)
    exact .inr ⟨e.lines, e.byte, e.driven⟩

/-- RESULT changes only in the step in which BUSY falls (R93). -/
theorem StepCase.result {s t : State} (h : StepCase s t) :
    t.result = s.result ∨ (s.busy = true ∧ t.busy = false) := by
  cases h with
  | accepted i env req cmdInput _ runs => exact .inl runs.effect.result
  | idle => exact .inl rfl
  | phase p => exact .inl (phaseStep_effect p _).result
  | complete env cmdInput busy => exact .inr ⟨busy, (complete_effect _).busy⟩
  | control ready f rest => exact .inl (frameStep_effect ready f rest _).result

/-! ## What the invariant says -/

/-- Once everything is detected, no control point of detection is on the stack (R174). -/
theorem Inv.no_detection_frame {s : State} (inv : Inv s) (all : s.allDetected = true) :
    s.stack.any Frame.beforeDetected = false := by
  by_contra h
  have nothing := inv.detection
  rw [if_pos (by simpa using h)] at nothing
  simp only [State.allDetected, State.nothingDetected, Bool.and_eq_true, Bool.not_eq_true'] at all nothing
  exact absurd all.2 (by simp [nothing.2])

/-- Between read cycles the driven lines of a running operation are where a read cycle can begin (R129). -/
theorem Inv.going {s : State} (inv : Inv s) (quiet : Quiet s) (busy : s.busy = true) (driven : s.driven = true)
    (ph : s.ph = none) : Going s := by
  have lines := (inv.driven driven).1
  rw [ph] at lines
  exact ⟨busy, driven, lines, quiet⟩

end Sys2Proof.Machine

/-! # The claims about the state -/

namespace Sys2Proof.Machine

/-- Settles O34: of the things a step can do, only an emission touches OUT. -/
theorem outGrowsOnlyByEmission : Obligations.OutGrowsOnlyByEmission := fun _ _ noReset h changed =>
  (step_cases noReset h).out.resolve_left changed

/-- Settles O51: the run is tracked (`Going.tracks`), and between read cycles what it tracks is what the last read
left. -/
theorem lastReadStaysOnTheLines : Obligations.LastReadStaysOnTheLines := by
  intro s u reads inv quiet busy driven ph runs uph
  have going := inv.going quiet busy driven ph
  have tracks := going.tracks ph runs
  have part := tracks.settled uph
  have ulines := tracks.lines.1
  simp only [State.readPart, ReadPart.mk.injEq] at part
  obtain ⟨addr, -, byte, byteV, rChip, rBankA, rBankB, rAddr⟩ := part
  rw [uph] at ulines
  have lines : u.lines = (s.afterReads reads).lines := by
    rw [ulines, afterReads_lines reads going.lines, addr]
    rfl
  exact ⟨lines, byte, byteV, rChip, rBankA, rBankB, rAddr⟩

/-- Settles O53: only the last control point of DETECT stores results, and by the invariant it is not on the stack once
everything is detected. -/
theorem detectionResultsAreImmutable : Obligations.DetectionResultsAreImmutable := by
  intro s t inv all noReset h
  refine (step_cases noReset h).detection.resolve_right ?_
  rintro ⟨s0, s1, m0, rest, stack⟩
  have none_left := inv.no_detection_frame all
  rw [stack] at none_left
  cases none_left

/-- Settles O54: of the things a step can do, only an accepted instruction touches FORMAT. -/
theorem formatChangesOnlyByCommand : Obligations.FormatChangesOnlyByCommand := fun _ _ noReset h changed =>
  (step_cases noReset h).format.resolve_left changed

/-- Settles O55: a step that performs no phase leaves the lines, BYTE and DRIVEN alone, one that performs another than
RB8 leaves BYTE, one that performs another than BU2 leaves DRIVEN, and RESULT is stored as the operation completes. -/
theorem registersChangeOnlyInTheirPhase : Obligations.RegistersChangeOnlyInTheirPhase := by
  intro s t noReset h
  have c := step_cases noReset h
  have result := c.result.resolve_left
  obtain ⟨p, busy, ph, byte, driven⟩ | ⟨lines, byte, driven⟩ := c.bus
  · refine ⟨fun _ => ⟨busy, by simp [ph]⟩, fun changed => ⟨busy, ?_⟩, fun changed => ⟨busy, ?_⟩, result⟩
    · rw [ph, not_imp_comm.mp byte changed]
    · rw [ph, not_imp_comm.mp driven changed]
  · exact ⟨absurd lines, absurd byte, absurd driven, result⟩

/-- Settles O6: each clause is read off the power-on state. -/
theorem resetIsThePowerOnState : Obligations.ResetIsThePowerOnState where
  driven := rfl
  lines := ⟨rfl, rfl⟩
  byte := rfl
  result := rfl
  detection chip := by cases chip <;> exact ⟨rfl, rfl, rfl, rfl⟩
  format := rfl
  control := ⟨rfl, rfl, rfl⟩
  out := rfl

/-! ## The decoded instruction -/

/-- A request word given as a table word is presented at the request port. -/
theorem presentedBy_request (w : ReqWord) : presentedBy 32 w.toNat = .request w := by
  simp [presentedBy, BitVec.ofNat_toNat, Nat.mod_eq_of_lt w.isLt]

/-- A command byte given as a table word is handed over by itself. -/
theorem presentedBy_command (c : Byte) : presentedBy 8 c.toNat = .command c := by
  simp [presentedBy, Nat.mod_eq_of_lt c.isLt]

/-- A request word at the request port is run, and REQ takes it (log entry 31). -/
theorem step_request (s : State) (w : ReqWord) (es : List Input) :
    step { s with env := .request w :: es } = exec (decodeRequest w) { s with env := es, req := w } := rfl

/-- A command byte handed over by itself is run while the block is idle (log entry 14). -/
theorem step_lone_command {s : State} (idle : s.busy = false) (c : Byte) (es : List Input) :
    step { s with env := .command c :: es } = exec (decodeCommand c) { s with env := es } := by
  simp [step, fetch, idle]

/-- Where RUN awaits a command, the next byte of the serial input is dispatched (R191). -/
theorem step_dispatch {s : State} (awaits : s.awaitsCommand = true) (quiet : Quiet s) {c : Byte} {cs : List Byte}
    (input : s.cmdInput = c :: cs) : step s = exec (decodeCommand c) { s with cmdInput := cs } := by
  have env : s.env = [] := quiet
  simp [step, fetch, env, fetchOwn, awaits, input]

/-- Settles O9. -/
theorem stepRunsTheDecodedInstruction : Obligations.StepRunsTheDecodedInstruction := by
  refine fun s es => ⟨fun w => ⟨step_request s w es, ?_⟩, fun c => ⟨fun idle => ⟨step_lone_command idle c es, ?_⟩, ?_⟩⟩
  · rw [State.withFetchWord, presentedBy_request]
    exact step_request s w s.env
  · rw [State.withFetchWord, presentedBy_command]
    exact step_lone_command idle c s.env
  · exact fun awaits quiet cs input => step_dispatch awaits quiet input

/-! ## Concurrent invocation -/

/-- No request word decodes to a command of the host layer. -/
theorem decodeRequest_not_command (w : ReqWord) : Laws.WordLength.isCommand (decodeRequest w) = false := by
  unfold decodeRequest
  dsimp only
  split <;> rfl

theorem whenIdle_of_busy {s : State} (busy : s.busy = true) (k : Result) :
    whenIdle s k = .refused .concurrentInvocation := if_pos busy

/-- While an operation runs every operation of the block is refused (R31). -/
theorem exec_of_busy {i : Instr} {s : State} (request : Laws.WordLength.isCommand i = false) (busy : s.busy = true) :
    exec i s = .refused .concurrentInvocation := by
  cases i with
  | cmdH | cmdB | cmdO | cmdA | cmdOther => cases request
  | _ => exact whenIdle_of_busy busy _

/-- Settles O10: a request reaches exec, which refuses it; a lone command and a foreign drive fetch itself refuses. -/
theorem concurrentInvocationIsRefused : Obligations.ConcurrentInvocationIsRefused := by
  refine fun s es => ⟨fun busy => ⟨fun w => ?_, fun c => ?_⟩, rfl⟩
  · rw [step_request]
    exact exec_of_busy (decodeRequest_not_command w) busy
  · simp [step, fetch, busy]

/-- Settles O12: each read is this choice by definition. -/
theorem hostReadsNeedAValue : Obligations.HostReadsNeedAValue := fun _ _ => ⟨rfl, rfl, rfl, rfl⟩

/-! ## The vector LINES -/

theorem Lines.pack_addr (l : Lines) : l.pack.extractLsb' 0 16 = l.addr :=
  BitVec.extractLsb'_append_eq_right

/-- A bit of LINES as a bit of the lines put together, whose width stands as a sum of the parts' widths here: the form
that the library's lemmas about appended vectors match. -/
theorem Lines.pack_getLsbD (l : Lines) (i : Nat) : l.pack.getLsbD i =
    (bitOf l.rst ++ bitOf l.clk ++ bitOf l.latchN ++ bitOf l.weN ++ bitOf l.oeN ++ bitOf l.ceN.ram ++ bitOf l.ceN.rom
      ++ bitOf l.bankB ++ bitOf l.bankA ++ l.addr).getLsbD i := rfl

/-- The control part of LINES, its bits 24 to 16. -/
theorem Lines.pack_control (l : Lines) : l.pack.extractLsb' 16 9 =
    bitOf l.rst ++ bitOf l.clk ++ bitOf l.latchN ++ bitOf l.weN ++ bitOf l.oeN ++ bitOf l.ceN.ram ++ bitOf l.ceN.rom
      ++ bitOf l.bankB ++ bitOf l.bankA :=
  BitVec.extractLsb'_append_eq_left

/-- The levels at the sample, the eighth row of the table of R128. -/
theorem readCycleLines_sampled (chip : Chip) (bankA bankB : Bool) (a : Addr) :
    (readCycleLines chip bankA bankB a)[7]? = some { Lines.idleAt a with
      bankA := bankA, bankB := bankB, ceN := ⟨chip != .rom, chip != .ram⟩, oeN := false, latchN := false, clk := true } :=
  rfl

/-- Settles O19: with the control part isolated, its values are closed facts. -/
theorem linesVectorLayout : Obligations.LinesVectorLayout := by
  refine ⟨fun l => ⟨l.pack_addr, ?_⟩, fun a => ?_, rfl, fun a => ⟨?_, ?_⟩⟩
  · simp only [Lines.pack_getLsbD, BitVec.getLsbD_append]
    simp [bitOf]
  · simp only [Lines.pack_control, Lines.idleAt]
    decide
  · simp only [readCycleLines_sampled, Option.map_some, Lines.pack_control, Lines.idleAt]
    decide
  · simp only [readCycleLines_sampled, Option.map_some, Lines.pack_control, Lines.idleAt]
    decide

/-! ## The invariant at reset -/

/-- Settles O48: no operation runs, the lines are not driven, nothing is detected and no cartridge cell is listed. -/
theorem invariantHoldsAtReset : Obligations.InvariantHoldsAtReset where
  cartridge := rfl
  op := iff_of_true rfl rfl
  idle _ := ⟨rfl, rfl⟩
  driven h := by cases h
  notDriven _ := ⟨rfl, (fun h => by cases h), (fun h => by cases h)⟩
  timer := ⟨(fun h => by cases h), (fun h => by cases h)⟩
  stack := rfl
  ranges := rfl
  together := .inl rfl
  detection h := by cases h
  sizes h := by cases h

end Sys2Proof.Machine

/-! # The sample and the lines

What a sample reads is read off the lines: `busData_of_sampling` says it once, for the operands given and, by the
invariant, for the operands latched. -/

namespace Sys2Proof.Machine

/-- The lines as the device contract asks for them at a sample (R62, R125), the eighth row of the table of R128
(`readCycleLines_sampled`). -/
def Lines.sampling (chip : Chip) (bankA bankB : Bool) (a : Addr) : Lines :=
  { Lines.idleAt a with
    bankA := bankA, bankB := bankB, ceN := ⟨chip != .rom, chip != .ram⟩, oeN := false, latchN := false, clk := true }

theorem selectedChip_sampling (chip : Chip) (bankA bankB : Bool) (a : Addr) :
    selectedChip (Lines.sampling chip bankA bankB a) = some chip := by
  cases chip <;> rfl

/-- The lines of RB8 are those of a sample at the latched operands. -/
theorem linesAt_rb8 (w : Work) (addr : Addr) :
    linesAt w addr (some .rb8) = Lines.sampling w.rChip w.rBankA w.rBankB w.rAddr := by
  have enables : PerChip.set ⟨true, true⟩ w.rChip false = ⟨w.rChip != .rom, w.rChip != .ram⟩ := by
    cases w.rChip <;> rfl
  rw [linesAt, enables, Lines.sampling]

/-- The device contract (R62): on such lines, the hold elapsed, DATA carries the cartridge's byte. -/
theorem busData_of_sampling {s : State} {chip : Chip} {bankA bankB : Bool} {a : Addr} (driven : s.driven = true)
    (tmr : s.tmr = .elapsed) (lines : s.lines = Lines.sampling chip bankA bankB a) :
    busData s = some (dev s.cart chip bankA bankB a) := by
  have enabled : s.busEnabled = true := by
    rw [State.busEnabled, driven, tmr, lines]
    rfl
  rw [busData, if_pos enabled, lines, selectedChip_sampling]
  rfl

/-- What such a sample presents to the cartridge. -/
theorem busReads_of_sampling {s : State} {chip : Chip} {bankA bankB : Bool} {a : Addr} (ph : s.ph = some .rb8)
    (lines : s.lines = Lines.sampling chip bankA bankB a) : busReads s = [⟨chip, bankA, bankB, a⟩] := by
  rw [busReads, if_pos ph, lines, selectedChip_sampling]
  rfl

/-- A sample that the contract gives a byte stores it and uses no free value. -/
theorem sampleData_of_busData {s : State} {v : Byte} (data : busData s = some v) :
    sampleData s = { s with byte := v, byteV := true, ph := some .rb9 } := by
  rw [sampleData, data]
  rfl

/-- Settles O17: the phase RB8 stores what the contract puts on the bus. -/
theorem sampleUnderTheDeviceContract : Obligations.SampleUnderTheDeviceContract := by
  intro s chip bankA bankB a busy quiet ph driven tmr lines
  rw [step_phase quiet busy ph, phaseStep, sampleData_of_busData (busData_of_sampling driven tmr lines)]

/-- An operation past BU2 has driven lines (R23, R232). -/
theorem Inv.driven_of_phase {s : State} {p : Phase} (inv : Inv s) (busy : s.busy = true) (ph : s.ph = some p)
    (past : beforeDriven (some p) = false) : s.driven = true := by
  by_contra notDriven
  obtain ⟨-, early, -⟩ := inv.notDriven (Bool.eq_false_of_not_eq_true notDriven)
  have before := (early busy).1
  rw [ph, past] at before
  cases before

/-- Settles O18: by the invariant the lines of RB8 are driven, carry the latched operands, and the hold has elapsed. -/
theorem everySampleIsUnderTheContract : Obligations.EverySampleIsUnderTheContract := by
  intro s inv busy ph
  have driven := inv.driven_of_phase busy ph rfl
  have lines := (inv.driven driven).1
  rw [ph, linesAt_rb8] at lines
  exact ⟨busData_of_sampling driven (inv.timer.2 ph) lines, busReads_of_sampling ph lines⟩

/-! ## The levels of the table of R128 -/

/-- Nothing drives a write (R71). -/
theorem linesAt_weN (w : Work) (addr : Addr) (p : Option Phase) : (linesAt w addr p).weN = true := by
  rcases p with _ | p
  · rfl
  · cases p <;> rfl

/-- At most the latched chip is enabled (R129). -/
theorem linesAt_ceN (w : Work) (addr : Addr) (p : Option Phase) :
    (linesAt w addr p).ceN = ⟨true, true⟩ ∨ (linesAt w addr p).ceN = PerChip.set ⟨true, true⟩ w.rChip false := by
  rcases p with _ | p
  · exact .inl rfl
  · cases p with
    | rb4 | rb5 | rb6 | rb7 | rb8 | rb9 | rb10 => exact .inr rfl
    | _ => exact .inl rfl

/-- Among driven lines RST is held in bring-up only, until BU4 has released it (R121, R235). -/
theorem linesAt_rst {w : Work} {addr : Addr} {p : Option Phase} (held : (linesAt w addr p).rst = true) :
    p = some .bu3 ∨ p = some .bu4 := by
  rcases p with _ | p
  · cases held
  · cases p with
    | bu3 => exact .inl rfl
    | bu4 => exact .inr rfl
    | _ => cases held

/-- The chip-enables are not both low (R129). -/
theorem linesAt_ceN_not_both_low (w : Work) (addr : Addr) (p : Option Phase) :
    (linesAt w addr p).ceN.rom = true ∨ (linesAt w addr p).ceN.ram = true := by
  obtain idle | selected := linesAt_ceN w addr p
  · exact .inl (by rw [idle])
  · rw [selected]
    cases w.rChip with
    | rom => exact .inr rfl
    | ram => exact .inl rfl

/-- Between phases the driven lines are idle (R129). -/
theorem Inv.lines_isIdle {s : State} (inv : Inv s) (driven : s.driven = true) (ph : s.ph = none) :
    s.lines.isIdle = true := by
  have lines := (inv.driven driven).1
  rw [ph] at lines
  exact beq_iff_eq.mpr lines

/-- Settles O50: by the invariant the driven lines are those of the table, and an idle block is in no phase. -/
theorem linesAreNeverUnsafe : Obligations.LinesAreNeverUnsafe := by
  intro s inv driven
  have idle := inv.lines_isIdle driven
  have lines := (inv.driven driven).1
  refine ⟨?_, ?_, fun held => ?_, idle, fun notBusy => idle (inv.idle notBusy).1⟩
  · rw [lines]
    exact linesAt_weN s.work s.lines.addr s.ph
  · rw [lines]
    exact linesAt_ceN_not_both_low s.work s.lines.addr s.ph
  · rw [lines] at held
    exact linesAt_rst held

/-! ## The cartridge -/

/-- No step without external reset touches the cartridge or the parameters (R61, R71). -/
theorem StepCase.cartridge {s t : State} (h : StepCase s t) : t.cart = s.cart ∧ t.params = s.params := by
  cases h with
  | accepted i env req cmdInput _ runs => exact ⟨runs.effect.cart, runs.effect.params⟩
  | idle => exact ⟨rfl, rfl⟩
  | phase p => exact ⟨(phaseStep_effect p _).cart, (phaseStep_effect p _).params⟩
  | complete => exact ⟨(complete_effect _).cart, (complete_effect _).params⟩
  | control ready f rest => exact ⟨(frameStep_effect ready f rest _).cart, (frameStep_effect ready f rest _).params⟩

/-- Settles O52: external reset keeps the cartridge and the parameters (log entry 11), and so does every other step. -/
theorem cartridgeIsNeverWritten : Obligations.CartridgeIsNeverWritten := by
  intro s t h
  obtain ⟨es, -, rfl⟩ | ⟨i, env, req, cmdInput, fetched, runs⟩ | ⟨ready, env, cmdInput, -, blocked, rfl⟩ :=
    step_next h
  · exact ⟨rfl, rfl⟩
  · exact (StepCase.accepted i env req cmdInput fetched runs).cartridge
  · exact (advance_cases s ready env cmdInput blocked).cartridge

/-! # The serial input beside an operation

The operation in progress looks at CMD_INPUT only at the head of RUN's command loop: everywhere else `advance` does not
see what it holds. -/

theorem phaseStep_cmdInput (p : Phase) (s : State) (input : List Byte) :
    phaseStep p { s with cmdInput := input } = { phaseStep p s with cmdInput := input } := by
  cases p with
  | rb8 =>
    have data : busData { s with cmdInput := input } = busData s := rfl
    simp only [phaseStep, sampleData, data]
    split <;> rfl
  | _ => rfl

theorem complete_cmdInput (s : State) (input : List Byte) :
    complete { s with cmdInput := input } = { complete s with cmdInput := input } := by
  simp only [complete]
  split <;> rfl

/-- A control point that branches does so on the working registers, on BYTE, on what was returned, on the bytes to emit
or on the sink; only the command loop asks for CMD_INPUT. -/
theorem frameStep_cmdInput {f : Frame} (notLoop : f ≠ .commandLoop) (ready : Bool) (rest : List Frame) (s : State)
    (input : List Byte) :
    frameStep ready f rest { s with cmdInput := input } = { frameStep ready f rest s with cmdInput := input } := by
  cases f with
  | commandLoop => exact absurd rfl notLoop
  | compareHead =>
    simp only [frameStep, compareHead]
    split <;> rfl
  | compareSecond =>
    simp only [frameStep, compareSecond]
    split
    · split <;> rfl
    · rfl
  | sizeTest =>
    simp only [frameStep, sizeTest]
    split <;> rfl
  | dumpBank =>
    simp only [frameStep, dumpBank]
    split
    · split <;> rfl
    · rfl
  | dumpAddr =>
    simp only [frameStep, dumpAddr]
    split <;> rfl
  | emit bytes =>
    cases bytes with
    | nil => rfl
    | cons => cases ready <;> rfl
  | _ => rfl

theorem controlStep_cmdInput {s : State} (notLoop : s.stack.head? ≠ some .commandLoop) (ready : Bool)
    (input : List Byte) :
    controlStep ready { s with cmdInput := input } = { controlStep ready s with cmdInput := input } := by
  simp only [controlStep]
  split
  · exact complete_cmdInput s input
  · next f rest stack =>
    exact frameStep_cmdInput (fun loop => notLoop (by rw [stack, loop]; rfl)) ready rest s input

theorem advance_cmdInput {s : State} (awaits : s.awaitsCommand = false) (ready : Bool) (input : List Byte) :
    advance ready { s with cmdInput := input } = { advance ready s with cmdInput := input } := by
  simp only [advance]
  split
  · next busy =>
    split
    · next p ph => exact phaseStep_cmdInput p s input
    · next ph =>
      have notLoop : s.stack.head? ≠ some .commandLoop := by simpa [State.awaitsCommand, busy, ph] using awaits
      exact controlStep_cmdInput notLoop ready input
  · rfl

/-- Without an input that presents an instruction, an operation that awaits no command goes on (R30). -/
theorem fetchOwn_of_busy {s : State} (busy : s.busy = true) (awaits : s.awaitsCommand = false) (ready : Bool) :
    fetchOwn ready s = .advance ready s := by
  simp [fetchOwn, awaits, State.startsUp, busy]

/-- A serial byte is kept at the end of the input, and an operation that awaits none goes on (R238; log entry 15). -/
theorem step_serial {s : State} (busy : s.busy = true) (awaits : s.awaitsCommand = false) (c : Byte)
    (es : List Input) :
    step { s with env := .serial c :: es }
      = .next (advance true { s with env := es, cmdInput := s.cmdInput ++ [c] }) := by
  have fetched : fetch { s with env := .serial c :: es }
      = .advance true { s with env := es, cmdInput := s.cmdInput ++ [c] } :=
    fetchOwn_of_busy (s := { s with env := es, cmdInput := s.cmdInput ++ [c] }) busy awaits true
  rw [step, fetched]

/-- Settles O35: with and without the byte the operation advances, and `advance` does not see the byte. -/
theorem serialBytesDisturbNothing : Obligations.SerialBytesDisturbNothing := by
  intro s t c busy awaits quiet h
  have env : s.env = [] := quiet
  rw [step_advance quiet busy awaits] at h
  cases h
  rw [← env, step_serial busy awaits, ← advance_cmdInput awaits]

end Sys2Proof.Machine

/-! # The encoding

A request word is an append of its fields. Decoding reads each field off its part
(`requestFieldsAreReadWhereTheyStand`), and masking with the bits an operation uses masks each field by itself
(`encodeWire_decodeRequest`). -/

namespace Sys2Proof.Machine

@[simp] theorem chipOfBit_bit (chip : Chip) : chipOfBit chip.bit = chip := by cases chip <;> rfl

@[simp] theorem bit_chipOfBit (b : Bool) : (chipOfBit b).bit = b := by cases b <;> rfl

@[simp] theorem formatOfBit_bit (format : Format) : formatOfBit format.bit = format := by cases format <;> rfl

@[simp] theorem bit_formatOfBit (b : Bool) : (formatOfBit b).bit = b := by cases b <;> rfl

@[simp] theorem bitOf_getLsbD_zero (b : Bool) : (bitOf b).getLsbD 0 = b := by cases b <;> rfl

/-- One bit of a word is a field of width 1. -/
theorem bitOf_getLsbD {n : Nat} (w : BitVec n) (i : Nat) : bitOf (w.getLsbD i) = w.extractLsb' i 1 :=
  BitVec.eq_of_getLsbD_eq fun j hj => by
    obtain rfl : j = 0 := by omega
    simp [bitOf]

/-! ## Decoding what was put together -/

/-- Settles O3: each field the decoder reads is one part of the append. `Nat.reduceAdd` is off because the library's
lemmas about appended vectors match only a width that stands as a sum. -/
theorem requestFieldsAreReadWhereTheyStand : Obligations.RequestFieldsAreReadWhereTheyStand := by
  refine ⟨fun chip u bankB bankA address => ?_, fun chip u blockSize => ?_, fun chip u => ⟨?_, ?_⟩,
    fun chip format u affectsB affectsA size => ?_, fun u => ?_⟩
  all_goals
    simp [decodeRequest, BitVec.extractLsb'_append_eq_of_le, BitVec.extractLsb'_append_eq_right, BitVec.getLsbD_append,
      -Nat.reduceAdd, -BitVec.extractLsb'_toNat, -BitVec.getLsbD_eq_getElem]

/-! ## Command bytes -/

theorem isOtherCommand_iff (c : Byte) :
    isOtherCommand c = true ↔ c ≠ 0x68#8 ∧ c ≠ 0x62#8 ∧ c ≠ 0x6F#8 ∧ c ≠ 0x61#8 := by
  simp [isOtherCommand, and_assoc]

theorem decodeCommand_of_isOtherCommand {c : Byte} (other : isOtherCommand c = true) :
    decodeCommand c = .cmdOther c := by
  obtain ⟨h, b, o, a⟩ := (isOtherCommand_iff c).mp other
  simp [decodeCommand, h, b, o, a]

/-- A byte is one of the four commands or one of the other 252 (R96). -/
theorem command_cases (c : Byte) : c = 0x68#8 ∨ c = 0x62#8 ∨ c = 0x6F#8 ∨ c = 0x61#8 ∨ isOtherCommand c = true := by
  rw [isOtherCommand_iff]
  tauto

/-- Settles O5. -/
theorem commandBytesAreMatchedExactly : Obligations.CommandBytesAreMatchedExactly := by
  intro c
  obtain rfl | rfl | rfl | rfl | other := command_cases c
  case inr.inr.inr.inr =>
    rw [decodeCommand_of_isOtherCommand other, ← isOtherCommand_iff]
    obtain ⟨h, b, o, a⟩ := (isOtherCommand_iff c).mp other
    simp [h, b, o, a, other]
  all_goals decide

/-! ## Decoding the bytes of an encoding -/

/-- The four bytes of a request word, put together, are the word (log entry 20). -/
theorem wordOfBytes_bytes (w : ReqWord) :
    wordOfBytes (w.extractLsb' 0 8) (w.extractLsb' 8 8) (w.extractLsb' 16 8) (w.extractLsb' 24 8) = w := by
  simp only [wordOfBytes, BitVec.extractLsb'_append_extractLsb'_eq_extractLsb', BitVec.extractLsb'_eq_self]

theorem decode_request {w : ReqWord} {i : Instr} (decoded : decodeRequest w = i) :
    decode (Wire.request w).bytes = .ok i := by
  rw [← decoded]
  exact congrArg (fun v => Except.ok (decodeRequest v)) (wordOfBytes_bytes w)

/-- Settles O1: a request is put together from its fields, with zeros in the ignored bits. -/
theorem decodeOfEncodeIsIdentity : Obligations.DecodeOfEncodeIsIdentity := by
  obtain ⟨readByte, compareBlock, chipOnly, dump, plain⟩ := requestFieldsAreReadWhereTheyStand
  obtain ⟨nop, bringup, detect, run, r9, rA, rB, rC, rD, rE, rF⟩ := plain 0
  intro i wf
  cases i with
  | nop => exact decode_request nop
  | bringup => exact decode_request bringup
  | readByte chip bankA bankB address => exact decode_request (readByte chip 0 bankB bankA address)
  | compareBlock chip blockSize => exact decode_request (compareBlock chip 0 blockSize)
  | getSize chip => exact decode_request (chipOnly chip 0).1
  | probeMode chip => exact decode_request (chipOnly chip 0).2
  | detect => exact decode_request detect
  | dump chip affectsA affectsB size format => exact decode_request (dump chip format 0 affectsB affectsA size)
  | run => exact decode_request run
  | reserved9 => exact decode_request r9
  | reservedA => exact decode_request rA
  | reservedB => exact decode_request rB
  | reservedC => exact decode_request rC
  | reservedD => exact decode_request rD
  | reservedE => exact decode_request rE
  | reservedF => exact decode_request rF
  | cmdH | cmdB | cmdO | cmdA => rfl
  | cmdOther opcode => exact congrArg Except.ok (decodeCommand_of_isOtherCommand wf)

/-! ## Encoding what was decoded

The bits an operation uses, cut as its layout in R92 cuts the word: each part is all ones or all zeros. -/

theorem opcode_mask : 0xF0000000#32 = BitVec.allOnes 4 ++ 0#28 := by decide

theorem chip_mask : 0xF8000000#32 = BitVec.allOnes 4 ++ BitVec.allOnes 1 ++ 0#27 := by decide

theorem readByte_mask : 0xF803FFFF#32 = BitVec.allOnes 4 ++ BitVec.allOnes 1 ++ 0#9 ++ BitVec.allOnes 1
    ++ BitVec.allOnes 1 ++ BitVec.allOnes 16 := by decide

theorem compareBlock_mask : 0xF801FFFF#32 = BitVec.allOnes 4 ++ BitVec.allOnes 1 ++ 0#10 ++ BitVec.allOnes 17 := by
  decide

theorem dump_mask : 0xFC07FFFF#32 = BitVec.allOnes 4 ++ BitVec.allOnes 1 ++ BitVec.allOnes 1 ++ 0#7
    ++ BitVec.allOnes 1 ++ BitVec.allOnes 1 ++ BitVec.allOnes 17 := by decide

/-- Masking a field of a word with a mask of two parts masks the field's two parts. -/
theorem append_and_extract {n m v : Nat} (w : BitVec v) (i : Nat) (hi : BitVec n) (lo : BitVec m) :
    (hi ++ lo) &&& w.extractLsb' i (n + m) = (hi &&& w.extractLsb' (i + m) n) ++ (lo &&& w.extractLsb' i m) := by
  rw [← BitVec.and_append, BitVec.extractLsb'_append_extractLsb'_eq_extractLsb' rfl]

/-- Masking a word with a mask of two parts masks its two parts. -/
theorem append_and {n m : Nat} (w : BitVec (n + m)) (hi : BitVec n) (lo : BitVec m) :
    (hi ++ lo) &&& w = (hi &&& w.extractLsb' (0 + m) n) ++ (lo &&& w.extractLsb' 0 m) := by
  rw [← append_and_extract, BitVec.extractLsb'_eq_self]

/-- The operation code of a word is one of the sixteen. -/
theorem exists_opcode (w : ReqWord) : ∃ k < 16, w.extractLsb' 28 4 = BitVec.ofNat 4 k :=
  ⟨(w.extractLsb' 28 4).toNat, (w.extractLsb' 28 4).isLt, BitVec.eq_of_toNat_eq (by simp)⟩

/-- Encoding a decoded word gives the word with its ignored bits zero: in each layout every part of the mask keeps or
clears one field. -/
theorem encodeWire_decodeRequest (w : ReqWord) :
    encodeWire (decodeRequest w) = .request (w &&& usedBits (decodeRequest w)) := by
  obtain ⟨k, bound, opcode⟩ := exists_opcode w
  simp only [decodeRequest, opcode]
  interval_cases k
  all_goals
    simp only [BitVec.reduceToNat, encodeWire, plainRequest, chipRequest, usedBits, opcode_mask, chip_mask,
      readByte_mask, compareBlock_mask, dump_mask, bit_chipOfBit, bit_formatOfBit]
    rw [BitVec.and_comm, append_and]
    simp only [append_and_extract, BitVec.allOnes_and, BitVec.zero_and, bitOf_getLsbD, ← opcode]

/-- Settles O2: a request by its fields, a command byte by its five cases. -/
theorem encodeOfDecodeKeepsUsedBits : Obligations.EncodeOfDecodeKeepsUsedBits := by
  refine ⟨encodeWire_decodeRequest, fun c => ?_⟩
  obtain rfl | rfl | rfl | rfl | other := command_cases c
  case inr.inr.inr.inr =>
    rw [decodeCommand_of_isOtherCommand other]
    exact ⟨rfl, other⟩
  all_goals exact ⟨rfl, rfl⟩

/-! ## The worked encodings -/

/-- Settles O4: sixteen closed facts. -/
theorem workedEncodings : Obligations.WorkedEncodings := by
  unfold Obligations.WorkedEncodings
  decide

/-! # Requests without an effect -/

theorem noEffect_of_idle {s : State} (idle : s.busy = false) : noEffect s = .next s :=
  if_neg (Bool.eq_false_iff.mp idle)

/-- Settles O13: each of the eight meanings is `noEffect`. -/
theorem nopAndReservedCodesChangeNothing : Obligations.NopAndReservedCodesChangeNothing := by
  intro s idle
  have unchanged := noEffect_of_idle idle
  simp only [List.forall_mem_cons]
  exact ⟨unchanged, unchanged, unchanged, unchanged, unchanged, unchanged, unchanged, unchanged, nofun⟩

end Sys2Proof.Machine

/-! # The nesting of the control points

`Frame.Below` says which stacks may lie below a control point, one predicate for each operation of the pseudocode.
`stackOk_cons` ties it to the invariant's own check. -/

namespace Sys2Proof.Machine

/-- DETECT was requested by itself, or RUN called it (R174, R191). -/
inductive BelowDetect : List Frame → Prop
  | alone : BelowDetect []
  | run : BelowDetect [.runDetected]

/-- GET_SIZE was requested by itself, or is one of the first two steps of DETECT (R153, R174). -/
inductive BelowSize : Chip → List Frame → Prop
  | alone (chip : Chip) : BelowSize chip []
  | rom {rest : List Frame} (below : BelowDetect rest) : BelowSize .rom (.detectRomSized :: rest)
  | ram (s0 : Size) {rest : List Frame} (below : BelowDetect rest) : BelowSize .ram (.detectRamSized s0 :: rest)

/-- PROBE_MODE was requested by itself, or is one of the last two steps of DETECT (R170, R174). -/
inductive BelowProbe : Chip → List Frame → Prop
  | alone (chip : Chip) : BelowProbe chip []
  | rom (s0 s1 : Size) {rest : List Frame} (below : BelowDetect rest) : BelowProbe .rom (.detectRomProbed s0 s1 :: rest)
  | ram (s0 s1 : Size) (m0 : ModeFlags) {rest : List Frame} (below : BelowDetect rest) :
      BelowProbe .ram (.detectRamProbed s0 s1 m0 :: rest)

/-- COMPARE_BLOCK was requested by itself, or GET_SIZE called it (R150, R153). -/
inductive BelowCompare : Chip → List Frame → Prop
  | alone (chip : Chip) : BelowCompare chip []
  | size {chip : Chip} {rest : List Frame} (below : BelowSize chip rest) : BelowCompare chip (.sizeTest chip :: rest)

/-- DUMP was requested by itself, or a command entered it (R186, R194). -/
inductive BelowDump : List Frame → Prop
  | alone : BelowDump []
  | loop : BelowDump [.commandLoop]

/-- What is emitted is a byte of a dump or the banner (R186, R191). -/
inductive BelowEmit : List Frame → Prop
  | alone : BelowEmit []
  | dump (d : DumpArgs) {rest : List Frame} (below : BelowDump rest) : BelowEmit (.dumpEmitted d :: rest)
  | banner : BelowEmit [.commandLoop]

/-- The stacks that may lie below a control point. -/
def Frame.Below : Frame → List Frame → Prop
  | .compareHead chip _ | .compareFirst chip _ | .compareSecond chip _ => BelowCompare chip
  | .sizeLoop chip | .sizeTest chip => BelowSize chip
  | .probeStart chip | .probeBase chip | .probeA chip | .probeB chip => BelowProbe chip
  | .detectStart | .detectRomSized | .detectRamSized _ | .detectRomProbed _ _ | .detectRamProbed _ _ _ => BelowDetect
  | .dumpBank _ | .dumpAddr _ | .dumpByte _ | .dumpEmitted _ => BelowDump
  | .emit _ => BelowEmit
  | .runBroughtUp | .runDetected | .commandLoop => (· = [])

theorem Frame.below_nil (f : Frame) : f.Below [] := by
  cases f with
  | compareHead | compareFirst | compareSecond => exact .alone _
  | sizeLoop | sizeTest => exact .alone _
  | probeStart | probeBase | probeA | probeB => exact .alone _
  | detectStart | detectRomSized | detectRamSized | detectRomProbed | detectRamProbed => exact .alone
  | dumpBank | dumpAddr | dumpByte | dumpEmitted => exact .alone
  | emit => exact .alone
  | runBroughtUp | runDetected | commandLoop => rfl

/-- A control point that may stand on `g` may lie above all that may lie below `g`. -/
theorem Frame.below_cons {f g : Frame} {rest : List Frame} (on : f.mayStandOn (g :: rest) = true)
    (below : g.Below rest) : f.Below (g :: rest) := by
  cases f with
  | compareHead | compareFirst | compareSecond =>
    cases beq_iff_eq.mp on
    exact .size below
  | sizeLoop | sizeTest =>
    simp only [Frame.mayStandOn] at on
    split at on
    · exact .rom below
    · exact .ram _ below
    · cases on
  | probeStart | probeBase | probeA | probeB =>
    simp only [Frame.mayStandOn] at on
    split at on
    · exact .rom _ _ below
    · exact .ram _ _ _ below
    · cases on
  | detectStart | detectRomSized | detectRamSized | detectRomProbed | detectRamProbed =>
    cases beq_iff_eq.mp on
    cases below
    exact .run
  | dumpBank | dumpAddr | dumpByte | dumpEmitted =>
    cases beq_iff_eq.mp on
    cases below
    exact .loop
  | emit =>
    simp only [Frame.mayStandOn] at on
    split at on
    · exact .dump _ below
    · cases below
      exact .banner
    · cases on
  | runBroughtUp | runDetected | commandLoop => cases on

/-- What may lie below a control point obeys the call structure itself. -/
theorem Frame.of_below_cons {f g : Frame} {rest : List Frame} (below : f.Below (g :: rest)) :
    f.mayStandOn (g :: rest) = true ∧ g.Below rest := by
  cases f with
  | compareHead | compareFirst | compareSecond =>
    obtain ⟨⟩ | below := below
    exact ⟨beq_self_eq_true _, below⟩
  | sizeLoop | sizeTest =>
    obtain ⟨⟩ | below | ⟨s0, below⟩ := below
    · exact ⟨rfl, below⟩
    · exact ⟨rfl, below⟩
  | probeStart | probeBase | probeA | probeB =>
    obtain ⟨⟩ | ⟨s0, s1, below⟩ | ⟨s0, s1, m0, below⟩ := below
    · exact ⟨rfl, below⟩
    · exact ⟨rfl, below⟩
  | detectStart | detectRomSized | detectRamSized | detectRomProbed | detectRamProbed =>
    cases below
    exact ⟨rfl, rfl⟩
  | dumpBank | dumpAddr | dumpByte | dumpEmitted =>
    cases below
    exact ⟨rfl, rfl⟩
  | emit =>
    obtain ⟨⟩ | ⟨d, below⟩ | ⟨⟩ := below
    · exact ⟨rfl, below⟩
    · exact ⟨rfl, rfl⟩
  | runBroughtUp | runDetected | commandLoop => cases below

/-- The invariant's check of a stack is that every control point has below it what its operation may have. -/
theorem stackOk_cons {f : Frame} {rest : List Frame} : stackOk (f :: rest) = true ↔ f.Below rest := by
  induction rest generalizing f with
  | nil => exact iff_of_true (by cases f <;> rfl) f.below_nil
  | cons g rest ih =>
    rw [stackOk, Bool.and_eq_true, ih]
    exact ⟨fun ⟨on, below⟩ => Frame.below_cons on below, Frame.of_below_cons⟩

theorem stackOk_of_cons {f : Frame} {rest : List Frame} (ok : stackOk (f :: rest) = true) : stackOk rest = true := by
  rw [stackOk, Bool.and_eq_true] at ok
  exact ok.2

/-! ## The ranges of the suspended control points

A control point may change working registers: what it changes, nothing below it needs, or it leaves there what is
needed. -/

theorem rangesOk_compareHead {w : Work} {chip : Chip} {seen : Bool} :
    (Frame.compareHead chip seen).rangesOk w = true ↔ w.idx ≤ w.bs ∧ sizeInDomain w.bs = true := by
  rw [Frame.rangesOk, Bool.and_eq_true, decide_eq_true_iff]

theorem rangesOk_compareFirst {w : Work} {chip : Chip} {seen : Bool} :
    (Frame.compareFirst chip seen).rangesOk w = true ↔ w.idx < w.bs ∧ sizeInDomain w.bs = true := by
  rw [Frame.rangesOk, Bool.and_eq_true, decide_eq_true_iff]

theorem rangesOk_compareSecond {w : Work} {chip : Chip} {seen : Bool} :
    (Frame.compareSecond chip seen).rangesOk w = true ↔ w.idx < w.bs ∧ sizeInDomain w.bs = true := by
  rw [Frame.rangesOk, Bool.and_eq_true, decide_eq_true_iff]

theorem rangesOk_sizeLoop {w : Work} {chip : Chip} :
    (Frame.sizeLoop chip).rangesOk w = true
      ↔ probes.contains w.probe.toNat = true ∧ powerOfTwoSize w.sizeW = true := by
  rw [Frame.rangesOk, Bool.and_eq_true]

theorem rangesOk_sizeTest {w : Work} {chip : Chip} :
    (Frame.sizeTest chip).rangesOk w = true
      ↔ probes.contains w.probe.toNat = true ∧ powerOfTwoSize w.sizeW = true := by
  rw [Frame.rangesOk, Bool.and_eq_true]

theorem rangesOk_detectRamSized {w : Work} {s0 : Size} :
    (Frame.detectRamSized s0).rangesOk w = true ↔ powerOfTwoSize s0 = true ∧ powerOfTwoSize w.sizeW = true := by
  rw [Frame.rangesOk, Bool.and_eq_true]

theorem rangesOk_dumpBank {w : Work} {d : DumpArgs} :
    (Frame.dumpBank d).rangesOk w = true ↔ w.b ≤ 4#3 ∧ sizeInDomain d.size = true := by
  rw [Frame.rangesOk, Bool.and_eq_true, decide_eq_true_iff]

theorem rangesOk_dumpAddr {w : Work} {d : DumpArgs} :
    (Frame.dumpAddr d).rangesOk w = true ↔ w.b < 4#3 ∧ w.actr ≤ d.size ∧ sizeInDomain d.size = true := by
  simp only [Frame.rangesOk, Bool.and_eq_true, decide_eq_true_iff, and_assoc]

theorem rangesOk_dumpByte {w : Work} {d : DumpArgs} :
    (Frame.dumpByte d).rangesOk w = true ↔ w.b < 4#3 ∧ w.actr < d.size ∧ sizeInDomain d.size = true := by
  simp only [Frame.rangesOk, Bool.and_eq_true, decide_eq_true_iff, and_assoc]

theorem rangesOk_dumpEmitted {w : Work} {d : DumpArgs} :
    (Frame.dumpEmitted d).rangesOk w = true ↔ w.b < 4#3 ∧ w.actr < d.size ∧ sizeInDomain d.size = true := by
  simp only [Frame.rangesOk, Bool.and_eq_true, decide_eq_true_iff, and_assoc]

theorem all_rangesOk_cons {w : Work} {f : Frame} {rest : List Frame} :
    (f :: rest).all (Frame.rangesOk w) = true ↔ f.rangesOk w = true ∧ rest.all (Frame.rangesOk w) = true := by
  rw [List.all_cons, Bool.and_eq_true]

/-- No control point of RUN looks at the working registers. -/
theorem BelowDetect.ranges {rest : List Frame} (below : BelowDetect rest) (w : Work) :
    rest.all (Frame.rangesOk w) = true := by
  cases below <;> rfl

theorem BelowDump.ranges {rest : List Frame} (below : BelowDump rest) (w : Work) :
    rest.all (Frame.rangesOk w) = true := by
  cases below <;> rfl

/-- DETECT keeps what it has found so far outside the registers that PROBE_MODE writes (R174). -/
theorem BelowProbe.ranges {chip : Chip} {rest : List Frame} {w : Work} (below : BelowProbe chip rest)
    (ranges : rest.all (Frame.rangesOk w) = true) (w' : Work) : rest.all (Frame.rangesOk w') = true := by
  obtain ⟨⟩ | ⟨s0, s1, below⟩ | ⟨s0, s1, m0, below⟩ := below
  · rfl
  · exact all_rangesOk_cons.mpr ⟨(all_rangesOk_cons.mp ranges).1, below.ranges w'⟩
  · exact all_rangesOk_cons.mpr ⟨(all_rangesOk_cons.mp ranges).1, below.ranges w'⟩

/-- DETECT asks GET_SIZE for a legal size in `size_w` (R156, R174). -/
theorem BelowSize.ranges {chip : Chip} {rest : List Frame} {w w' : Work} (below : BelowSize chip rest)
    (ranges : rest.all (Frame.rangesOk w) = true) (legal : powerOfTwoSize w'.sizeW = true) :
    rest.all (Frame.rangesOk w') = true := by
  obtain ⟨⟩ | below | ⟨s0, below⟩ := below
  · rfl
  · exact all_rangesOk_cons.mpr ⟨legal, below.ranges w'⟩
  · have first := (rangesOk_detectRamSized.mp (all_rangesOk_cons.mp ranges).1).1
    exact all_rangesOk_cons.mpr ⟨rangesOk_detectRamSized.mpr ⟨first, legal⟩, below.ranges w'⟩

/-- GET_SIZE needs `probe` and `size_w`, which COMPARE_BLOCK leaves alone (R29, R154). -/
theorem BelowCompare.ranges {chip : Chip} {rest : List Frame} {w w' : Work} (below : BelowCompare chip rest)
    (ranges : rest.all (Frame.rangesOk w) = true) (probe : w'.probe = w.probe) (sizeW : w'.sizeW = w.sizeW) :
    rest.all (Frame.rangesOk w') = true := by
  obtain ⟨⟩ | below := below
  · rfl
  · obtain ⟨range, ranges⟩ := all_rangesOk_cons.mp ranges
    rw [rangesOk_sizeTest, ← probe, ← sizeW] at range
    exact all_rangesOk_cons.mpr ⟨rangesOk_sizeTest.mpr range, below.ranges ranges range.2⟩

/-- The part of the invariant about where the pseudocode stands: the control points are nested as it calls them, and
the working registers are in range for each. -/
structure Placed (w : Work) (frames : List Frame) : Prop where
  stack : stackOk frames = true
  ranges : frames.all (Frame.rangesOk w) = true

theorem placed_nil (w : Work) : Placed w [] := ⟨rfl, rfl⟩

theorem placed_cons {w : Work} {f : Frame} {rest : List Frame} :
    Placed w (f :: rest) ↔ f.Below rest ∧ f.rangesOk w = true ∧ rest.all (Frame.rangesOk w) = true :=
  ⟨fun ⟨stack, ranges⟩ => ⟨stackOk_cons.mp stack, all_rangesOk_cons.mp ranges⟩,
    fun ⟨below, ranges⟩ => ⟨stackOk_cons.mpr below, all_rangesOk_cons.mpr ranges⟩⟩

/-- A control point returns to the one below it. -/
theorem Placed.of_cons {w : Work} {f : Frame} {rest : List Frame} (placed : Placed w (f :: rest)) : Placed w rest :=
  ⟨stackOk_of_cons placed.stack, (placed_cons.mp placed).2.2⟩

/-- The operand latches matter to no control point. -/
theorem Frame.rangesOk_latch (w : Work) (chip : Chip) (bankA bankB : Bool) (a : Addr) (f : Frame) :
    f.rangesOk { w with rChip := chip, rBankA := bankA, rBankB := bankB, rAddr := a } = f.rangesOk w := by
  cases f <;> rfl

end Sys2Proof.Machine

/-! ## The nesting through a control point -/

namespace Sys2Proof.Machine

/-- To begin a read cycle changes the operand latches, so the control points below stay in range. -/
theorem placed_startRead {chip : Chip} {bankA bankB : Bool} {a : Addr} {frames : List Frame} {s : State}
    (placed : Placed s.work frames) :
    Placed (startRead chip bankA bankB a frames s).work (startRead chip bankA bankB a frames s).stack := by
  have same : Frame.rangesOk (startRead chip bankA bankB a frames s).work = Frame.rangesOk s.work :=
    funext (Frame.rangesOk_latch s.work chip bankA bankB a)
  exact ⟨placed.stack, same ▸ placed.ranges⟩

/-- A counter below its bound counts on without wrapping around. -/
theorem Size.succ_le_of_lt {x y : Size} (less : x < y) : x + 1 ≤ y := by
  bv_omega

/-- Called, COMPARE_BLOCK stands at the head of its loop, at pair 0. -/
theorem placed_startCompare {chip : Chip} {blockSize : Size} {rest : List Frame} {s : State}
    (below : BelowCompare chip rest) (ranges : rest.all (Frame.rangesOk s.work) = true)
    (domain : sizeInDomain blockSize = true) :
    Placed (startCompare chip blockSize rest s).work (startCompare chip blockSize rest s).stack := by
  have pair0 : 0#17 ≤ blockSize := by bv_omega
  exact placed_cons.mpr ⟨below, rangesOk_compareHead.mpr ⟨pair0, domain⟩, below.ranges ranges rfl rfl⟩

/-- Called, GET_SIZE stands at its loop, at the first probe. -/
theorem placed_startGetSize {chip : Chip} {rest : List Frame} {s : State} (below : BelowSize chip rest)
    (ranges : rest.all (Frame.rangesOk (startGetSize chip rest s).work) = true) :
    Placed (startGetSize chip rest s).work (startGetSize chip rest s).stack :=
  placed_cons.mpr ⟨below, rfl, ranges⟩

/-- Called, PROBE_MODE stands at its first line. -/
theorem placed_startProbe {chip : Chip} {rest : List Frame} {s : State} (below : BelowProbe chip rest)
    (ranges : rest.all (Frame.rangesOk s.work) = true) :
    Placed (startProbe chip rest s).work (startProbe chip rest s).stack :=
  placed_cons.mpr ⟨below, rfl, ranges⟩

/-- Called, DUMP stands at the head of its bank loop, at bank 0. -/
theorem placed_startDump {d : DumpArgs} {rest : List Frame} {s : State} (below : BelowDump rest)
    (domain : sizeInDomain d.size = true) : Placed (startDump d rest s).work (startDump d rest s).stack :=
  placed_cons.mpr ⟨below, rangesOk_dumpBank.mpr ⟨show 0#3 ≤ 4#3 by decide, domain⟩, below.ranges _⟩

/-- Every probe but the last is followed by its half (R154). -/
theorem probes_halve {probe : BitVec 16} (legal : probes.contains probe.toNat = true) (more : 1#16 < probe) :
    probes.contains (halve probe).toNat = true := by
  have halves : ∀ q ∈ probes, 1 < q → q / 2 ∈ probes := by decide
  rw [List.contains_iff_mem] at legal ⊢
  rw [halve, BitVec.toNat_ushiftRight, Nat.shiftRight_eq_div_pow]
  exact halves _ legal more

theorem toNat_sizeOfProbe (probe : BitVec 16) : (sizeOfProbe probe).toNat = probe.toNat :=
  BitVec.toNat_setWidth_of_le (by decide)

/-- A probe is a block size that COMPARE_BLOCK accepts (R95, R153). -/
theorem sizeInDomain_sizeOfProbe (probe : BitVec 16) : sizeInDomain (sizeOfProbe probe) = true := by
  rw [sizeInDomain, toNat_sizeOfProbe]
  exact decide_eq_true probe.isLt.le

/-- A probe is a legal size (R26, R154). -/
theorem powerOfTwoSize_sizeOfProbe {probe : BitVec 16} (legal : probes.contains probe.toNat = true) :
    powerOfTwoSize (sizeOfProbe probe) = true := by
  rw [powerOfTwoSize, toNat_sizeOfProbe, legal, Bool.or_true]

theorem compareHead_placed {chip : Chip} {seen : Bool} {rest : List Frame} {s : State}
    (placed : Placed s.work (.compareHead chip seen :: rest)) :
    Placed (compareHead chip seen rest s).work (compareHead chip seen rest s).stack := by
  obtain ⟨below, range, ranges⟩ := placed_cons.mp placed
  unfold compareHead
  split
  case isTrue more =>
    have domain := (rangesOk_compareHead.mp range).2
    exact placed_startRead (placed_cons.mpr ⟨below, rangesOk_compareFirst.mpr ⟨more, domain⟩, ranges⟩)
  case isFalse => exact placed.of_cons

theorem compareNext_placed {chip : Chip} {seen : Bool} {rest : List Frame} {s : State}
    (placed : Placed s.work (.compareSecond chip seen :: rest)) (seen' : Bool) :
    Placed (compareNext chip seen' rest s).work (compareNext chip seen' rest s).stack := by
  obtain ⟨below, range, ranges⟩ := placed_cons.mp placed
  obtain ⟨less, domain⟩ := rangesOk_compareSecond.mp range
  exact placed_cons.mpr
    ⟨below, rangesOk_compareHead.mpr ⟨Size.succ_le_of_lt less, domain⟩, below.ranges ranges rfl rfl⟩

theorem compareSecond_placed {chip : Chip} {seen : Bool} {rest : List Frame} {s : State}
    (placed : Placed s.work (.compareSecond chip seen :: rest)) :
    Placed (compareSecond chip seen rest s).work (compareSecond chip seen rest s).stack := by
  unfold compareSecond
  split
  · split
    · exact placed.of_cons
    · exact compareNext_placed placed true
  · exact compareNext_placed placed seen

theorem sizeTest_placed {chip : Chip} {rest : List Frame} {s : State}
    (placed : Placed s.work (.sizeTest chip :: rest)) :
    Placed (sizeTest chip rest s).work (sizeTest chip rest s).stack := by
  obtain ⟨below, range, ranges⟩ := placed_cons.mp placed
  have legal := (rangesOk_sizeTest.mp range).1
  have recorded := powerOfTwoSize_sizeOfProbe legal
  have next : probes.contains
      (if 1#16 < s.work.probe then halve s.work.probe else s.work.probe).toNat = true := by
    split
    case isTrue more => exact probes_halve legal more
    case isFalse => exact legal
  unfold sizeTest
  split
  · exact placed_cons.mpr ⟨below, rangesOk_sizeLoop.mpr ⟨next, recorded⟩, below.ranges ranges recorded⟩
  · exact placed.of_cons

theorem nextBank_placed {d : DumpArgs} {rest : List Frame} {s : State} (below : BelowDump rest)
    (less : s.work.b < 4#3) (domain : sizeInDomain d.size = true) :
    Placed (nextBank d rest s).work (nextBank d rest s).stack := by
  have next : s.work.b + 1 ≤ 4#3 := by bv_omega
  exact placed_cons.mpr ⟨below, rangesOk_dumpBank.mpr ⟨next, domain⟩, below.ranges _⟩

theorem dumpBank_placed {d : DumpArgs} {rest : List Frame} {s : State}
    (placed : Placed s.work (.dumpBank d :: rest)) :
    Placed (dumpBank d rest s).work (dumpBank d rest s).stack := by
  obtain ⟨below, range, -⟩ := placed_cons.mp placed
  have domain := (rangesOk_dumpBank.mp range).2
  unfold dumpBank
  split
  case isTrue less =>
    split
    · have address0 : 0#17 ≤ d.size := by bv_omega
      exact placed_cons.mpr ⟨below, rangesOk_dumpAddr.mpr ⟨less, address0, domain⟩, below.ranges _⟩
    · exact nextBank_placed below less domain
  case isFalse => exact placed.of_cons

theorem dumpAddr_placed {d : DumpArgs} {rest : List Frame} {s : State}
    (placed : Placed s.work (.dumpAddr d :: rest)) :
    Placed (dumpAddr d rest s).work (dumpAddr d rest s).stack := by
  obtain ⟨below, range, ranges⟩ := placed_cons.mp placed
  obtain ⟨bank, -, domain⟩ := rangesOk_dumpAddr.mp range
  unfold dumpAddr
  split
  case isTrue more =>
    exact placed_startRead (placed_cons.mpr ⟨below, rangesOk_dumpByte.mpr ⟨bank, more, domain⟩, ranges⟩)
  case isFalse => exact nextBank_placed below bank domain

theorem dumpEmitted_placed {d : DumpArgs} {rest : List Frame} {s : State}
    (placed : Placed s.work (.dumpEmitted d :: rest)) :
    Placed (dumpEmitted d rest s).work (dumpEmitted d rest s).stack := by
  obtain ⟨below, range, -⟩ := placed_cons.mp placed
  obtain ⟨bank, less, domain⟩ := rangesOk_dumpEmitted.mp range
  exact placed_cons.mpr
    ⟨below, rangesOk_dumpAddr.mpr ⟨bank, Size.succ_le_of_lt less, domain⟩, below.ranges _⟩

theorem emitStep_placed (ready : Bool) {bytes : List Byte} {rest : List Frame} {s : State}
    (stack : s.stack = .emit bytes :: rest) (placed : Placed s.work (.emit bytes :: rest)) :
    Placed (emitStep ready bytes rest s).work (emitStep ready bytes rest s).stack := by
  obtain ⟨below, range, ranges⟩ := placed_cons.mp placed
  cases bytes with
  | nil => exact placed.of_cons
  | cons v vs =>
    cases ready with
    | false => exact stack ▸ placed
    | true => exact placed_cons.mpr ⟨below, rfl, ranges⟩

theorem commandLoop_placed {rest : List Frame} {s : State} (stack : s.stack = .commandLoop :: rest)
    (placed : Placed s.work (.commandLoop :: rest)) :
    Placed (commandLoop rest s).work (commandLoop rest s).stack := by
  unfold commandLoop
  split
  · exact placed.of_cons
  · exact stack ▸ placed

/-- Every control point leaves the control points nested as the pseudocode calls them, and the working registers in
range for each. -/
theorem frameStep_placed (ready : Bool) {f : Frame} {rest : List Frame} {s : State} (stack : s.stack = f :: rest)
    (placed : Placed s.work (f :: rest)) :
    Placed (frameStep ready f rest s).work (frameStep ready f rest s).stack := by
  obtain ⟨below, range, ranges⟩ := placed_cons.mp placed
  cases f with
  | compareHead => exact compareHead_placed placed
  | compareFirst => exact placed_startRead (placed_cons.mpr ⟨below, range, below.ranges ranges rfl rfl⟩)
  | compareSecond => exact compareSecond_placed placed
  | sizeLoop =>
    exact placed_startCompare (.size below) (all_rangesOk_cons.mpr ⟨range, ranges⟩) (sizeInDomain_sizeOfProbe _)
  | sizeTest => exact sizeTest_placed placed
  | probeStart => exact placed_startRead (placed_cons.mpr ⟨below, rfl, ranges⟩)
  | probeBase | probeA => exact placed_startRead (placed_cons.mpr ⟨below, rfl, below.ranges ranges _⟩)
  | probeB => exact ⟨placed.of_cons.stack, below.ranges ranges _⟩
  | detectStart => exact placed_startGetSize (.rom below) (below.ranges _)
  | detectRomSized =>
    exact placed_startGetSize (.ram _ below)
      (all_rangesOk_cons.mpr ⟨rangesOk_detectRamSized.mpr ⟨range, rfl⟩, below.ranges _⟩)
  | detectRamSized => exact placed_startProbe (.rom _ _ below) (all_rangesOk_cons.mpr ⟨range, ranges⟩)
  | detectRomProbed => exact placed_startProbe (.ram _ _ _ below) (all_rangesOk_cons.mpr ⟨range, ranges⟩)
  | detectRamProbed => exact placed.of_cons
  | dumpBank => exact dumpBank_placed placed
  | dumpAddr => exact dumpAddr_placed placed
  | dumpByte => exact placed_cons.mpr ⟨.dump _ below, rfl, all_rangesOk_cons.mpr ⟨range, ranges⟩⟩
  | dumpEmitted => exact dumpEmitted_placed placed
  | emit => exact emitStep_placed ready stack placed
  | runBroughtUp =>
    cases below
    exact placed_cons.mpr ⟨.run, rfl, rfl⟩
  | runDetected =>
    cases below
    exact placed_cons.mpr ⟨.banner, rfl, rfl⟩
  | commandLoop => exact commandLoop_placed stack placed

end Sys2Proof.Machine

/-! ## The detection results through a control point -/

namespace Sys2Proof.Machine

/-- The part of the invariant about the detection results: the validity bits are set together, nothing is detected
while detection runs, all is when RUN is past it, and the sizes are legal (R26, R174, R191). -/
structure ResultsOk (s : State) : Prop where
  together : s.nothingDetected = true ∨ s.allDetected = true
  detection : if s.stack.any Frame.beforeDetected then s.nothingDetected = true
    else s.stack.any Frame.afterDetected = true → s.allDetected = true
  sizes : s.allDetected = true → powerOfTwoSize s.size.rom = true ∧ powerOfTwoSize s.size.ram = true

theorem Inv.placed {s : State} (inv : Inv s) : Placed s.work s.stack := ⟨inv.stack, inv.ranges⟩

theorem Inv.resultsOk {s : State} (inv : Inv s) : ResultsOk s := ⟨inv.together, inv.detection, inv.sizes⟩

/-- The control points `frames` ask no more of the detection results than `old`: they lie in detection just when those
do, and past it only if those do. -/
def AsksNoMore (frames old : List Frame) : Prop :=
  frames.any Frame.beforeDetected = old.any Frame.beforeDetected
    ∧ (old.any Frame.beforeDetected = false →
      frames.any Frame.afterDetected = true → old.any Frame.afterDetected = true)

theorem AsksNoMore.refl (frames : List Frame) : AsksNoMore frames frames := ⟨rfl, fun _ => id⟩

theorem AsksNoMore.append {frames old : List Frame} (asks : AsksNoMore frames old) (rest : List Frame) :
    AsksNoMore (frames ++ rest) (old ++ rest) := by
  obtain ⟨before, after⟩ := asks
  refine ⟨by rw [List.any_append, List.any_append, before], fun none_before => ?_⟩
  rw [List.any_append, Bool.or_eq_false_iff] at none_before
  rw [List.any_append, List.any_append, Bool.or_eq_true, Bool.or_eq_true]
  exact Or.imp_left (after none_before.1)

/-- While no result is stored, what is asked of the results stays met. -/
theorem ResultsOk.of_same {s t : State} (ok : ResultsOk s) (size : t.size = s.size) (sizeV : t.sizeV = s.sizeV)
    (modeV : t.modeV = s.modeV) (asks : AsksNoMore t.stack s.stack) : ResultsOk t := by
  have nothing : t.nothingDetected = s.nothingDetected := by rw [State.nothingDetected, sizeV, modeV]; rfl
  have all : t.allDetected = s.allDetected := by rw [State.allDetected, sizeV, modeV]; rfl
  obtain ⟨together, detection, sizes⟩ := ok
  obtain ⟨before, after⟩ := asks
  refine ⟨by rwa [nothing, all], ?_, by rwa [all, size]⟩
  rw [before, nothing, all]
  cases inDetection : s.stack.any Frame.beforeDetected with
  | true =>
    rw [inDetection] at detection
    exact detection
  | false =>
    rw [inDetection] at detection
    exact fun asked => detection (after inDetection asked)

/-- What a control point puts in its own place on the stack; only the last one of DETECT leaves detection by it. -/
theorem frameStep_pushes (ready : Bool) {f : Frame} {rest : List Frame} {s : State} (stack : s.stack = f :: rest)
    (other : ∀ s0 s1 m0, f ≠ .detectRamProbed s0 s1 m0) :
    ∃ pushed, (frameStep ready f rest s).stack = pushed ++ rest ∧ AsksNoMore pushed [f] := by
  cases f with
  | compareHead chip seen =>
    simp only [frameStep, compareHead]
    split
    · exact ⟨[.compareFirst chip seen], rfl, rfl, nofun⟩
    · exact ⟨[], rfl, rfl, nofun⟩
  | compareFirst chip seen => exact ⟨[.compareSecond chip seen], rfl, rfl, nofun⟩
  | compareSecond chip seen =>
    simp only [frameStep, compareSecond]
    split
    · split
      · exact ⟨[], rfl, rfl, nofun⟩
      · exact ⟨[.compareHead chip true], rfl, rfl, nofun⟩
    · exact ⟨[.compareHead chip seen], rfl, rfl, nofun⟩
  | sizeLoop chip => exact ⟨[.compareHead chip false, .sizeTest chip], rfl, rfl, nofun⟩
  | sizeTest chip =>
    simp only [frameStep, sizeTest]
    split
    · exact ⟨[.sizeLoop chip], rfl, rfl, nofun⟩
    · exact ⟨[], rfl, rfl, nofun⟩
  | probeStart chip => exact ⟨[.probeBase chip], rfl, rfl, nofun⟩
  | probeBase chip => exact ⟨[.probeA chip], rfl, rfl, nofun⟩
  | probeA chip => exact ⟨[.probeB chip], rfl, rfl, nofun⟩
  | probeB => exact ⟨[], rfl, rfl, nofun⟩
  | detectStart => exact ⟨[.sizeLoop .rom, .detectRomSized], rfl, rfl, nofun⟩
  | detectRomSized => exact ⟨[.sizeLoop .ram, .detectRamSized s.work.sizeW], rfl, rfl, nofun⟩
  | detectRamSized s0 => exact ⟨[.probeStart .rom, .detectRomProbed s0 s.work.sizeW], rfl, rfl, nofun⟩
  | detectRomProbed s0 s1 =>
    exact ⟨[.probeStart .ram, .detectRamProbed s0 s1 (probedMode s.work)], rfl, rfl, nofun⟩
  | detectRamProbed s0 s1 m0 => exact absurd rfl (other s0 s1 m0)
  | dumpBank d =>
    simp only [frameStep, dumpBank]
    split
    · split
      · exact ⟨[.dumpAddr d], rfl, rfl, nofun⟩
      · exact ⟨[.dumpBank d], rfl, rfl, nofun⟩
    · exact ⟨[], rfl, rfl, nofun⟩
  | dumpAddr d =>
    simp only [frameStep, dumpAddr]
    split
    · exact ⟨[.dumpByte d], rfl, rfl, nofun⟩
    · exact ⟨[.dumpBank d], rfl, rfl, nofun⟩
  | dumpByte d => exact ⟨[.emit (render s.params d.format s.byte), .dumpEmitted d], rfl, rfl, nofun⟩
  | dumpEmitted d => exact ⟨[.dumpAddr d], rfl, rfl, nofun⟩
  | emit bytes =>
    cases bytes with
    | nil => exact ⟨[], rfl, rfl, nofun⟩
    | cons v vs =>
      cases ready with
      | false => exact ⟨[.emit (v :: vs)], stack, .refl _⟩
      | true => exact ⟨[.emit vs], rfl, rfl, nofun⟩
  | runBroughtUp => exact ⟨[.detectStart, .runDetected], rfl, rfl, nofun⟩
  | runDetected => exact ⟨[.emit (banner s.params s.size s.mode), .commandLoop], rfl, rfl, fun _ => id⟩
  | commandLoop =>
    simp only [frameStep, commandLoop]
    split
    · exact ⟨[], rfl, rfl, nofun⟩
    · exact ⟨[.commandLoop], stack, .refl _⟩

/-- The last control point of DETECT stores all four results, with legal sizes, and leaves detection (R174). -/
theorem detectRamProbed_resultsOk {s0 s1 : Size} {m0 : ModeFlags} {rest : List Frame} {s : State}
    (placed : Placed s.work (.detectRamProbed s0 s1 m0 :: rest)) : ResultsOk (detectRamProbed s0 s1 m0 rest s) := by
  obtain ⟨below, range, -⟩ := placed_cons.mp placed
  have after : rest.any Frame.beforeDetected = false := by cases below <;> rfl
  refine ⟨.inr rfl, ?_, fun _ => Bool.and_eq_true_iff.mp range⟩
  rw [show (detectRamProbed s0 s1 m0 rest s).stack = rest from rfl, after]
  exact fun _ => rfl

/-- Every control point leaves the detection results as the control points that follow it ask. -/
theorem frameStep_resultsOk (ready : Bool) {f : Frame} {rest : List Frame} {s : State} (stack : s.stack = f :: rest)
    (placed : Placed s.work (f :: rest)) (ok : ResultsOk s) : ResultsOk (frameStep ready f rest s) := by
  by_cases last : ∃ s0 s1 m0, f = .detectRamProbed s0 s1 m0
  · obtain ⟨s0, s1, m0, rfl⟩ := last
    exact detectRamProbed_resultsOk placed
  · obtain ⟨size, sizeV, -, modeV⟩ := (frameStep_outputs ready f rest s).2.resolve_right last
    push Not at last
    obtain ⟨pushed, left, asks⟩ := frameStep_pushes ready stack last
    exact ok.of_same size sizeV modeV (by rw [left, stack]; exact asks.append rest)

/-! ## The invariant between two read cycles -/

/-- Between two read cycles, and where one begins, the invariant is a matter of the pseudocode alone. -/
theorem inv_of_going {t : State} (cartridge : Memory.wf t.cart = true) (busy : t.busy = true) (op : t.op ≠ .idle)
    (driven : t.driven = true) (lines : t.lines = Lines.idleAt t.lines.addr) (ph : t.ph = none ∨ t.ph = some .rb1)
    (placed : Placed t.work t.stack) (results : ResultsOk t) : Inv t where
  cartridge := cartridge
  op := iff_of_false (by rw [busy]; nofun) op
  idle idle := by rw [busy] at idle; cases idle
  driven _ := by
    obtain ph | ph := ph <;> rw [ph] <;> exact ⟨lines, rfl⟩
  notDriven notDriven := by rw [driven] at notDriven; cases notDriven
  timer := by
    obtain ph | ph := ph <;> rw [ph] <;> exact ⟨nofun, nofun⟩
  stack := placed.stack
  ranges := placed.ranges
  together := results.together
  detection := results.detection
  sizes := results.sizes

/-- An operation between two phases has driven lines, for bring-up alone runs on lines that are not (R232). -/
theorem Inv.driven_of_control {s : State} (inv : Inv s) (busy : s.busy = true) (ph : s.ph = none) :
    s.driven = true := by
  by_contra notDriven
  obtain ⟨-, early, -⟩ := inv.notDriven (Bool.eq_false_of_not_eq_true notDriven)
  have before := (early busy).1
  rw [ph] at before
  cases before

/-- A running operation is named by OP (R31). -/
theorem Inv.op_ne_idle {s : State} (inv : Inv s) (busy : s.busy = true) : s.op ≠ .idle := by
  intro idle
  rw [inv.op.mpr idle] at busy
  cases busy

/-- Between phases the driven lines are idle at the address they hold (R129). -/
theorem Inv.lines_idleAt {s : State} (inv : Inv s) (driven : s.driven = true) (ph : s.ph = none) :
    s.lines = Lines.idleAt s.lines.addr := beq_iff_eq.mp (inv.lines_isIdle driven ph)

theorem Inv.frameStep {s : State} (inv : Inv s) (ready : Bool) {f : Frame} {rest : List Frame} (busy : s.busy = true)
    (ph : s.ph = none) (stack : s.stack = f :: rest) : Inv (frameStep ready f rest s) := by
  have driven := inv.driven_of_control busy ph
  have lines := inv.lines_idleAt driven ph
  have placed : Placed s.work (f :: rest) := stack ▸ inv.placed
  have e := frameStep_effect ready f rest s
  refine inv_of_going (e.cart ▸ inv.cartridge) (e.busy.trans busy) ?_ (e.driven.trans driven) ?_ ?_
    (frameStep_placed ready stack placed) (frameStep_resultsOk ready stack placed inv.resultsOk)
  · rw [e.op]
    exact inv.op_ne_idle busy
  · rwa [e.lines]
  · obtain ⟨samePh, -⟩ | ⟨starts, -⟩ := e.reads
    · exact .inl (samePh.trans ph)
    · exact .inr starts

/-- The end of an operation leaves the block idle, with the lines idle (R31, R129). -/
theorem Inv.complete {s : State} (inv : Inv s) (busy : s.busy = true) (ph : s.ph = none) (stack : s.stack = []) :
    Inv (complete s) := by
  have driven := inv.driven_of_control busy ph
  have lines := inv.lines_idleAt driven ph
  have e := complete_effect s
  have tph := e.ph.trans ph
  have tstack := e.stack.trans stack
  have results : ResultsOk (Machine.complete s) :=
    inv.resultsOk.of_same e.size e.sizeV e.modeV (by rw [e.stack]; exact .refl _)
  exact {
    cartridge := e.cart ▸ inv.cartridge
    op := iff_of_true e.busy e.op
    idle := fun _ => ⟨tph, tstack⟩
    driven := fun _ => by rw [tph, e.lines]; exact ⟨lines, rfl⟩
    notDriven := fun notDriven => by rw [e.driven, driven] at notDriven; cases notDriven
    timer := by rw [tph]; exact ⟨nofun, nofun⟩
    stack := by rw [tstack]; rfl
    ranges := by rw [tstack]; rfl
    together := results.together
    detection := results.detection
    sizes := results.sizes }

end Sys2Proof.Machine

/-! # The phases

Each phase carries the lines from the levels of its row in the table of R128 to those of the next. -/

namespace Sys2Proof.Machine

/-- The phase after a phase; none ends bring-up or the read cycle (R121, R123 to R127, R233). -/
def Phase.next : Phase → Option Phase
  | .bu1 => some .bu2
  | .bu2 => some .bu3
  | .bu3 => some .bu4
  | .bu4 => none
  | .rb1 => some .rb2
  | .rb2 => some .rb3
  | .rb3 => some .rb4
  | .rb4 => some .rb5
  | .rb5 => some .rb6
  | .rb6 => some .rb7
  | .rb7 => some .rb8
  | .rb8 => some .rb9
  | .rb9 => some .rb10
  | .rb10 => some .rb11
  | .rb11 => some .rb12
  | .rb12 => some .rb13
  | .rb13 => none

/-- Once the lines are driven they stay so: no later phase is one of bring-up's first two (R121). -/
theorem beforeDriven_next {p : Phase} (past : beforeDriven (some p) = false) : beforeDriven p.next = false := by
  cases p with
  | bu1 | bu2 => cases past
  | _ => rfl

/-- What a phase writes on the lines (R121, R123, R127). -/
def Phase.drive (p : Phase) (w : Work) (l : Lines) : Lines :=
  match p with
  | .bu1 => { l with rst := true }
  | .bu2 => { Lines.idleAt 0 with rst := l.rst }
  | .bu4 => { l with rst := false }
  | .rb1 => { l with addr := w.rAddr }
  | .rb2 => { l with bankA := w.rBankA, bankB := w.rBankB }
  | .rb3 => { l with ceN := l.ceN.set w.rChip false }
  | .rb4 => { l with oeN := false }
  | .rb5 => { l with latchN := false }
  | .rb6 => { l with clk := true }
  | .rb9 => { l with bankA := false, bankB := false }
  | .rb10 => { l with ceN := l.ceN.set w.rChip true }
  | .rb11 => { l with oeN := true }
  | .rb12 => { l with latchN := true }
  | .rb13 => { l with clk := false }
  | .bu3 | .rb7 | .rb8 => l

/-- The sample touches neither the lines nor the wait timer. -/
theorem sampleData_bus (s : State) :
    (sampleData s).ph = some .rb9 ∧ (sampleData s).lines = s.lines ∧ (sampleData s).tmr = s.tmr := by
  unfold sampleData
  split <;> exact ⟨rfl, rfl, rfl⟩

theorem phaseStep_ph (p : Phase) (s : State) : (phaseStep p s).ph = p.next := by
  cases p with
  | rb8 => exact (sampleData_bus s).1
  | _ => rfl

theorem phaseStep_drive (p : Phase) (s : State) : (phaseStep p s).lines = p.drive s.work s.lines := by
  cases p with
  | rb8 => exact (sampleData_bus s).2.1
  | _ => rfl

/-- ADDR as a phase leaves it: zero from BU2 on (R121), the address latched from RB1 on (R123). -/
def Phase.addr (w : Work) : Phase → Addr
  | .bu1 | .bu2 | .bu3 | .bu4 => 0
  | _ => w.rAddr

/-- Once the lines are driven a phase carries them from its own levels to those of the next phase (R121, R128). -/
theorem drive_linesAt {p : Phase} (past : beforeDriven (some p) = false) (w : Work) (a : Addr) :
    p.drive w (linesAt w a (some p)) = linesAt w (p.addr w) p.next := by
  cases p with
  | bu1 | bu2 => cases past
  | rb10 =>
    have released : (PerChip.set ⟨true, true⟩ w.rChip false).set w.rChip true = ⟨true, true⟩ := by
      cases w.rChip <;> rfl
    simp only [Phase.drive, linesAt, released]
    rfl
  | _ => rfl

theorem phaseStep_lines {p : Phase} {s : State} {a : Addr} (past : beforeDriven (some p) = false)
    (lines : s.lines = linesAt s.work a (some p)) :
    (phaseStep p s).lines = linesAt s.work (p.addr s.work) p.next := by
  rw [phaseStep_drive, lines, drive_linesAt past]

/-- The levels of a phase are its levels at their own address. -/
theorem linesAt_own_addr (w : Work) (a : Addr) (p : Option Phase) :
    linesAt w a p = linesAt w (linesAt w a p).addr p := by
  rcases p with _ | p
  · rfl
  · cases p <;> rfl

/-- The hold is measured from RB6 on, and has elapsed when RB7 is over (R124, R234). -/
theorem phaseStep_timer (p : Phase) (s : State) :
    ((phaseStep p s).ph = some .rb7 → (phaseStep p s).tmr = .running)
      ∧ ((phaseStep p s).ph = some .rb8 → (phaseStep p s).tmr = .elapsed) := by
  rw [phaseStep_ph]
  cases p with
  | rb6 => exact ⟨fun _ => rfl, nofun⟩
  | rb7 => exact ⟨nofun, fun _ => rfl⟩
  | _ => exact ⟨nofun, nofun⟩

/-- A phase that leaves the lines driven leaves them at the levels of the next one: BU2 finds RST held and configures
them, and every later phase finds them at its own levels (R121, R128). -/
theorem Inv.phaseStep_driven {s : State} {p : Phase} (inv : Inv s) (ph : s.ph = some p)
    (driven : (phaseStep p s).driven = true) :
    (phaseStep p s).lines = linesAt s.work (p.addr s.work) p.next ∧ beforeDriven p.next = false := by
  cases wasDriven : s.driven with
  | true =>
    obtain ⟨lines, past⟩ := inv.driven wasDriven
    rw [ph] at lines past
    exact ⟨phaseStep_lines past lines, beforeDriven_next past⟩
  | false =>
    have bu2 : p = .bu2 := by
      by_contra other
      rw [(phaseStep_effect p s).driven other, wasDriven] at driven
      cases driven
    subst bu2
    have held := (inv.notDriven wasDriven).2.2 ph
    rw [phaseStep_drive, Phase.drive, held]
    exact ⟨rfl, rfl⟩

/-- A phase that leaves the lines not driven is BU1, which asserts RST (R121). -/
theorem Inv.phaseStep_notDriven {s : State} {p : Phase} (inv : Inv s) (busy : s.busy = true) (ph : s.ph = some p)
    (notDriven : (phaseStep p s).driven = false) : s.driven = false ∧ p = .bu1 := by
  cases p with
  | bu1 => exact ⟨notDriven, rfl⟩
  | bu2 => cases notDriven
  | _ =>
    rw [(phaseStep_effect _ s).driven (by decide), inv.driven_of_phase busy ph rfl] at notDriven
    cases notDriven

/-- Every phase keeps the invariant. -/
theorem Inv.phaseStep {s : State} (inv : Inv s) {p : Phase} (busy : s.busy = true) (ph : s.ph = some p) :
    Inv (phaseStep p s) := by
  have e := phaseStep_effect p s
  have tbusy := e.busy.trans busy
  have tph := phaseStep_ph p s
  have results : ResultsOk (Machine.phaseStep p s) :=
    inv.resultsOk.of_same e.size e.sizeV e.modeV (by rw [e.stack]; exact .refl _)
  exact {
    cartridge := e.cart ▸ inv.cartridge
    op := by rw [e.busy, e.op]; exact inv.op
    idle := fun idle => by rw [tbusy] at idle; cases idle
    driven := fun driven => by
      obtain ⟨lines, past⟩ := inv.phaseStep_driven ph driven
      rw [tph, e.work, lines, ← linesAt_own_addr]
      exact ⟨rfl, past⟩
    notDriven := fun notDriven => by
      obtain ⟨wasNot, rfl⟩ := inv.phaseStep_notDriven busy ph notDriven
      obtain ⟨nothing, early, -⟩ := inv.notDriven wasNot
      exact ⟨nothing, fun _ => ⟨rfl, (early busy).2⟩, fun _ => rfl⟩
    timer := phaseStep_timer p s
    stack := by rw [e.stack]; exact inv.stack
    ranges := by rw [e.stack, e.work]; exact inv.ranges
    together := results.together
    detection := results.detection
    sizes := results.sizes }

end Sys2Proof.Machine

/-! # The steps that begin and end an operation -/

namespace Sys2Proof.Machine

/-- The inputs and REQ are no part of the invariant. -/
theorem Inv.fetched {s : State} (inv : Inv s) (env : List Input) (req : ReqWord) (cmdInput : List Byte) :
    Inv (s.fetched env req cmdInput) :=
  ⟨inv.cartridge, inv.op, inv.idle, inv.driven, inv.notDriven, inv.timer, inv.stack, inv.ranges, inv.together,
    inv.detection, inv.sizes⟩

/-- FORMAT is no part of the invariant. -/
theorem Inv.setFormat {s : State} (inv : Inv s) (f : Format) : Inv (s.setFormat f) :=
  ⟨inv.cartridge, inv.op, inv.idle, inv.driven, inv.notDriven, inv.timer, inv.stack, inv.ranges, inv.together,
    inv.detection, inv.sizes⟩

/-- External reset gives the power-on state with the cartridge as it was (R230). -/
theorem Inv.externalReset {s : State} (inv : Inv s) : Inv (externalReset s) where
  __ := invariantHoldsAtReset
  cartridge := inv.cartridge

theorem State.allDetected_of_nothingDetected {s : State} (nothing : s.nothingDetected = true) :
    s.allDetected = false := by
  simp only [State.nothingDetected, Bool.and_eq_true, Bool.not_eq_true'] at nothing
  simp only [State.allDetected, nothing, Bool.and_false]

/-- Bring-up begins: nothing is detected, and below it stands at most RUN (R121, R191). -/
theorem inv_of_bringup {t : State} (cartridge : Memory.wf t.cart = true) (busy : t.busy = true) (op : t.op ≠ .idle)
    (notDriven : t.driven = false) (nothing : t.nothingDetected = true) (ph : t.ph = some .bu1)
    (stack : t.stack = [] ∨ t.stack = [.runBroughtUp]) : Inv t where
  cartridge := cartridge
  op := iff_of_false (by rw [busy]; nofun) op
  idle idle := by rw [busy] at idle; cases idle
  driven driven := by rw [notDriven] at driven; cases driven
  notDriven _ := by rw [ph]; exact ⟨nothing, fun _ => ⟨rfl, stack⟩, nofun⟩
  timer := by rw [ph]; exact ⟨nofun, nofun⟩
  stack := by obtain stack | stack := stack <;> rw [stack] <;> rfl
  ranges := by obtain stack | stack := stack <;> rw [stack] <;> rfl
  together := .inl nothing
  detection := by
    obtain stack | stack := stack <;> rw [stack]
    · exact nofun
    · exact nothing
  sizes all := by rw [State.allDetected_of_nothingDetected nothing] at all; cases all

/-- An accepted operation that reads the cartridge begins on driven, idle lines (R232). -/
theorem Inv.accepted_going {i : Instr} {s t : State} (inv : Inv s) (runs : Accepted i s t) (driven : s.driven = true)
    (ph : s.ph = none) (tbusy : t.busy = true) (top : t.op ≠ .idle) (tph : t.ph = none ∨ t.ph = some .rb1)
    (placed : Placed t.work t.stack) (results : ResultsOk t) : Inv t := by
  have e := runs.effect
  refine inv_of_going (e.cart ▸ inv.cartridge) tbusy top (e.driven.trans driven) ?_ tph placed results
  rw [e.lines]
  exact inv.lines_idleAt driven ph

/-- Such an operation, accepted by an idle block, asks nothing of the detection results unless it is DETECT. -/
theorem Inv.accepted_idle {i : Instr} {s t : State} (inv : Inv s) (runs : Accepted i s t) (idle : s.busy = false)
    (driven : s.driven = true) (tbusy : t.busy = true) (top : t.op ≠ .idle) (tph : t.ph = none ∨ t.ph = some .rb1)
    (placed : Placed t.work t.stack) (asks : AsksNoMore t.stack []) : Inv t := by
  have e := runs.effect
  obtain ⟨ph, stack⟩ := inv.idle idle
  exact inv.accepted_going runs driven ph tbusy top tph placed
    (inv.resultsOk.of_same e.size e.sizeV e.modeV (stack ▸ asks))

/-- Where RUN awaits a command the command loop is its only control point (R191). -/
theorem Inv.stack_of_awaitsCommand {s : State} (inv : Inv s) (awaits : s.awaitsCommand = true) :
    s.ph = none ∧ s.stack = [.commandLoop] := by
  simp only [State.awaitsCommand, Bool.and_eq_true, beq_iff_eq] at awaits
  obtain ⟨⟨-, ph⟩, head⟩ := awaits
  obtain ⟨rest, stack⟩ := List.head?_eq_some_iff.mp head
  have ok := inv.stack
  rw [stack] at ok
  have nothingBelow : rest = [] := stackOk_cons.mp ok
  exact ⟨ph, nothingBelow ▸ stack⟩

/-- Accepting an instruction keeps the invariant. -/
theorem Inv.accepted {i : Instr} {s t : State} (inv : Inv s) (runs : Accepted i s t) : Inv t := by
  have way := runs
  cases way with
  | same => exact inv
  | format f => exact inv.setFormat f
  | bringup idle notDriven =>
    exact inv_of_bringup inv.cartridge rfl nofun notDriven (inv.notDriven notDriven).1 rfl (.inl rfl)
  | run idle atPowerOn =>
    simp only [State.atPowerOn, Bool.and_eq_true, Bool.not_eq_true'] at atPowerOn
    exact inv_of_bringup inv.cartridge rfl nofun atPowerOn.1 atPowerOn.2 rfl (.inr rfl)
  | readByte idle driven =>
    exact inv.accepted_idle runs idle driven rfl nofun (.inr rfl) (placed_nil _) (.refl _)
  | compareBlock idle driven domain =>
    exact inv.accepted_idle runs idle driven rfl nofun (.inl rfl) (placed_startCompare (.alone _) rfl domain)
      ⟨rfl, nofun⟩
  | getSize idle driven =>
    exact inv.accepted_idle runs idle driven rfl nofun (.inl rfl) (placed_startGetSize (.alone _) rfl) ⟨rfl, nofun⟩
  | probeMode idle driven =>
    exact inv.accepted_idle runs idle driven rfl nofun (.inl rfl) (placed_startProbe (.alone _) rfl) ⟨rfl, nofun⟩
  | detect idle driven nothing =>
    exact inv.accepted_going runs driven (inv.idle idle).1 rfl nofun (.inl rfl) (placed_cons.mpr ⟨.alone, rfl, rfl⟩)
      ⟨inv.together, nothing, inv.sizes⟩
  | dump idle driven domain =>
    exact inv.accepted_idle runs idle driven rfl nofun (.inl rfl) (placed_startDump .alone domain) ⟨rfl, nofun⟩
  | command hi idle driven detected domain =>
    refine inv.accepted_idle runs idle driven rfl ?_ (.inl rfl) (placed_startDump .alone domain) ⟨rfl, nofun⟩
    obtain ⟨-, rfl⟩ | ⟨-, rfl⟩ := hi
    · exact nofun
    · exact nofun
  | commandInLoop hi busy loop driven detected domain =>
    obtain ⟨ph, stack⟩ := inv.stack_of_awaitsCommand loop
    have asks (d : DumpArgs) : AsksNoMore (.dumpBank d :: s.stack) s.stack := by
      rw [stack]
      exact ⟨rfl, fun _ => id⟩
    exact inv.accepted_going runs driven ph busy (inv.op_ne_idle busy) (.inl ph)
      (placed_startDump (stack ▸ .loop) domain) (inv.resultsOk.of_same rfl rfl rfl (asks _))

/-- A step without external reset keeps the invariant. -/
theorem StepCase.inv {s t : State} (h : StepCase s t) (inv : Inv s) : Inv t := by
  cases h with
  | accepted i env req cmdInput _ runs => exact (inv.fetched env req cmdInput).accepted runs
  | idle env cmdInput => exact inv.fetched env s.req cmdInput
  | phase p env cmdInput busy ph => exact (inv.fetched env s.req cmdInput).phaseStep busy ph
  | complete env cmdInput busy ph stack => exact (inv.fetched env s.req cmdInput).complete busy ph stack
  | control ready f rest env cmdInput busy ph stack =>
    exact (inv.fetched env s.req cmdInput).frameStep ready busy ph stack

/-- Settles O49: external reset gives the power-on state, and every other step is one of the cases of `StepCase`. -/
theorem everyStepKeepsTheInvariant : Obligations.EveryStepKeepsTheInvariant := by
  intro s t inv h
  obtain ⟨es, -, rfl⟩ | ⟨i, env, req, cmdInput, fetched, runs⟩ | ⟨ready, env, cmdInput, -, blocked, rfl⟩ :=
    step_next h
  · exact (inv.fetched es s.req s.cmdInput).externalReset
  · exact (StepCase.accepted i env req cmdInput fetched runs).inv inv
  · exact (advance_cases s ready env cmdInput blocked).inv inv

end Sys2Proof.Machine

/-! # Bring-up, the line trace and READ_BYTE -/

namespace Sys2Proof.Machine

/-- A running phase is one step, and its state the next of the trail. -/
theorem trail_phase {s : State} {p : Phase} (n : Nat) (busy : s.busy = true) (quiet : Quiet s) (ph : s.ph = some p) :
    trail (n + 1) s = phaseStep p s :: trail n (phaseStep p s) := by
  rw [trail, step_phase quiet busy ph]

/-! ## The line trace -/

/-- PH after each of the next `n` steps, up to the end of bring-up or of the read cycle. -/
def Phase.following : Nat → Option Phase → List (Option Phase)
  | 0, _ => []
  | _, none => []
  | n + 1, some p => p.next :: Phase.following n p.next

theorem Phase.addr_next {p q : Phase} (next : p.next = some q) (w : Work) : q.addr w = p.addr w := by
  cases p <;> cases next <;> rfl

/-- A phase is to run on driven lines at its own levels, with no input pending (R128). -/
structure AtPhase (p : Phase) (s : State) : Prop where
  busy : s.busy = true
  quiet : Quiet s
  driven : s.driven = true
  ph : s.ph = some p
  past : beforeDriven (some p) = false
  lines : ∃ a, s.lines = linesAt s.work a (some p)

/-- It leaves the levels of the next phase. -/
theorem AtPhase.levels {p : Phase} {s : State} (h : AtPhase p s) :
    (phaseStep p s).driven = true ∧ (phaseStep p s).lines = linesAt s.work (p.addr s.work) p.next := by
  obtain ⟨a, lines⟩ := h.lines
  have other : p ≠ .bu2 := by
    rintro rfl
    cases h.past
  exact ⟨((phaseStep_effect p s).driven other).trans h.driven, phaseStep_lines h.past lines⟩

/-- The next phase is to run then. -/
theorem AtPhase.next {p q : Phase} {s : State} (h : AtPhase p s) (next : p.next = some q) :
    AtPhase q (phaseStep p s) := by
  have e := phaseStep_effect p s
  obtain ⟨driven, lines⟩ := h.levels
  rw [next] at lines
  exact {
    busy := e.busy.trans h.busy
    quiet := e.env.trans h.quiet
    driven := driven
    ph := (phaseStep_ph p s).trans next
    past := next ▸ beforeDriven_next h.past
    lines := ⟨_, e.work ▸ lines⟩ }

/-- The levels after each phase, as far as phases follow, are the table's. -/
theorem AtPhase.trail_lineLevels {n : Nat} {p : Phase} {s : State} (h : AtPhase p s)
    (long : (Phase.following n (some p)).length = n) :
    (trail n s).map State.lineLevels
      = (Phase.following n (some p)).map fun q => some (linesAt s.work (p.addr s.work) q) := by
  induction n generalizing p s with
  | zero => rfl
  | succ n ih =>
    obtain ⟨driven, lines⟩ := h.levels
    have first : (phaseStep p s).lineLevels = some (linesAt s.work (p.addr s.work) p.next) := by
      rw [State.lineLevels, if_pos driven, lines]
    have long : (Phase.following n p.next).length = n := Nat.succ.inj long
    rw [trail_phase n h.busy h.quiet h.ph, List.map_cons, first, Phase.following, List.map_cons]
    cases next : p.next with
    | none =>
      obtain rfl : n = 0 := by
        rw [← long, next]
        cases n <;> rfl
      rfl
    | some q =>
      rw [next] at long
      rw [ih (h.next next) long, (phaseStep_effect p s).work, Phase.addr_next next]

/-- Settles O15: thirteen phases follow one another from RB1 on, and their levels are the rows of the table. -/
theorem readCycleLineTrace : Obligations.ReadCycleLineTrace := by
  intro s busy quiet driven lines ph
  have start : AtPhase .rb1 s := ⟨busy, quiet, driven, ph, rfl, s.lines.addr, lines⟩
  rw [start.trail_lineLevels rfl]
  have enables : PerChip.set ⟨true, true⟩ s.work.rChip false = ⟨s.work.rChip != .rom, s.work.rChip != .ram⟩ := by
    cases s.work.rChip <;> rfl
  simp only [Phase.following, List.map_cons, linesAt, enables]
  rfl

/-! ## BRINGUP -/

/-- An accepted bring-up is at BU1 and has nothing below it. -/
theorem execBringup_of_idle {s : State} (idle : s.busy = false) (notDriven : s.driven = false) :
    exec .bringup s = .next (startBringup [] (s.accept .bringup [])) := by
  simp [exec, execBringup, whenIdle, idle, notDriven]

/-- The levels after BU1 to BU4: none but RST's before BU2 (R121, R23). -/
theorem trail_bringup {t : State} (busy : t.busy = true) (quiet : Quiet t) (notDriven : t.driven = false)
    (ph : t.ph = some .bu1) :
    (trail 4 t).map State.lineLevels = [none, some { Lines.idleAt 0 with rst := true },
        some { Lines.idleAt 0 with rst := true }, some (Lines.idleAt 0)]
      ∧ (trail 4 t).map State.rstLevel = [some true, some true, some true, some false] := by
  have before : (phaseStep .bu1 t).driven = false := notDriven
  rw [trail_phase 3 busy quiet ph, trail_phase (s := phaseStep .bu1 t) 2 busy quiet rfl,
    trail_phase (s := phaseStep .bu2 (phaseStep .bu1 t)) 1 busy quiet rfl,
    trail_phase (s := phaseStep .bu3 (phaseStep .bu2 (phaseStep .bu1 t))) 0 busy quiet rfl]
  simp only [List.map_cons, State.lineLevels, State.rstLevel, before]
  exact ⟨rfl, rfl⟩

/-- Settles O14: the four phases of `bringup_runs`, then the end of the operation. -/
theorem bringupDrivesTheLinesIdle : Obligations.BringupDrivesTheLinesIdle := by
  intro s idle quiet
  refine ⟨fun driven => by simp [exec, execBringup, whenIdle, idle, driven], fun notDriven => ?_⟩
  have runs := bringup_runs (s := startBringup [] (s.accept .bringup [])) rfl quiet rfl
  have completes := completes_of_runs runs rfl quiet rfl rfl
  rw [complete_nothing rfl rfl rfl] at completes
  exact ⟨_, _, execBringup_of_idle idle notDriven, completes, rfl, linesVectorLayout.2.2.1,
    trail_bringup rfl quiet notDriven rfl⟩

/-! ## READ_BYTE -/

/-- Settles O16: one read cycle (`startRead_runs`), then the end of the operation, which returns the byte. -/
theorem readByteReturnsTheDeviceByte : Obligations.ReadByteReturnsTheDeviceByte := by
  intro s chip bankA bankB address idle quiet
  refine ⟨fun notDriven => ?_, fun driven notIdle => ?_, fun driven lines => ?_⟩
  · simp [exec, execReadByte, whenIdle, whenDriven, idle, notDriven]
  · simp [exec, execReadByte, whenIdle, whenDriven, idle, driven, notIdle]
  · have ready : Ready s := ⟨idle, driven, lines, quiet⟩
    have accepted : exec (.readByte chip bankA bankB address) s
        = .next (startRead chip bankA bankB address [] (s.accept .readByte [])) := by
      simp [exec, execReadByte, whenIdle, whenDriven, idle, driven, lines]
    have runs := startRead_runs (ready.accept_going .readByte []) ⟨chip, bankA, bankB, address⟩ []
    exact ⟨_, _, accepted, rfl, rfl, rfl, rfl, completes_of_runs runs rfl quiet rfl rfl,
      complete_value rfl rfl rfl, rfl, rfl⟩

end Sys2Proof.Machine

/-! # The capacity detector as a requested operation

The loops' own lemmas say what COMPARE_BLOCK and GET_SIZE read and return; `Ready.completes_of_readsDone` turns such a
run, begun by an accepted request, into the completion that the host sees. -/

namespace Sys2Proof.Machine

/-! ## From a run of the pseudocode to the completed operation -/

/-- Reads leave the working registers alone but for the operand latches (R29). -/
theorem afterReads_work (s : State) (reads : List BusRead) :
    (s.afterReads reads).work = s.work.latch (latchedRead (s.afterReads reads).work) := by
  rw [afterReads_eq]
  rfl

/-- That BUSY rose and OP was set on the way is not seen any more once the operation has returned (R31). -/
theorem returned_afterReads_accept (s : State) (op : Op) (reads : List BusRead) (w : Work) (v : Size) :
    State.returned
      { (s.accept op []).afterReads reads with
        work := w.latch (latchedRead ((s.accept op []).afterReads reads).work)
        ph := none
        stack := []
        ret := some v } v
      = State.returned { s.afterReads reads with work := w.latch (latchedRead (s.afterReads reads).work) } v := by
  unfold State.afterReads
  split <;> rfl

/-- An operation accepted in a ready state, whose pseudocode only reads, completes: it starts at `t`, where no read cycle
has begun, and returns `v` with the working registers `w`. What its reads leave is then on the lines, in BYTE and in the
operand latches. -/
theorem Ready.completes_of_readsDone {s t : State} {op : Op} {reads : List BusRead} {x : ReadEffect} {w : Work} {v : Size}
    (ready : Ready s) (runs : Runs t reads ((s.accept op []).readsDone x w [] (some v))) (going : Going t)
    (ph : t.ph = none) (cart : t.cart = s.cart) (part : t.readPart = s.readPart) :
    Completes t reads (State.returned
      { s.afterReads reads with work := w.latch (latchedRead (s.afterReads reads).work) } v) := by
  have accepted : Going (s.accept op []) := ready.accept_going op []
  have completes := completes_of_runs runs accepted.busy accepted.quiet rfl rfl
  have left := ((going.tracks ph runs).settled rfl).trans
    (afterReads_readPart_congr (s := s.accept op []) cart part reads)
  rw [complete_value rfl rfl rfl, readsDone_eq accepted.lines left] at completes
  exact returned_afterReads_accept s op reads w v ▸ completes

/-! ## COMPARE_BLOCK -/

/-- In a ready state only the block size can still be refused (R95, R150). -/
theorem execCompareBlock_of_ready {s : State} (ready : Ready s) (chip : Chip) (blockSize : Size) :
    exec (.compareBlock chip blockSize) s
      = whenInDomain blockSize (.next (startCompare chip blockSize [] (s.accept .compareBlock []))) := by
  simp [exec, execCompareBlock, whenIdle, whenDriven, ready.idle, ready.driven]

/-- A truth value as RESULT shows it (R93). -/
theorem sizeOfBool_decide (p : Prop) [Decidable p] :
    (p ∧ sizeOfBool (decide p) = 1#17) ∨ (¬ p ∧ sizeOfBool (decide p) = 0#17) := by
  by_cases h : p
  · exact .inl ⟨h, by rw [decide_eq_true h]; rfl⟩
  · exact .inr ⟨h, by rw [decide_eq_false h]; rfl⟩

/-- Settles O21: the comparison of `startCompare_runs`, as an operation of its own. -/
theorem compareBlockComparesTheBlocks : Obligations.CompareBlockComparesTheBlocks := by
  classical
  intro s chip blockSize ready
  rw [execCompareBlock_of_ready ready]
  refine ⟨fun large => if_neg (by simpa [sizeInDomain] using large), fun inDomain => ?_⟩
  have accepted := ready.accept_going .compareBlock []
  obtain ⟨x, idx, first, r, k, runs, count⟩ := startCompare_runs (chip := chip) inDomain (rest := []) accepted rfl
  rw [BitVec.ofNat_toNat, BitVec.setWidth_eq] at runs
  have completes := ready.completes_of_readsDone runs
    ⟨accepted.busy, accepted.driven, accepted.lines, accepted.quiet⟩ rfl rfl rfl
  refine ⟨_, _, k, idx, first, _, if_pos (decide_eq_true inDomain), count.isPairCount, completes, ?_,
    sizeOfBool_decide (BlocksEqual s.cart chip blockSize.toNat)⟩
  rw [afterReads_work]
  rfl

/-- A comparison of equal blocks reads every pair (R151). -/
theorem IsPairCount.eq_of_blocksEqual {early : Bool} {cart : List Host.Cell} {chip : Chip} {n k : Nat}
    (count : IsPairCount early cart chip n k) (equal : BlocksEqual cart chip n) : k = n := by
  obtain ⟨-, all⟩ | ⟨-, all⟩ | ⟨-, f, ⟨lt, unequal, -⟩, -⟩ := count
  · exact all
  · exact all
  · exact absurd (equal f lt) unequal

/-- The chip's content, bank lines deasserted, depends on the address modulo `n` only (R63, R152). -/
abbrev Repeats (cart : List Host.Cell) (chip : Chip) (n : Nat) : Prop :=
  ∀ a : Addr, dev cart chip false false a = dev cart chip false false (BitVec.ofNat 16 (a.toNat % n))

/-- The byte at an address is the one at its residue, and the wraparound at 65536 does not matter where `n` divides
65536. -/
theorem Repeats.plainByte_mod {cart : List Host.Cell} {chip : Chip} {n a : Nat} (repeats : Repeats cart chip n)
    (wraps : n ∣ 65536 ∨ a < 65536) : plainByte cart chip a = plainByte cart chip (a % n) := by
  have residue : a % 65536 % n = a % n :=
    wraps.elim (Nat.mod_mod_of_dvd a) fun inside => by rw [Nat.mod_eq_of_lt inside]
  rw [plainByte, repeats, BitVec.toNat_ofNat, residue]
  rfl

/-- Two neighbouring blocks of a multiple of the capacity are equal (R152). -/
theorem Repeats.blocksEqual {cart : List Host.Cell} {chip : Chip} {n size : Nat} (repeats : Repeats cart chip n)
    (multiple : n ∣ size) (wraps : n ∣ 65536 ∨ size ≤ 32768) : BlocksEqual cart chip size := by
  intro i lt
  have residue : (i + size) % n = i % n := by
    obtain ⟨q, rfl⟩ := multiple
    exact Nat.add_mul_mod_self_left i n q
  rw [repeats.plainByte_mod (wraps.imp_right fun _ => by omega), repeats.plainByte_mod (a := i + size)
    (wraps.imp_right fun _ => by omega), residue]

/-- Settles O22: the two blocks are equal, so all pairs are read and the result is 1. -/
theorem compareSucceedsAtMultiplesOfTheCapacity : Obligations.CompareSucceedsAtMultiplesOfTheCapacity := by
  intro s chip n blockSize ready _ multiple inDomain wraps repeats
  have equal : BlocksEqual s.cart chip blockSize.toNat := Repeats.blocksEqual repeats multiple wraps
  obtain ⟨t, u, k, idx, first, r, accepted, count, completes, rfl, value⟩ :=
    (compareBlockComparesTheBlocks s chip blockSize ready).2 inDomain
  obtain rfl := count.eq_of_blocksEqual equal
  obtain ⟨-, one⟩ | ⟨unequal, -⟩ := value
  · exact ⟨t, _, accepted, completes, one, rfl⟩
  · exact absurd equal unequal

/-! ## GET_SIZE -/

theorem execGetSize_of_ready {s : State} (ready : Ready s) (chip : Chip) :
    exec (.getSize chip) s = .next (startGetSize chip [] (s.accept .getSize [])) := by
  simp [exec, execGetSize, whenIdle, whenDriven, ready.idle, ready.driven]

/-- GET_SIZE completes with the probe before the first failing one (R153, R156), having read all pairs down to it. -/
theorem Ready.getSize_completes {s : State} {chip : Chip} {j : Nat} (ready : Ready s)
    (failure : FirstFailure s.cart chip j) :
    ∃ k idx first, IsPairCount s.params.compareEarlyExit s.cart chip (2 ^ j) k
      ∧ Completes (startGetSize chip [] (s.accept .getSize [])) (sizeSweep chip (2 ^ (j + 1)) k)
        (({ s.afterReads (sizeSweep chip (2 ^ (j + 1)) k) with
          work := { (s.afterReads (sizeSweep chip (2 ^ (j + 1)) k)).work with
            sizeW := BitVec.ofNat 17 (2 ^ (j + 1)), probe := BitVec.ofNat 16 (2 ^ j), bs := BitVec.ofNat 17 (2 ^ j)
            idx := idx, first := first } } : State).returned (BitVec.ofNat 17 (2 ^ (j + 1)))) := by
  have accepted := ready.accept_going .getSize []
  obtain ⟨x, idx, first, r, k, runs, count⟩ := startGetSize_runs (rest := []) accepted rfl failure
  rw [sizeReads_eq failure.le] at runs
  have completes := ready.completes_of_readsDone runs
    ⟨accepted.busy, accepted.driven, accepted.lines, accepted.quiet⟩ rfl rfl rfl
  refine ⟨k, idx, first, count.isPairCount, ?_⟩
  rw [afterReads_work]
  exact completes

theorem pow_succ_half (j : Nat) : 2 ^ (j + 1) / 2 = 2 ^ j := by
  rw [Nat.pow_succ, Nat.mul_div_cancel _ Nat.two_pos]

/-- Settles O23: on a chip that is not uniform there is a first failing probe (`exists_first_failure`). -/
theorem getSizeReturnsTheDetectedSize : Obligations.GetSizeReturnsTheDetectedSize := by
  intro s chip ready notUniform
  obtain ⟨j, failure⟩ := exists_first_failure notUniform
  obtain ⟨k, idx, first, count, completes⟩ := ready.getSize_completes failure
  have above : 2 ^ 1 ≤ 2 ^ (j + 1) := Nat.pow_le_pow_right Nat.two_pos (Nat.le_add_left 1 j)
  have below : 2 ^ (j + 1) ≤ 2 ^ 16 := Nat.pow_le_pow_right Nat.two_pos (Nat.succ_le_succ failure.le)
  exact ⟨_, _, 2 ^ (j + 1), k, _, _, idx, first, execGetSize_of_ready ready chip, failure.isDetectedSize, above, below,
    ⟨j + 1, rfl⟩, by rwa [pow_succ_half], completes, rfl⟩

/-- A turn at probe 1 ends in the state it is taken in, once one was taken (R155). -/
theorem turnAtOne_turnAtOne (chip : Chip) (rest : List Frame) (s : State) :
    turnAtOne chip rest (turnAtOne chip rest s) = turnAtOne chip rest s := rfl

/-- Settles O24: on a uniform chip the loop comes to probe 1 and turns there; on any other GET_SIZE completes. -/
theorem getSizeHangsExactlyOnUniformChips : Obligations.GetSizeHangsExactlyOnUniformChips := by
  intro s chip ready
  have accepted := ready.accept_going .getSize []
  refine ⟨_, execGetSize_of_ready ready chip, ⟨fun hangs => ?_, startGetSize_neverCompletes accepted rfl⟩, fun uniform => ?_⟩
  · by_contra notUniform
    obtain ⟨j, failure⟩ := exists_first_failure notUniform
    obtain ⟨k, idx, first, -, completes⟩ := ready.getSize_completes failure
    exact hangs.not_completes completes
  · have start : AtSizeLoop chip 15 [] (startGetSize chip [] (s.accept .getSize [])) :=
      ⟨⟨accepted.busy, accepted.driven, accepted.lines, accepted.quiet⟩, rfl, rfl, rfl⟩
    obtain ⟨w, runs, atOne, cart⟩ := sizeLoop_uniform_runs 15 (Nat.le_refl 15) start uniform
    have stillUniform : Uniform w.cart chip := cart ▸ uniform
    have turn := sizeLoop_turn_at_one (turnAtOne_at atOne) stillUniform
    rw [turnAtOne_turnAtOne] at turn
    exact ⟨turnAtOne chip [] w, runs, atOne.going.busy, rfl, rfl, turn⟩

/-! ## The number of read cycles -/

theorem pairReads_length (chip : Chip) (n k : Nat) : (pairReads chip n k).length = 2 * k := by
  simp [pairReads, Nat.mul_comm]

/-- Two reads for each pair; the pairs at the probes `2 ^ (j + m)` down to `2 ^ (j + 1)` add up to their geometric sum
(R158). -/
theorem sizeReads_length (chip : Chip) (j k m : Nat) :
    (sizeReads chip j k m).length = 2 * (2 ^ (j + m + 1) - 2 ^ (j + 1)) + 2 * k := by
  induction m with
  | zero => simp [sizeReads, pairReads_length]
  | succ m ih =>
    have grows : 2 ^ (j + 1) ≤ 2 ^ (j + m + 1) := Nat.pow_le_pow_right Nat.two_pos (by omega)
    have doubles : 2 ^ (j + (m + 1) + 1) = 2 ^ (j + m + 1) * 2 := pow_succ 2 (j + m + 1)
    rw [sizeReads, List.length_append, ih, pairReads_length, doubles]
    omega

/-- GET_SIZE's count of R158. -/
theorem sizeSweep_length (chip : Chip) {j : Nat} (le : j ≤ 15) (k : Nat) :
    (sizeSweep chip (2 ^ (j + 1)) k).length = 2 * (65536 - 2 ^ (j + 1)) + 2 * k := by
  rw [← sizeReads_eq le, sizeReads_length, Nat.add_sub_cancel' le]
  rfl

/-- On a chip that mirrors a power of two every comparison from that size on succeeds, so the first failing probe is its
half if the comparison there fails (R157). -/
theorem firstFailure_of_mirrors {cart : List Host.Cell} {chip : Chip} {j : Nat} (le : j ≤ 15)
    (mirrors : Mirrors cart chip (2 ^ (j + 1))) (fails : ¬ BlocksEqual cart chip (2 ^ j)) : FirstFailure cart chip j where
  le := le
  fails := fails
  above _ lt _ :=
    have wraps : 2 ^ (j + 1) ∣ 2 ^ 16 := pow_dvd_pow 2 (Nat.succ_le_succ le)
    Repeats.blocksEqual (mirrors false false) (pow_dvd_pow 2 lt) (.inl wraps)

/-- Settles O25: the first failing probe is half the capacity. -/
theorem getSizeFindsTheCapacity : Obligations.GetSizeFindsTheCapacity := by
  intro s chip e ready pos le mirrors fails
  obtain ⟨j, rfl⟩ := Nat.exists_eq_add_of_le' pos
  rw [pow_succ_half] at fails
  have failure := firstFailure_of_mirrors (Nat.le_of_succ_le_succ le) mirrors fails
  obtain ⟨k, idx, first, count, completes⟩ := ready.getSize_completes failure
  exact ⟨_, _, _, k, execGetSize_of_ready ready chip, completes, rfl, rfl, by rwa [pow_succ_half],
    sizeSweep_length chip failure.le k⟩

end Sys2Proof.Machine

/-! # The bank-select probe and DETECT as requested operations -/

namespace Sys2Proof.Machine

/-! ## PROBE_MODE -/

theorem execProbeMode_of_ready {s : State} (ready : Ready s) (chip : Chip) :
    exec (.probeMode chip) s = .next (startProbe chip [] (s.accept .probeMode [])) := by
  simp [exec, execProbeMode, whenIdle, whenDriven, ready.idle, ready.driven]

/-- ModeFlags in RESULT: affectsA is bit 0, affectsB is bit 1, and the other bits are zero (R93). -/
theorem packMode_bits (m : ModeFlags) :
    (packMode m).getLsbD 0 = m.affectsA ∧ (packMode m).getLsbD 1 = m.affectsB ∧ (packMode m).extractLsb' 2 15 = 0 := by
  obtain ⟨affectsA, affectsB⟩ := m
  revert affectsA affectsB
  decide

/-- Settles O26: the three reads of `startProbe_runs`, then the end of the operation, which returns the two flags. -/
theorem probeModeComparesWithTheBaseline : Obligations.ProbeModeComparesWithTheBaseline := by
  intro s chip ready
  have runs := startProbe_runs (chip := chip) (rest := []) (ready.accept_going .probeMode []) rfl
  have completes := completes_of_runs runs rfl ready.quiet rfl rfl
  rw [complete_value rfl rfl rfl] at completes
  exact ⟨_, _, execProbeMode_of_ready ready chip, completes, rfl, rfl, packMode_bits (modeOf s.cart chip)⟩

/-! ## DETECT -/

/-- Of an idle block with driven lines DETECT asks only that nothing is detected (R174, R232). -/
theorem execDetect_of_driven {s : State} (idle : s.busy = false) (driven : s.driven = true) :
    exec .detect s
      = if s.nothingDetected then .next (startDetect [] (s.accept .detect [])) else .refused .alreadyDetected := by
  simp [exec, execDetect, whenIdle, whenDriven, idle, driven]

theorem execDetect_of_ready {s : State} (ready : Ready s) (nothing : s.nothingDetected = true) :
    exec .detect s = .next (startDetect [] (s.accept .detect [])) := by
  rw [execDetect_of_driven ready.idle ready.driven, if_pos nothing]

theorem notValid_of_nothingDetected {s : State} (nothing : s.nothingDetected = true) (chip : Chip) :
    s.sizeV.get chip = false ∧ s.modeV.get chip = false := by
  simp only [State.nothingDetected, Bool.and_eq_true, Bool.not_eq_true'] at nothing
  obtain ⟨⟨⟨romSize, ramSize⟩, romMode⟩, ramMode⟩ := nothing
  cases chip with
  | rom => exact ⟨romSize, romMode⟩
  | ram => exact ⟨ramSize, ramMode⟩

/-- Settles O29: with a validity bit true something is detected. -/
theorem secondDetectIsRefused : Obligations.SecondDetectIsRefused := by
  rintro s idle driven ⟨chip, valid⟩
  rw [execDetect_of_driven idle driven, if_neg]
  intro nothing
  simp [notValid_of_nothingDetected nothing chip] at valid

/-- What a sequence of reads that ends with PROBE_MODE's leaves is what the last of these leaves. -/
theorem afterReads_append_probeReads (s : State) (reads : List BusRead) (chip : Chip) :
    s.afterReads (reads ++ probeReads chip) = s.afterReads [lastProbeRead chip] := by
  rw [← afterReads_snoc s (reads ++ [⟨chip, false, false, 0⟩, ⟨chip, true, false, 0⟩]) (lastProbeRead chip),
    List.append_assoc]
  rfl

/-- Settles O27: the four steps of `startDetect_runs`, then the end of the operation, which returns nothing. -/
theorem detectStoresTheFourResults : Obligations.DetectStoresTheFourResults := by
  intro s ready nothing romNotUniform ramNotUniform
  obtain ⟨j0, failure0⟩ := exists_first_failure romNotUniform
  obtain ⟨j1, failure1⟩ := exists_first_failure ramNotUniform
  obtain ⟨idx, first, k0, k1, runs, count0, count1⟩ :=
    startDetect_runs (rest := []) (ready.accept_going .detect []) rfl failure0 failure1
  have completes := completes_of_runs runs rfl ready.quiet rfl rfl
  rw [sizeReads_eq failure0.le, sizeReads_eq failure1.le, ← List.append_assoc, ← List.append_assoc,
    complete_nothing rfl rfl rfl] at completes
  refine ⟨_, _, 2 ^ (j0 + 1), 2 ^ (j1 + 1), k0, k1, BitVec.ofNat 17 (2 ^ (j1 + 1)), BitVec.ofNat 16 (2 ^ j1),
    BitVec.ofNat 17 (2 ^ j1), idx, first, _, execDetect_of_ready ready nothing, failure0.isDetectedSize,
    failure1.isDetectedSize, ?_, ?_, rfl, completes, ?_⟩
  · rw [pow_succ_half]
    exact count0.isPairCount
  · rw [pow_succ_half]
    exact count1.isPairCount
  · rw [afterReads_append_probeReads]
    rfl

end Sys2Proof.Machine

/-! # DETECT on a uniform chip

GET_SIZE then turns in its loop for ever, and at each turn nothing has been stored or emitted (`Turning`). Wherever a
run stands, such a turn is still ahead of it (`Recurs.leadsTo_of_runs`), and no step takes a detection result or an
emitted byte back (`Grows`): so nothing has been stored or emitted there either. -/

namespace Sys2Proof.Machine

/-! ## What no step takes back -/

/-- The detection results with their validity bits (R26, R27). -/
structure Results where
  size : PerChip Size
  sizeV : PerChip Bool
  mode : PerChip ModeFlags
  modeV : PerChip Bool

def State.results (s : State) : Results := ⟨s.size, s.sizeV, s.mode, s.modeV⟩

theorem results_congr {s t : State} (size : t.size = s.size) (sizeV : t.sizeV = s.sizeV) (mode : t.mode = s.mode)
    (modeV : t.modeV = s.modeV) : t.results = s.results := by
  rw [State.results, size, sizeV, mode, modeV]
  rfl

theorem nothingDetected_of_results {s t : State} (same : t.results = s.results) :
    t.nothingDetected = s.nothingDetected := by
  simp only [State.results, Results.mk.injEq] at same
  obtain ⟨-, sizeV, -, modeV⟩ := same
  rw [State.nothingDetected, sizeV, modeV]
  rfl

/-- OUT has only grown from `s` to `t`, and where nothing is detected in `t` the results are still those of `s`. -/
structure Grows (s t : State) : Prop where
  out : s.out <+: t.out
  results : t.nothingDetected = true → t.results = s.results

theorem Grows.refl (s : State) : Grows s s := ⟨List.prefix_rfl, fun _ => rfl⟩

theorem Grows.trans {s t u : State} (h : Grows s t) (k : Grows t u) : Grows s u where
  out := h.out.trans k.out
  results nothing :=
    have same := k.results nothing
    same.trans (h.results (nothingDetected_of_results same ▸ nothing))

/-- Results are stored by the last control point of DETECT alone, which sets the validity bits (R174). -/
theorem StepCase.results {s t : State} (h : StepCase s t) (nothing : t.nothingDetected = true) :
    t.results = s.results := by
  cases h with
  | accepted i env req cmdInput _ runs =>
    have e := runs.effect
    exact results_congr e.size e.sizeV e.mode e.modeV
  | idle => rfl
  | phase p env cmdInput =>
    have e := phaseStep_effect p (s.fetched env s.req cmdInput)
    exact results_congr e.size e.sizeV e.mode e.modeV
  | complete env cmdInput =>
    have e := complete_effect (s.fetched env s.req cmdInput)
    exact results_congr e.size e.sizeV e.mode e.modeV
  | control ready f rest env cmdInput =>
    obtain ⟨size, sizeV, mode, modeV⟩ | ⟨s0, s1, m0, rfl⟩ :=
      (frameStep_outputs ready f rest (s.fetched env s.req cmdInput)).2
    · exact results_congr size sizeV mode modeV
    · cases nothing

theorem StepCase.grows {s t : State} (h : StepCase s t) : Grows s t where
  out := by
    obtain same | ⟨-, -, -, v, -, -, -, grown⟩ := h.out
    · rw [same]
    · rw [grown]
      exact List.prefix_append s.out [v]
  results := h.results

theorem Quiet.notReset {s : State} (quiet : Quiet s) : NotReset s := by
  intro es reset
  cases quiet.symm.trans reset

/-- A tracked run takes nothing back. -/
theorem Tracks.grows {s v u : State} {l m : List BusRead} (tracks : Tracks s l v) (runs : Runs v m u) : Grows v u := by
  induction runs generalizing l with
  | refl v => exact .refl v
  | step busy next _ ih => exact (step_cases tracks.quiet.notReset next).grows.trans (ih (tracks.step busy next))

/-! ## What a run always comes back to -/

/-- A state of the kind `P` is still ahead. -/
def LeadsTo (P : State → Prop) (s : State) : Prop := ∃ l t, Runs s l t ∧ P t

/-- From a state of the kind `P` the machine comes, with a read cycle on the way, to such a state again. -/
def Recurs (P : State → Prop) : Prop := ∀ s, P s → ∃ l t, l ≠ [] ∧ Runs s l t ∧ P t

/-- The step towards such a state. -/
theorem Recurs.next {P : State → Prop} (recurs : Recurs P) {s : State} (ahead : LeadsTo P s) :
    s.busy = true ∧ ∃ t, step s = .next t ∧ LeadsTo P t := by
  obtain ⟨l, v, runs, kind⟩ := ahead
  cases runs with
  | step busy next after => exact ⟨busy, _, next, _, v, after, kind⟩
  | refl =>
    obtain ⟨m, w, reads, turn, again⟩ := recurs s kind
    cases turn with
    | refl => exact absurd rfl reads
    | step busy next after => exact ⟨busy, _, next, _, w, after, again⟩

/-- However far it runs, such a state is still ahead. -/
theorem Recurs.leadsTo_of_runs {P : State → Prop} (recurs : Recurs P) {s u : State} {l : List BusRead}
    (ahead : LeadsTo P s) (runs : Runs s l u) : LeadsTo P u := by
  induction runs with
  | refl => exact ahead
  | step _ next _ ih =>
    obtain ⟨-, t, next', still⟩ := recurs.next ahead
    rw [next] at next'
    cases next'
    exact ih still

theorem Recurs.neverCompletes {P : State → Prop} (recurs : Recurs P) {s : State} (ahead : LeadsTo P s) :
    NeverCompletes s := by
  intro l u runs
  obtain ⟨busy, t, next, -⟩ := recurs.next (recurs.leadsTo_of_runs ahead runs)
  exact ⟨busy, t, next⟩

/-! ## The loop that turns for ever -/

/-- GET_SIZE stands at its loop on a uniform chip, and nothing has been stored or emitted since `s`. -/
inductive Turning (s : State) : State → Prop
  | atLoop {v : State} {chip : Chip} {k : Nat} {rest : List Frame} (bound : k ≤ 15) (loop : AtSizeLoop chip k rest v)
      (uniform : Uniform v.cart chip) (results : v.results = s.results) (out : v.out = s.out) : Turning s v

/-- The comparison succeeds at every probe (R155). -/
theorem turning_recurs (s : State) : Recurs (Turning s) := by
  rintro v ⟨bound, loop, uniform, results, out⟩
  obtain ⟨x, idx, first, r, runs⟩ := sizeLoop_success bound loop (blocksEqual_of_uniform uniform _)
  refine ⟨_, _, ?_, runs, .atLoop (by omega) (recorded_at loop x idx first r) uniform results out⟩
  rw [← List.length_pos_iff, pairReads_length]
  exact Nat.mul_pos Nat.two_pos Nat.one_le_two_pow

/-- Called on a uniform chip, GET_SIZE begins to turn. -/
theorem startGetSize_turning {s v : State} {chip : Chip} (rest : List Frame) (g : Going v) (ph : v.ph = none)
    (uniform : Uniform v.cart chip) (results : v.results = s.results) (out : v.out = s.out) :
    Turning s (startGetSize chip rest v) :=
  .atLoop (k := 15) (Nat.le_refl 15) ⟨⟨g.busy, g.driven, g.lines, g.quiet⟩, ph, rfl, rfl⟩ uniform results out

/-- DETECT comes to turn at the first uniform chip it asks for its size (R174, R237). -/
theorem startDetect_leadsTo_turning {s : State} (rest : List Frame) (g : Going s) (ph : s.ph = none)
    (uniform : Uniform s.cart .rom ∨ Uniform s.cart .ram) : LeadsTo (Turning s) (startDetect rest s) := by
  by_cases rom : Uniform s.cart .rom
  · refine ⟨[], _, ?_, startGetSize_turning (.detectRomSized :: rest) g ph rom rfl rfl⟩
    exact .frame g.quiet g.busy ph rfl nofun (.refl _)
  · obtain ⟨j, failure⟩ := exists_first_failure rom
    obtain ⟨x, idx, first, r, k, sized, -⟩ := startGetSize_runs (rest := .detectRomSized :: rest) g ph failure
    have g1 := g.sizeDone j (.detectRomSized :: rest) x idx first r
    have toRam := sized.trans (.frame g1.quiet g1.busy rfl rfl nofun (.refl _))
    exact ⟨_, _, .frame g.quiet g.busy ph rfl nofun toRam,
      startGetSize_turning _ g1 rfl (uniform.resolve_left rom) rfl rfl⟩

/-- A run of DETECT on a uniform chip has stored and emitted nothing: a turn of GET_SIZE is ahead, and there it has not
(R174, R237). -/
theorem startDetect_keeps {s u : State} {rest : List Frame} {l : List BusRead} (g : Going s) (ph : s.ph = none)
    (nothing : s.nothingDetected = true) (uniform : Uniform s.cart .rom ∨ Uniform s.cart .ram)
    (runs : Runs (startDetect rest s) l u) : u.results = s.results ∧ u.out = s.out := by
  have start : Going (startDetect rest s) := ⟨g.busy, g.driven, g.lines, g.quiet⟩
  have before : Grows (startDetect rest s) u := (start.tracks ph (.refl _)).grows runs
  obtain ⟨m, v, onward, ⟨-, -, -, results, out⟩⟩ :=
    (turning_recurs s).leadsTo_of_runs (startDetect_leadsTo_turning rest g ph uniform) runs
  have after : Grows u v := (start.tracks ph runs).grows onward
  exact ⟨(after.results (nothingDetected_of_results results ▸ nothing)).symm.trans results,
    antisymm (out ▸ after.out) before.out⟩

/-- Settles O28: a turn of GET_SIZE is always ahead, so DETECT does not end, and nothing is stored or emitted on the
way. -/
theorem detectHangsWithNothingWritten : Obligations.DetectHangsWithNothingWritten := by
  intro s ready nothing uniform
  have going := ready.accept_going .detect []
  refine ⟨_, execDetect_of_ready ready nothing,
    (turning_recurs _).neverCompletes (startDetect_leadsTo_turning [] going rfl uniform), fun reads u runs => ?_⟩
  obtain ⟨results, out⟩ := startDetect_keeps going rfl nothing uniform runs
  have stillNothing := (nothingDetected_of_results results).trans nothing
  simp only [State.results, Results.mk.injEq] at results
  obtain ⟨size, -, mode, -⟩ := results
  exact ⟨stillNothing, size, mode, out⟩

end Sys2Proof.Machine

/-! # Single steps of the emission, the command loop and the command bytes -/

namespace Sys2Proof.Machine

/-- Between phases an operation in progress takes its innermost control point (R30). -/
theorem advance_frame {s : State} {f : Frame} {rest : List Frame} (busy : s.busy = true) (ph : s.ph = none)
    (stack : s.stack = f :: rest) (ready : Bool) : advance ready s = frameStep ready f rest s := by
  simp [advance, busy, ph, controlStep, stack]

/-! ## Emission -/

/-- Settles O33: an emission awaits no command, so it is the control point that is taken, and it asks the sink. -/
theorem emissionWaitsForTheSink : Obligations.EmissionWaitsForTheSink := by
  intro s v vs rest es busy ph stack
  have awaits : s.awaitsCommand = false := awaitsCommand_of_frame stack nofun
  constructor
  · have fetched : fetch { s with env := .stall :: es } = .advance false { s with env := es } :=
      fetchOwn_of_busy (s := { s with env := es }) busy awaits false
    rw [step, fetched]
    exact congrArg _ (advance_frame (s := { s with env := es }) busy ph stack false)
  · rw [step_advance (s := { s with env := [] }) rfl busy awaits]
    exact congrArg _ (advance_frame (s := { s with env := [] }) busy ph stack true)

/-! ## The command loop -/

theorem awaitsCommand_iff {s : State} :
    s.awaitsCommand = true ↔ s.busy = true ∧ s.ph = none ∧ ∃ rest, s.stack = .commandLoop :: rest := by
  simp [State.awaitsCommand, List.head?_eq_some_iff, and_assoc]

/-- The command loop with no byte at hand returns where the input is finite, and stands still where it is live
(R191). -/
theorem step_commandLoop {s : State} (quiet : Quiet s) (awaits : s.awaitsCommand = true) (input : s.cmdInput = []) :
    step s = .next (if s.cmdLive then s else returnTo s.stack.tail none s) := by
  obtain ⟨busy, ph, rest, stack⟩ := awaitsCommand_iff.mp awaits
  have env : s.env = [] := quiet
  have own : step s = .next (advance true s) := by simp [step, fetch, env, fetchOwn, awaits, input]
  rw [own, advance_frame busy ph stack, stack, frameStep, commandLoop, input]
  cases s.cmdLive <;> rfl

/-- Settles O39: an empty live input lets the command loop stand still. -/
theorem commandLoopBlocksWithoutInput : Obligations.CommandLoopBlocksWithoutInput := by
  intro s quiet awaits input live
  rw [step_commandLoop quiet awaits input, if_pos live]

/-! ## RUN's precondition -/

/-- Settles O40: driven lines, or a validity bit, are not the power-on state. -/
theorem runNeedsThePowerOnState : Obligations.RunNeedsThePowerOnState := by
  intro s idle ground
  have notPowerOn : s.atPowerOn = false := by
    rw [State.atPowerOn, Bool.and_eq_false_iff, Bool.not_eq_false']
    refine ground.imp_right ?_
    rintro ⟨chip, valid⟩
    by_contra nothing
    simp [notValid_of_nothingDetected (Bool.eq_true_of_not_eq_false nothing) chip] at valid
  simp [exec, execRun, whenIdle, idle, notPowerOn]

/-! ## Command bytes without a dump -/

/-- Where a command byte may be dispatched nothing is refused for concurrency (R191, log entry 14). -/
theorem whenDispatching_of {s : State} (dispatching : s.busy = false ∨ s.awaitsCommand = true) (k : Result) :
    whenDispatching s k = k := by
  refine if_neg ?_
  obtain idle | awaits := dispatching
  · simp [idle]
  · simp [awaits]

/-- Settles O41: nothing but the dispatch can refuse the two commands. -/
theorem formatCommandsSetTheFormat : Obligations.FormatCommandsSetTheFormat :=
  ⟨rfl, rfl, fun _ dispatching => ⟨whenDispatching_of dispatching _, whenDispatching_of dispatching _⟩⟩

/-- Settles O42: nothing but the dispatch can refuse the command. -/
theorem otherCommandsChangeNothing : Obligations.OtherCommandsChangeNothing := fun _ c dispatching h b o a =>
  ⟨decodeCommand_of_isOtherCommand ((isOtherCommand_iff c).mpr ⟨h, b, o, a⟩), whenDispatching_of dispatching _⟩

end Sys2Proof.Machine

/-! # Rendering

The digit of a nibble is computed once (`hexDigit_toNat`); a byte of a dump and a size are two and four such digits. -/

namespace Sys2Proof.Machine

/-- The code of a hexadecimal digit, in the case the parameter says (R187). -/
def digitCode (upper : Bool) (n : Nat) : Nat :=
  if n < 10 then 48 + n else if upper then 65 + (n - 10) else 97 + (n - 10)

theorem hexDigit_toNat (upper : Bool) (n : BitVec 4) : (hexDigit upper n).toNat = digitCode upper n.toNat := by
  revert upper n
  decide

/-- The two digits of a byte, high nibble first (R187). -/
theorem hexByte_toNat (upper : Bool) (v : Byte) :
    (hexByte upper v).map BitVec.toNat = [v.toNat / 16, v.toNat % 16].map (digitCode upper) := by
  have high : v.toNat / 16 % 16 = v.toNat / 16 := Nat.mod_eq_of_lt (by have := v.isLt; omega)
  simp [hexByte, hexDigit_toNat, Nat.shiftRight_eq_div_pow, high]

/-- Settles O32: two digits and a space, or the byte. -/
theorem renderingOfADumpedByte : Obligations.RenderingOfADumpedByte := by
  intro p v
  refine ⟨?_, rfl⟩
  rw [render, List.map_append, hexByte_toNat]
  rfl

/-- Settles O31: the table, and its check for the four bank indices. -/
theorem bankIndexSet : Obligations.BankIndexSet := by
  refine ⟨rfl, rfl, rfl, rfl, ?_⟩
  decide

/-! ## Sizes -/

/-- Bit 16 of a size says whether it is 65536 or more (R198). -/
theorem Size.getLsbD_16 (n : Size) : n.getLsbD 16 = decide (65536 ≤ n.toNat) := by
  have small := n.isLt
  rw [BitVec.getLsbD, Nat.testBit_eq_decide_div_mod_eq]
  congr 1
  simp only [eq_iff_iff]
  omega

/-- Settles O47: bit 16 by itself, then the two digits of each of the two low bytes. -/
theorem sizeRendering : Obligations.SizeRendering := by
  refine ⟨fun upper n => ?_, by decide⟩
  have high : (n.extractLsb' 8 8).toNat = n.toNat / 256 % 256 := by simp [Nat.shiftRight_eq_div_pow]
  have low : (n.extractLsb' 0 8).toNat = n.toNat % 256 := by simp
  have digits : [n.toNat / 256 % 256 / 16, n.toNat / 256 % 256 % 16, n.toNat % 256 / 16, n.toNat % 256 % 16]
      = [4096, 256, 16, 1].map (fun w => n.toNat / w % 16) := by
    simp only [List.map_cons, List.map_nil, List.cons.injEq, and_true]
    omega
  have leading : (if n.getLsbD 16 then [0x31#8] else []).map BitVec.toNat = if 65536 ≤ n.toNat then [49] else [] := by
    rw [Size.getLsbD_16]
    by_cases large : 65536 ≤ n.toNat <;> simp [large]
  rw [sizeText, List.map_append, List.map_append, leading, hexByte_toNat, hexByte_toNat, high, low, List.append_assoc,
    ← List.map_append]
  exact congrArg (fun ds => _ ++ List.map (digitCode upper) ds) digits

/-! ## The banner -/

/-- A report line of the machine is the text of R197 for its line, chip and flag. -/
theorem reportLine_toNat (lineB : Bool) (chip : Chip) (affects : Bool) :
    (reportLine lineB chip affects).map BitVec.toNat = codes (reportText lineB chip affects) := by
  cases lineB <;> cases chip <;> cases affects <;> decide

/-- The text before a size is the one of R197. -/
theorem sizePrefix_toNat : (sizePrefix .rom).map BitVec.toNat = codes "ROM Size is $"
    ∧ (sizePrefix .ram).map BitVec.toNat = codes "RAM Size is $" := by
  decide

/-- The report lines, by control line and chip, in the order the parameters give (log entry 18). -/
def reportOrder (t : Config.BannerText) : List (Bool × Chip) :=
  ((([(false, .rom)] : List (Bool × Chip)).insertIdx t.pos2.val (true, .rom)).insertIdx t.pos3.val
    (false, .ram)).insertIdx t.pos4.val (true, .ram)

theorem reportLines_eq (t : Config.BannerText) (mode : PerChip ModeFlags) :
    reportLines t mode = (reportOrder t).map (fun line => reportLine line.1 line.2 (flagOf mode line.1 line.2)) := by
  simp only [reportLines, reportOrder, List.map_insertIdx]
  rfl

/-- Every control line and chip has its report line (R197). -/
theorem reportOrder_perm (t : Config.BannerText) :
    (reportOrder t).Perm [(false, .rom), (true, .rom), (false, .ram), (true, .ram)] := by
  have two := List.perm_insertIdx (true, Chip.rom) [(false, Chip.rom)] t.pos2.is_le
  have three := (List.perm_insertIdx (false, Chip.ram) _ (t.pos3.is_le.trans_eq two.length_eq.symm)).trans (two.cons _)
  have four :=
    (List.perm_insertIdx (true, Chip.ram) _ (t.pos4.is_le.trans_eq three.length_eq.symm)).trans (three.cons _)
  exact four.trans (by decide)

/-- Settles O46: the order is `reportOrder`, and each text is the one of R197. -/
theorem bannerReportsTheDetection : Obligations.BannerReportsTheDetection := by
  intro p
  let t := p.banner
  refine ⟨t.head.map BitVec.toNat, t.afterRom.map BitVec.toNat, t.afterRam.map BitVec.toNat, t.menu.map BitVec.toNat,
    reportOrder t, [t.after1, t.after2, t.after3, t.after4].map (List.map BitVec.toNat), reportOrder_perm t, rfl,
    fun size mode => ?_⟩
  simp only [banner, List.map_append, sizePrefix_toNat, reportLines_eq, List.map_flatten, List.map_zipWith,
    List.zipWith_map_left, List.zipWith_map_right, reportLine_toNat]
  rfl

end Sys2Proof.Machine

/-! # The dump engine as a whole

`dumpDone` names what a dump leaves; `startDump_reaches` is the run of the pseudocode to it. DUMP, CMD_o and CMD_a
differ only in how they enter that run and in where they go on from its end. -/

namespace Sys2Proof.Machine

/-- What a part of the pseudocode that reads and changes `b`'s other fields returns in: what its reads leave is on the
lines, in BYTE and in the operand latches, and `w` is in the other working registers. -/
theorem readsDone_eq_afterReads {t b : State} {reads : List BusRead} {x : ReadEffect} {w : Work} {rest : List Frame}
    {v : Option Size} (start : Going t) (ph : t.ph = none) (runs : Runs t reads (b.readsDone x w rest v))
    (lines : b.lines = Lines.idleAt b.lines.addr) (cart : t.cart = b.cart) (part : t.readPart = b.readPart) :
    b.readsDone x w rest v = { b.afterReads reads with
      work := w.latch (latchedRead (b.afterReads reads).work)
      ph := none
      stack := rest
      ret := v } :=
  readsDone_eq lines (((start.tracks ph runs).settled rfl).trans (afterReads_readPart_congr cart part reads))

/-- What a dump leaves besides its control point: what its reads leave, `b` and `actr` at their end values, and OUT
grown by its text (R186). -/
def dumpDone (d : DumpArgs) (s : State) : State :=
  { s.afterReads (dumpReads d) with
    work := { (s.afterReads (dumpReads d)).work with b := 4#3, actr := d.size }
    out := s.out ++ dumpText s.params s.cart d }

@[simp] theorem dumpDone_busy (d : DumpArgs) (s : State) : (dumpDone d s).busy = s.busy := by
  rw [dumpDone, afterReads_eq]

@[simp] theorem dumpDone_env (d : DumpArgs) (s : State) : (dumpDone d s).env = s.env := by
  rw [dumpDone, afterReads_eq]

@[simp] theorem dumpDone_ph (d : DumpArgs) (s : State) : (dumpDone d s).ph = s.ph := by
  rw [dumpDone, afterReads_eq]

@[simp] theorem dumpDone_stack (d : DumpArgs) (s : State) : (dumpDone d s).stack = s.stack := by
  rw [dumpDone, afterReads_eq]

/-- The pseudocode of a dump runs from between two read cycles to `dumpDone`, at the control points below it (R186). -/
theorem startDump_reaches {s : State} (g : Going s) (ph : s.ph = none) (d : DumpArgs) (rest : List Frame) :
    Runs (startDump d rest s) (dumpReads d) { dumpDone d s with ph := none, stack := rest, ret := none } := by
  obtain ⟨x, r, runs⟩ := startDump_runs (d := d) (rest := rest) g ph
  have start : Going (startDump d rest s) := ⟨g.busy, g.driven, g.lines, g.quiet⟩
  rw [readsDone_eq_afterReads start ph runs g.lines rfl rfl] at runs
  rw [dumpDone, afterReads_work]
  unfold State.afterReads at runs ⊢
  split at runs <;> exact runs

/-- That BUSY rose and OP was set on the way is not seen any more once the dump has returned (R31). -/
theorem returnedNothing_dumpDone_accept (d : DumpArgs) (s : State) (op : Op) :
    State.returnedNothing { dumpDone d (s.accept op []) with ph := none, stack := [], ret := none }
      = (dumpDone d s).returnedNothing := by
  unfold dumpDone State.afterReads
  split <;> rfl

/-- A dump accepted in a ready state completes in `dumpDone`. -/
theorem Ready.dump_completes {s : State} (ready : Ready s) (op : Op) (d : DumpArgs) :
    Completes (startDump d [] (s.accept op [])) (dumpReads d) (dumpDone d s).returnedNothing := by
  have accepted := ready.accept_going op []
  have runs := startDump_reaches accepted rfl d []
  rw [← returnedNothing_dumpDone_accept d s op, ← complete_nothing rfl rfl rfl]
  exact completes_of_runs runs (dumpDone_busy d _) ((dumpDone_env d _).trans ready.quiet) rfl rfl

/-! ## DUMP -/

/-- In a ready state only the size can still be refused (R95, R186). -/
theorem execDump_of_ready {s : State} (ready : Ready s) (d : DumpArgs) :
    exec (.dump d.chip d.affectsA d.affectsB d.size d.format) s
      = whenInDomain d.size (.next (startDump d [] (s.accept .dump []))) := by
  simp [exec, execDump, whenIdle, whenDriven, ready.idle, ready.driven]

/-- Settles O30: the dump of `startDump_reaches`, as an operation of its own. -/
theorem dumpEmitsTheSelectedBanks : Obligations.DumpEmitsTheSelectedBanks := by
  intro s d ready
  rw [execDump_of_ready ready]
  refine ⟨fun large => if_neg (by simpa [sizeInDomain] using large), fun inDomain => ?_⟩
  exact ⟨_, _, if_pos (decide_eq_true inDomain), ready.dump_completes .dump d, rfl⟩

/-! ## CMD_o and CMD_a -/

/-- The command of a chip (R194, R195). -/
theorem exec_dumpCommand (s : State) (chip : Chip) :
    ∃ op, exec (match chip with | .rom => .cmdO | .ram => .cmdA) s = dumpCommand op chip s := by
  cases chip with
  | rom => exact ⟨.cmdO, rfl⟩
  | ram => exact ⟨.cmdA, rfl⟩

/-- With no operation running, the command of a detected chip is accepted as an operation of its own (log entry 14). -/
theorem dumpCommand_of_ready {s : State} {chip : Chip} (ready : Ready s) (op : Op) (size : s.sizeV.get chip = true)
    (mode : s.modeV.get chip = true) (inDomain : (s.size.get chip).toNat ≤ 65536) :
    dumpCommand op chip s = .next (startDump (commandDump s chip) [] (s.accept op [])) := by
  simp [dumpCommand, whenDispatching, whenDriven, whenDetected, whenInDomain, sizeInDomain, enterCommandDump,
    ready.idle, ready.driven, size, mode, inDomain]

/-- Settles O43: the command's dump is that of the detection results, and completes as DUMP does. -/
theorem dumpCommandsDumpTheirChip : Obligations.DumpCommandsDumpTheirChip := by
  intro s chip ready size mode inDomain
  obtain ⟨op, command⟩ := exec_dumpCommand s chip
  exact ⟨_, _, _, command.trans (dumpCommand_of_ready ready op size mode inDomain), rfl,
    ready.dump_completes op (commandDump s chip), rfl⟩

/-- A legal size is in the domain of a dump (R26, R95). -/
theorem sizeInDomain_of_powerOfTwoSize {n : Size} (legal : powerOfTwoSize n = true) : sizeInDomain n = true := by
  simp only [powerOfTwoSize, probes, Bool.or_eq_true, beq_iff_eq, List.contains_eq_mem, List.mem_cons, List.not_mem_nil,
    or_false, decide_eq_true_eq] at legal
  exact decide_eq_true (by omega)

/-- By the invariant, RUN awaits a command only in its command loop, after detection (R191). -/
theorem Inv.inLoop {s : State} (inv : Inv s) (quiet : Quiet s) (awaits : s.awaitsCommand = true) : InLoop s := by
  obtain ⟨busy, ph, rest, stack⟩ := awaitsCommand_iff.mp awaits
  have nested := inv.stack
  rw [stack, stackOk_cons] at nested
  obtain rfl : rest = [] := nested
  have detected : s.allDetected = true := by
    have past := inv.detection
    rw [stack] at past
    exact past rfl
  have sizes := inv.sizes detected
  exact ⟨inv.going quiet busy (inv.driven_of_control busy ph) ph, ph, stack, detected,
    sizeInDomain_of_powerOfTwoSize sizes.1, sizeInDomain_of_powerOfTwoSize sizes.2⟩

/-- A dump run in the command loop leaves the loop as it was (R191). -/
theorem InLoop.dumpDone_eq {s : State} (loop : InLoop s) (d : DumpArgs) :
    ({ dumpDone d s with ph := none, stack := [.commandLoop], ret := none } : State)
      = { dumpDone d s with ret := none } := by
  rw [← loop.ph, ← loop.stack, ← dumpDone_ph d s, ← dumpDone_stack d s]

/-- Settles O44: by the invariant RUN stands in its loop, the dump runs above it and returns there. -/
theorem dumpCommandsReturnToTheLoop : Obligations.DumpCommandsReturnToTheLoop := by
  intro s chip inv quiet awaits
  have loop := inv.inLoop quiet awaits
  obtain ⟨op, command⟩ := exec_dumpCommand s chip
  have runs := startDump_reaches loop.going loop.ph (commandDump s chip) [.commandLoop]
  refine ⟨_, _, _, command.trans (dumpCommand_inLoop loop op chip), rfl, runs, ?_, loop.dumpDone_eq _⟩
  simp [State.awaitsCommand, loop.going.busy]

end Sys2Proof.Machine

/-! # RUN

RUN brings the lines up and calls DETECT (`run_toDetect`). On two chips that are not uniform detection ends, the banner
is emitted, and the command loop is reached (`detect_toLoop`). -/

namespace Sys2Proof.Machine

/-- The state in which RUN has been accepted (R191). -/
def runAccepted (s : State) : State := startBringup [.runBroughtUp] ((s.accept .run []).setFormat .binary)

theorem execRun_of_powerOn {s : State} (idle : s.busy = false) (powerOn : s.atPowerOn = true) :
    exec .run s = .next (runAccepted s) := by
  simp [exec, execRun, whenIdle, idle, powerOn, runAccepted]

/-- The state in which bring-up has returned to RUN. -/
def runBrought (s : State) : State := bringupDone (runAccepted s)

theorem runBrought_going {s : State} (quiet : Quiet s) : Going (runBrought s) := bringupDone_going rfl quiet

/-- Bring-up, then the call of DETECT (R121, R191). -/
theorem run_toDetect {s : State} (quiet : Quiet s) :
    Runs (runAccepted s) [] (startDetect [.runDetected] (runBrought s)) :=
  have g := runBrought_going quiet
  (bringup_runs (s := runAccepted s) rfl quiet rfl).trans (.frame g.quiet g.busy rfl rfl nofun (.refl _))

/-- What RUN makes of the block besides what its reads and its working registers leave: the lines brought up, the
detection results stored, the format, OUT and the rest of the input as given. -/
def runStored (s : State) (size : PerChip Size) (mode : PerChip ModeFlags) (f : Format) (out input : List Byte) :
    State :=
  { (runBrought s).storeDetection size.rom size.ram mode.rom mode.ram with format := f, out := out, cmdInput := input }

/-- The state in which RUN comes to its command loop: everything detected, the banner emitted, no byte consumed. -/
def runGreeted (s : State) (size : PerChip Size) (mode : PerChip ModeFlags) (w : Work) : State :=
  (runStored s size mode .binary (s.out ++ banner s.params size mode) s.cmdInput).readsDone
    ((lastProbeRead .ram).effect s.cart) w [.commandLoop] none

/-- The working registers there: those of GET_SIZE, `2 ^ j` being its last probe, and of
PROBE_MODE, both of the RAM (R174). -/
def runWork (s : State) (j : Nat) (idx : Size) (first : Byte) : Work :=
  ({ s.work with
      sizeW := BitVec.ofNat 17 (2 ^ (j + 1))
      probe := BitVec.ofNat 16 (2 ^ j)
      bs := BitVec.ofNat 17 (2 ^ j)
      idx := idx
      first := first }).probed (dev s.cart .ram false false 0) (modeOf s.cart .ram) (lastProbeRead .ram)

/-- After detection the banner is emitted and the command loop begins (R191, R197). -/
theorem runDetected_runs {s : State} (g : Going s) (ph : s.ph = none) (stack : s.stack = [.runDetected]) :
    Runs s [] ((s.pushAll (banner s.params s.size s.mode)).setStack [.commandLoop]) := by
  refine .frame g.quiet g.busy ph stack nofun ?_
  exact emit_runs (s := runDetected [] s) _ ⟨g.busy, g.driven, g.lines, g.quiet⟩ ph rfl

/-- The sizes GET_SIZE returns where `2 ^ j0` and `2 ^ j1` are the first failing probes (R156). -/
def detectedSizes (j0 j1 : Nat) : PerChip Size := ⟨BitVec.ofNat 17 (2 ^ (j0 + 1)), BitVec.ofNat 17 (2 ^ (j1 + 1))⟩

/-- The modes of the two chips (R170). -/
def detectedModes (cart : List Host.Cell) : PerChip ModeFlags := ⟨modeOf cart .rom, modeOf cart .ram⟩

/-- The sizes GET_SIZE can return are in the domain of a dump (R26, R95). -/
theorem sizeInDomain_pow {j : Nat} (le : j ≤ 15) : sizeInDomain (BitVec.ofNat 17 (2 ^ (j + 1))) = true := by
  have below : 2 ^ (j + 1) ≤ 2 ^ 16 := Nat.pow_le_pow_right Nat.two_pos (Nat.succ_le_succ le)
  exact decide_eq_true ((Nat.mod_le _ _).trans below)

theorem runGreeted_inLoop {s : State} (quiet : Quiet s) {j0 j1 : Nat} (rom : j0 ≤ 15) (ram : j1 ≤ 15)
    (mode : PerChip ModeFlags) (w : Work) : InLoop (runGreeted s (detectedSizes j0 j1) mode w) :=
  ⟨⟨rfl, rfl, rfl, quiet⟩, rfl, rfl, rfl, sizeInDomain_pow rom, sizeInDomain_pow ram⟩

/-- DETECT in RUN on two chips that are not uniform, and the banner (R174, R191). -/
theorem detect_toLoop {s : State} (quiet : Quiet s) {j0 j1 : Nat} (h0 : FirstFailure s.cart .rom j0)
    (h1 : FirstFailure s.cart .ram j1) :
    ∃ k0 k1 idx first, IsPairCount s.params.compareEarlyExit s.cart .rom (2 ^ j0) k0
      ∧ IsPairCount s.params.compareEarlyExit s.cart .ram (2 ^ j1) k1
      ∧ Runs (startDetect [.runDetected] (runBrought s))
        (sizeSweep .rom (2 ^ (j0 + 1)) k0 ++ sizeSweep .ram (2 ^ (j1 + 1)) k1 ++ probeReads .rom ++ probeReads .ram)
        (runGreeted s (detectedSizes j0 j1) (detectedModes s.cart) (runWork s j1 idx first)) := by
  have g := runBrought_going quiet
  obtain ⟨idx, first, k0, k1, detected, count0, count1⟩ := startDetect_runs (rest := [.runDetected]) g rfl h0 h1
  rw [sizeReads_eq h0.le, sizeReads_eq h1.le, ← List.append_assoc, ← List.append_assoc] at detected
  refine ⟨k0, k1, idx, first, count0.isPairCount, count1.isPairCount, ?_⟩
  have greeted := detected.trans (runDetected_runs ⟨g.busy, g.driven, rfl, g.quiet⟩ rfl rfl)
  rw [List.append_nil] at greeted
  exact greeted

/-! ## A finite input -/

/-- Once there was a read cycle, the last one determines what is on the lines, in BYTE and in the operand latches: that
the lines were brought up before it is not seen there any more. -/
theorem returnedNothing_runStored {s : State} {size : PerChip Size} {mode : PerChip ModeFlags} {f : Format}
    {out input : List Byte} {reads : List BusRead} (some_read : reads ≠ []) (w : Work) :
    State.returnedNothing { (runStored s size mode f out input).afterReads reads with
      work := w.latch (latchedRead ((runStored s size mode f out input).afterReads reads).work)
      ph := none
      stack := []
      ret := none }
    = State.returnedNothing { s.afterReads reads with
      driven := true
      size := size
      sizeV := ⟨true, true⟩
      mode := mode
      modeV := ⟨true, true⟩
      format := f
      work := w.latch (latchedRead (s.afterReads reads).work)
      out := out
      cmdInput := input } := by
  obtain ⟨r, last⟩ := Option.ne_none_iff_exists'.mp (mt List.getLast?_eq_none_iff.mp some_read)
  simp only [State.afterReads, last]
  rfl

/-- From its command loop RUN serves a finite input and completes (R191 to R196). -/
theorem run_completes {s : State} (quiet : Quiet s) (finite : s.cmdLive = false) {size : PerChip Size}
    {mode : PerChip ModeFlags} {w : Work} {reads : List BusRead} (loop : InLoop (runGreeted s size mode w))
    (detected : Runs (startDetect [.runDetected] (runBrought s)) reads (runGreeted s size mode w))
    (some_read : reads ≠ []) :
    Completes (runAccepted s) (reads ++ sessionReads size mode s.cmdInput)
      (State.returnedNothing { s.afterReads (reads ++ sessionReads size mode s.cmdInput) with
        driven := true
        size := size
        sizeV := ⟨true, true⟩
        mode := mode
        modeV := ⟨true, true⟩
        format := formatAfter .binary s.cmdInput
        work := { w with
          b := (sessionCounters size (w.b, w.actr) s.cmdInput).1
          actr := (sessionCounters size (w.b, w.actr) s.cmdInput).2 }.latch
            (latchedRead (s.afterReads (reads ++ sessionReads size mode s.cmdInput)).work)
        out := s.out ++ banner s.params size mode ++ sessionText s.params s.cart size mode .binary s.cmdInput
        cmdInput := [] }) := by
  obtain ⟨x, r, session⟩ := session_runs s.cmdInput loop rfl finite
  have g := runBrought_going quiet
  have start : Going (startDetect [.runDetected] (runBrought s)) := ⟨g.busy, g.driven, g.lines, g.quiet⟩
  have runs := detected.trans session
  have ended := readsDone_eq_afterReads (b := runStored s size mode (formatAfter .binary s.cmdInput)
    (s.out ++ banner s.params size mode ++ sessionText s.params s.cart size mode .binary s.cmdInput) [])
    start rfl runs rfl rfl rfl
  have completes := completes_of_runs ((run_toDetect quiet).trans runs) rfl quiet rfl rfl
  rw [complete_nothing rfl rfl rfl] at completes
  rw [← returnedNothing_runStored (fun none => some_read (List.append_eq_nil_iff.mp none).1)]
  exact (congrArg State.returnedNothing ended) ▸ completes

/-- Settles O36: detection and the banner (`detect_toLoop`), then the commands and the end (`run_completes`). -/
theorem runServesAFiniteInput : Obligations.RunServesAFiniteInput := by
  intro s idle powerOn quiet finite romNotUniform ramNotUniform
  obtain ⟨j0, failure0⟩ := exists_first_failure romNotUniform
  obtain ⟨j1, failure1⟩ := exists_first_failure ramNotUniform
  obtain ⟨k0, k1, idx, first, count0, count1, detected⟩ := detect_toLoop quiet failure0 failure1
  have loop := runGreeted_inLoop quiet failure0.le failure1.le (detectedModes s.cart) (runWork s j1 idx first)
  have completes := run_completes quiet finite loop detected (by simp [probeReads])
  refine ⟨_, _, 2 ^ (j0 + 1), 2 ^ (j1 + 1), k0, k1, idx, first, _, _, _, execRun_of_powerOn idle powerOn,
    failure0.isDetectedSize, failure1.isDetectedSize, ?_, ?_, rfl, rfl, rfl, completes, ?_⟩
  · rwa [pow_succ_half]
  · rwa [pow_succ_half]
  · rw [pow_succ_half, afterReads_work s]
    rfl

end Sys2Proof.Machine

/-! # RUN that does not end

On a live input the commands at hand are served and the command loop then stands still. On a uniform chip GET_SIZE turns
for ever (`turning_recurs`), and no byte of the input is consumed either. -/

namespace Sys2Proof.Machine

/-! ## A live input -/

/-- A dump command runs above the command loop and returns there (R191, R194, R195). -/
theorem InLoop.dumpCommand_runs {s : State} (loop : InLoop s) (op : Op) (chip : Chip) :
    ∃ t reads u, dumpCommand op chip s = .next t ∧ Runs t reads u ∧ InLoop u ∧ u.cmdInput = s.cmdInput
      ∧ u.cmdLive = s.cmdLive := by
  obtain ⟨x, r, runs⟩ := startDump_runs (d := commandDump s chip) (rest := [.commandLoop]) loop.going loop.ph
  have g := loop.going
  exact ⟨_, _, _, dumpCommand_inLoop loop op chip, runs,
    ⟨⟨g.busy, g.driven, rfl, g.quiet⟩, rfl, rfl, loop.detected, loop.sizes⟩, rfl, rfl⟩

/-- Whatever the byte, its command runs in the command loop and returns there (R192 to R196). -/
theorem InLoop.exec_runs {s : State} (loop : InLoop s) (c : Byte) :
    ∃ t reads u, exec (decodeCommand c) s = .next t ∧ Runs t reads u ∧ InLoop u ∧ u.cmdInput = s.cmdInput
      ∧ u.cmdLive = s.cmdLive := by
  have dispatching : s.busy = false ∨ s.awaitsCommand = true := .inr loop.awaits
  have g := loop.going
  have formatted : ∀ f, InLoop (s.setFormat f) := fun _ =>
    ⟨⟨g.busy, g.driven, g.lines, g.quiet⟩, loop.ph, loop.stack, loop.detected, loop.sizes⟩
  obtain rfl | rfl | rfl | rfl | other := command_cases c
  · exact ⟨_, _, _, whenDispatching_of dispatching _, .refl _, formatted .hex, rfl, rfl⟩
  · exact ⟨_, _, _, whenDispatching_of dispatching _, .refl _, formatted .binary, rfl, rfl⟩
  · exact loop.dumpCommand_runs .cmdO .rom
  · exact loop.dumpCommand_runs .cmdA .ram
  · rw [decodeCommand_of_isOtherCommand other]
    exact ⟨_, _, _, whenDispatching_of dispatching _, .refl _, loop, rfl, rfl⟩

/-- The bytes at hand are all served, and the command loop stands again (R191). -/
theorem InLoop.drains {s : State} (loop : InLoop s) {cs : List Byte} (input : s.cmdInput = cs) :
    ∃ reads u, Runs s reads u ∧ InLoop u ∧ u.cmdInput = [] ∧ u.cmdLive = s.cmdLive := by
  induction cs generalizing s with
  | nil => exact ⟨_, _, .refl s, loop, input, rfl⟩
  | cons c cs ih =>
    have g := loop.going
    have consumed : InLoop { s with cmdInput := cs } :=
      ⟨⟨g.busy, g.driven, g.lines, g.quiet⟩, loop.ph, loop.stack, loop.detected, loop.sizes⟩
    obtain ⟨t, reads, u, executed, runs, loop', input', live⟩ := consumed.exec_runs c
    obtain ⟨more, v, onward, done, empty, live'⟩ := ih loop' input'
    have first : Runs s reads u :=
      .silent g.busy (by simp [loop.ph]) ((step_command loop input).trans executed) runs
    exact ⟨_, v, first.trans onward, done, empty, live'.trans live⟩

/-- The command loop on a live input without a byte never ends: it stands still (R191, R221). -/
theorem InLoop.neverCompletes {s : State} (loop : InLoop s) (input : s.cmdInput = []) (live : s.cmdLive = true) :
    NeverCompletes s := by
  have still : step s = .next s := commandLoopBlocksWithoutInput s loop.going.quiet loop.awaits input live
  refine neverCompletes_of_recurrence (P := (· = s)) ?_ rfl
  rintro _ rfl
  exact ⟨0, _, _, .step loop.going.busy still (.refl _), rfl⟩

/-! ## A uniform chip -/

theorem advance_inputs (ready : Bool) (s : State) :
    (advance ready s).env = s.env ∧ (advance ready s).cmdInput = s.cmdInput := by
  unfold advance
  split
  · split
    · next p _ => exact ⟨(phaseStep_effect p s).env, (phaseStep_effect p s).cmdInput⟩
    · unfold controlStep
      split
      · exact ⟨(complete_effect s).env, (complete_effect s).cmdInput⟩
      · next f rest _ => exact ⟨(frameStep_effect ready f rest s).env, (frameStep_effect ready f rest s).cmdInput⟩
  · exact ⟨rfl, rfl⟩

/-- With no input pending, fetch finds the next byte of CMD_INPUT, finds RUN, or finds no instruction (R191, R231). -/
theorem fetch_quiet_cases {s : State} (quiet : Quiet s) :
    (∃ i c cs, s.cmdInput = c :: cs ∧ fetch s = .instr i { s with cmdInput := cs })
      ∨ fetch s = .instr .run s ∨ fetch s = .advance true s := by
  have env : s.env = [] := quiet
  simp only [fetch, env, fetchOwn]
  split
  · split
    · next c cs input => exact .inl ⟨_, c, cs, input, rfl⟩
    · exact .inr (.inr rfl)
  · split
    · exact .inr (.inl rfl)
    · exact .inr (.inr rfl)

/-- With no input pending, a step at most takes the first byte off CMD_INPUT (R33, R191). -/
theorem step_inputs {s t : State} (quiet : Quiet s) (h : step s = .next t) : Quiet t ∧ t.cmdInput <:+ s.cmdInput := by
  unfold step at h
  obtain ⟨i, c, cs, input, fetched⟩ | fetched | fetched := fetch_quiet_cases quiet
  · rw [fetched] at h
    have e := (exec_next h).effect
    exact ⟨e.env.trans quiet, by rw [e.cmdInput, input]; exact List.suffix_cons c cs⟩
  · rw [fetched] at h
    have e := (exec_next h).effect
    exact ⟨e.env.trans quiet, by rw [e.cmdInput]⟩
  · rw [fetched] at h
    cases h
    obtain ⟨env, cmdInput⟩ := advance_inputs true s
    exact ⟨env.trans quiet, by rw [cmdInput]⟩

/-- With no input pending, a run takes nothing back of what it stored or emitted, and gives no byte of CMD_INPUT
back. -/
theorem Runs.onward {s u : State} {reads : List BusRead} (runs : Runs s reads u) (quiet : Quiet s) :
    Quiet u ∧ Grows s u ∧ u.cmdInput <:+ s.cmdInput := by
  induction runs with
  | refl s => exact ⟨quiet, .refl s, List.suffix_rfl⟩
  | step _ next _ ih =>
    obtain ⟨quiet', input⟩ := step_inputs quiet next
    obtain ⟨quiet'', grows, input'⟩ := ih quiet'
    exact ⟨quiet'', (step_cases quiet.notReset next).grows.trans grows, input'.trans input⟩

/-- GET_SIZE turns on a uniform chip, and no byte of CMD_INPUT has been consumed since `s`. -/
def TurningUnread (s v : State) : Prop := Turning s v ∧ v.cmdInput = s.cmdInput

theorem turningUnread_recurs (s : State) : Recurs (TurningUnread s) := by
  rintro v ⟨⟨bound, loop, uniform, results, out⟩, input⟩
  obtain ⟨x, idx, first, r, runs⟩ := sizeLoop_success bound loop (blocksEqual_of_uniform uniform _)
  have again := recorded_at loop x idx first r
  refine ⟨_, _, ?_, runs, .atLoop (by omega) again uniform results out, input⟩
  rw [← List.length_pos_iff, pairReads_length]
  exact Nat.mul_pos Nat.two_pos Nat.one_le_two_pow

/-- DETECT asks the first uniform chip for its size with the input as it was. -/
theorem startDetect_leadsTo_turningUnread {s : State} (rest : List Frame) (g : Going s) (ph : s.ph = none)
    (uniform : Uniform s.cart .rom ∨ Uniform s.cart .ram) : LeadsTo (TurningUnread s) (startDetect rest s) := by
  by_cases rom : Uniform s.cart .rom
  · refine ⟨[], _, ?_, startGetSize_turning (.detectRomSized :: rest) g ph rom rfl rfl, rfl⟩
    exact .frame g.quiet g.busy ph rfl nofun (.refl _)
  · obtain ⟨j, failure⟩ := exists_first_failure rom
    obtain ⟨x, idx, first, r, k, sized, -⟩ := startGetSize_runs (rest := .detectRomSized :: rest) g ph failure
    have g1 := g.sizeDone j (.detectRomSized :: rest) x idx first r
    have toRam := sized.trans (.frame g1.quiet g1.busy rfl rfl nofun (.refl _))
    exact ⟨_, _, .frame g.quiet g.busy ph rfl nofun toRam,
      startGetSize_turning _ g1 rfl (uniform.resolve_left rom) rfl rfl, rfl⟩

theorem run_leadsTo_turningUnread {s : State} (quiet : Quiet s) (uniform : Uniform s.cart .rom ∨ Uniform s.cart .ram) :
    LeadsTo (TurningUnread (runBrought s)) (runAccepted s) := by
  obtain ⟨reads, v, runs, turning⟩ :=
    startDetect_leadsTo_turningUnread [.runDetected] (runBrought_going quiet) rfl uniform
  exact ⟨_, v, (run_toDetect quiet).trans runs, turning⟩

/-- Settles O37: a turn of GET_SIZE is always ahead, and there nothing has been stored, emitted or consumed, so neither
has it before. -/
theorem runHangsOnAUniformChip : Obligations.RunHangsOnAUniformChip := by
  intro s idle powerOn quiet uniform
  have ahead := run_leadsTo_turningUnread quiet uniform
  have recurs := turningUnread_recurs (runBrought s)
  refine ⟨_, execRun_of_powerOn idle powerOn, recurs.neverCompletes ahead, fun reads u runs => ?_⟩
  obtain ⟨more, v, onward, ⟨-, -, -, results, out⟩, input⟩ := recurs.leadsTo_of_runs ahead runs
  obtain ⟨quiet', before, consumed⟩ := runs.onward quiet
  obtain ⟨-, after, consumed'⟩ := onward.onward quiet'
  have nothing : s.nothingDetected = true := (Bool.and_eq_true_iff.mp powerOn).2
  have vNothing : v.nothingDetected = true := (nothingDetected_of_results results).trans nothing
  have same : u.out = s.out := antisymm (out ▸ after.out) before.out
  refine ⟨(nothingDetected_of_results (after.results vNothing)).symm.trans vNothing, same, ?_⟩
  exact List.IsSuffix.eq_of_length_le consumed (input ▸ consumed'.length_le)

/-- Settles O38: with a uniform chip RUN hangs in detection (O37); otherwise it comes to its command loop
(`detect_toLoop`), serves the bytes at hand and stands still. -/
theorem runOnALiveInputNeverCompletes : Obligations.RunOnALiveInputNeverCompletes := by
  intro s idle powerOn quiet live
  by_cases uniform : Uniform s.cart .rom ∨ Uniform s.cart .ram
  · obtain ⟨t, accepted, hangs, -⟩ := runHangsOnAUniformChip s idle powerOn quiet uniform
    exact ⟨t, accepted, hangs⟩
  · obtain ⟨romNotUniform, ramNotUniform⟩ := not_or.mp uniform
    obtain ⟨j0, failure0⟩ := exists_first_failure romNotUniform
    obtain ⟨j1, failure1⟩ := exists_first_failure ramNotUniform
    obtain ⟨k0, k1, idx, first, -, -, detected⟩ := detect_toLoop quiet failure0 failure1
    have loop := runGreeted_inLoop quiet failure0.le failure1.le (detectedModes s.cart) (runWork s j1 idx first)
    obtain ⟨reads, u, served, loop', empty, live'⟩ := loop.drains rfl
    exact ⟨_, execRun_of_powerOn idle powerOn,
      .of_runs (((run_toDetect quiet).trans detected).trans served) (loop'.neverCompletes empty (live'.trans live))⟩

end Sys2Proof.Machine

/-! # External reset and starting up -/

namespace Sys2Proof.Machine

theorem step_externalReset {s : State} {es : List Input} (env : s.env = .externalReset :: es) :
    step s = .next (externalReset { s with env := es }) := by
  simp only [step, fetch, env]

/-- What the block shows after external reset it shows at reset: what external reset keeps, it does not show (R230). -/
theorem externalReset_isPowerOn (s : State) : IsPowerOn (externalReset s) where
  __ := resetIsThePowerOnState

/-- Settles O7: the step is `externalReset`, which gives the power-on state and keeps the rest by definition. -/
theorem externalResetGivesThePowerOnState : Obligations.ExternalResetGivesThePowerOnState := by
  intro s es env
  exact ⟨_, step_externalReset env, externalReset_isPowerOn _, rfl, rfl, rfl⟩

theorem awaitsCommand_of_idle {s : State} (idle : s.busy = false) : s.awaitsCommand = false := by
  simp [State.awaitsCommand, idle]

/-- With no input pending, a block that may start up by itself runs RUN (R215, R231). -/
theorem step_startsUp {s : State} (quiet : Quiet s) (startsUp : s.startsUp = true) : step s = exec .run s := by
  have env : s.env = [] := quiet
  have idle : s.busy = false := by
    simp only [State.startsUp, Bool.and_eq_true, Bool.not_eq_true'] at startsUp
    exact startsUp.1.2
  simp [step, fetch, env, fetchOwn, awaitsCommand_of_idle idle, startsUp]

theorem externalReset_startsUp (s : State) : (externalReset s).startsUp = s.autoRun := by
  have idle : (externalReset s).busy = false := rfl
  have powerOn : (externalReset s).atPowerOn = true := rfl
  have autoRun : (externalReset s).autoRun = s.autoRun := rfl
  simp only [State.startsUp, idle, powerOn, autoRun, Bool.not_false, Bool.and_true]

/-- Settles O8: an idle block in the power-on state may start up by itself, and so may the block after an external
reset. -/
theorem powerOnStartsRun : Obligations.PowerOnStartsRun := by
  refine ⟨fun s quiet idle powerOn autoRun => step_startsUp quiet ?_, fun s t env autoRun h => ?_⟩
  · simp [State.startsUp, idle, powerOn, autoRun]
  · cases (step_externalReset env).symm.trans h
    exact step_startsUp rfl ((externalReset_startsUp _).trans autoRun)

end Sys2Proof.Machine

/-! # The waits and their cycle counts -/

namespace Sys2Proof.Machine

/-- The cycle count of a duration is the least that lasts as long (R236). -/
theorem cyclesOfUs_isCeiling (us fClkHz : Nat) :
    us * fClkHz ≤ cyclesOfUs us fClkHz * 1000000 ∧ cyclesOfUs us fClkHz * 1000000 < us * fClkHz + 1000000 := by
  unfold cyclesOfUs
  generalize us * fClkHz = n
  omega

/-- RB7 and BU3 are the only waits (R218). -/
theorem phaseWaitUs_of_noWait (p : Config.Params) {ph : Phase} (notHold : ph ≠ .rb7) (notReset : ph ≠ .bu3) :
    phaseWaitUs p ph = 0 := by
  cases ph with
  | rb7 => exact absurd rfl notHold
  | bu3 => exact absurd rfl notReset
  | _ => rfl

/-- Settles O20: each wait is its bound and a surplus, and each cycle count is a ceiling (`cyclesOfUs_isCeiling`). -/
theorem waitsAreNotShorterThanTheirBounds : Obligations.WaitsAreNotShorterThanTheirBounds := by
  intro p
  have hold : 6 ≤ phaseWaitUs p .rb7 := Nat.le_add_right Config.holdMinUs p.holdExtraUs
  have reset : 100 ≤ phaseWaitUs p .bu3 := Nat.le_add_right Config.resetMinUs p.resetExtraUs
  obtain ⟨holdLe, holdLt⟩ := cyclesOfUs_isCeiling p.tHoldUs p.fClkHz
  obtain ⟨resetLe, resetLt⟩ := cyclesOfUs_isCeiling p.tResetUs p.fClkHz
  exact ⟨hold, reset, fun _ => phaseWaitUs_of_noWait p, holdLe, holdLt, resetLe, resetLt⟩

end Sys2Proof.Machine

/-! # Operations out of order -/

namespace Sys2Proof.Machine

/-- With no operation running nothing is refused for concurrency (R31). -/
theorem whenIdle_of_idle {s : State} (idle : s.busy = false) (k : Result) : whenIdle s k = k :=
  if_neg (Bool.eq_false_iff.mp idle)

/-- Before bring-up the lines are not driven, and nothing that reads the cartridge goes on (R232 (a)). -/
theorem whenDriven_of_notDriven {s : State} (notDriven : s.driven = false) (k : Result) :
    whenDriven s k = .refused .notBroughtUp :=
  if_neg (Bool.eq_false_iff.mp notDriven)

theorem whenDriven_of_driven {s : State} (driven : s.driven = true) (k : Result) : whenDriven s k = k := if_pos driven

/-- One result without its validity bit is enough to refuse the dump of a chip (R26, R27, R232 (c)). -/
theorem whenDetected_of_notValid {s : State} {chip : Chip}
    (notValid : s.sizeV.get chip = false ∨ s.modeV.get chip = false) (k : Result) :
    whenDetected s chip k = .refused .registerNotValid :=
  if_neg (Bool.eq_false_iff.mp (Bool.and_eq_false_iff.mpr notValid))

/-- Settles O11: after idleness, bring-up is the first thing each of the six operations asks for (log entry 22). -/
theorem readingOperationsNeedBringup : Obligations.ReadingOperationsNeedBringup := by
  intro s chip bankA bankB address n format idle notDriven
  have refused (k : Result) : whenIdle s (whenDriven s k) = .refused .notBroughtUp :=
    (whenIdle_of_idle idle _).trans (whenDriven_of_notDriven notDriven k)
  exact ⟨refused _, refused _, refused _, refused _, refused _, refused _⟩

/-- A dump command that may be dispatched after bring-up is refused while a result of its chip is missing (R194, R195,
log entry 23). -/
theorem dumpCommand_of_notValid {s : State} {chip : Chip} (dispatching : s.busy = false ∨ s.awaitsCommand = true)
    (driven : s.driven = true) (notValid : s.sizeV.get chip = false ∨ s.modeV.get chip = false) (op : Op) :
    dumpCommand op chip s = .refused .registerNotValid := by
  rw [dumpCommand, whenDispatching_of dispatching, whenDriven_of_driven driven, whenDetected_of_notValid notValid]

/-- Settles O45: the command may be dispatched and the lines are driven, so the missing result is what refuses it (log
entry 23). -/
theorem dumpCommandsNeedDetection : Obligations.DumpCommandsNeedDetection := by
  intro s chip idle driven notValid
  obtain ⟨op, command⟩ := exec_dumpCommand s chip
  exact command.trans (dumpCommand_of_notValid (.inl idle) driven notValid op)

end Sys2Proof.Machine
